-- ==== Sys2Proof/Word.lean ====
section
/-! DEFINITION. The two word types of the block (spec/00_scope.md R10): a byte and a 16-bit field. -/

namespace Sys2Proof

/-- `u8`, a byte (R10). -/
abbrev Byte := BitVec 8

/-- A 16-bit operand field, read as `s16` or `u16` by the rule that uses it (R10, R91). -/
abbrev Half := BitVec 16

end Sys2Proof
end

