-- ==== Sys2Proof/Syntax.lean ====
section
/-! DEFINITION. The operations of the block: one constructor per row of spec/opcode_table.json
(spec/30_encoding.md R92 host opcodes, R100 transport operations, R103 device commands). -/

namespace Sys2Proof

/-- The three code spaces of spec/30_encoding.md: the host port (R90), the internal transport port
(R100) and the device command bytes (R103). -/
inductive Port where
  | host
  | tp
  | dev
deriving DecidableEq, Repr

/-- One operation with its operands. `s16` and `u16` operands are kept as their 16-bit field (R91); a
`c1` operand is a `Bool`, since only 0 and 1 are legal (R94). A length field that its byte list
determines (`n`, `len`) is not kept. -/
inductive Instr where
  /-- FILL (R131). -/
  | fill (c : Bool)
  /-- SET_PIXEL (R132). -/
  | setPixel (x y : Half) (c : Bool)
  /-- GET_PIXEL (R133). -/
  | getPixel (x y : Half)
  /-- HLINE (R134). -/
  | hline (x y w : Half) (c : Bool)
  /-- VLINE (R135). -/
  | vline (x y h : Half) (c : Bool)
  /-- LINE (R136). -/
  | line (x1 y1 x2 y2 : Half) (c : Bool)
  /-- RECT (R137). -/
  | rect (x y w h : Half) (c : Bool)
  /-- FILL_RECT (R138). -/
  | fillRect (x y w h : Half) (c : Bool)
  /-- DRAW_TEXT (R139). -/
  | drawText (x y : Half) (c : Bool) (text : List Byte)
  /-- BLIT (R140). -/
  | blit (x y sw sh : Half) (src : List Byte)
  /-- INIT (R170). -/
  | init
  /-- SHOW (R175). -/
  | showBuffer
  /-- POWEROFF (R176). -/
  | powerOff
  /-- POWERON (R177). -/
  | powerOn
  /-- CONTRAST (R178). -/
  | contrast (v : Half)
  /-- INVERT (R179). -/
  | invert (f : Bool)
  /-- ROTATE (R180). -/
  | rotate (f : Bool)
  /-- DRAW_SCALED_TEXT (R251). -/
  | drawScaledText (x y scale : Half) (c : Bool) (text : List Byte)
  /-- DRAW_TEXT_MAX (R253). -/
  | drawTextMax (text : List Byte)
  /-- DECODE_FRAME (R270). -/
  | decodeFrame (frame : List Byte)
  /-- TP_CMD (R226, R230). -/
  | tpCmd (b : Byte)
  /-- TP_DATA (R227, R231). -/
  | tpData (l : List Byte)
  /-- DEV_CONTRAST (R190). -/
  | devContrast (v : Byte)
  /-- DEV_ENTIRE_ON (R191). -/
  | devEntireOn
  /-- DEV_NORM_INV (R192). -/
  | devNormInv (i : Bool)
  /-- DEV_DISPLAY (R193). -/
  | devDisplay (d : Bool)
  /-- DEV_MEM_ADDR_MODE (R194). -/
  | devMemAddrMode (mode : Byte)
  /-- DEV_COL_ADDR (R195). -/
  | devColAddr (first last : Byte)
  /-- DEV_PAGE_ADDR (R196). -/
  | devPageAddr (first last : Byte)
  /-- DEV_START_LINE (R197). -/
  | devStartLine (line : BitVec 6)
  /-- DEV_SEG_REMAP (R198). -/
  | devSegRemap (r : Bool)
  /-- DEV_MUX_RATIO (R199). -/
  | devMuxRatio (ratio : Byte)
  /-- DEV_COM_DIR (R200). -/
  | devComDir (d : Bool)
  /-- DEV_DISP_OFFSET (R201). -/
  | devDispOffset (offset : Byte)
  /-- DEV_COM_PINS (R202). -/
  | devComPins (pins : Byte)
  /-- DEV_CLK_DIV (R203). -/
  | devClkDiv (divide : Byte)
  /-- DEV_PRECHARGE (R204). -/
  | devPrecharge (period : Byte)
  /-- DEV_VCOM_DESEL (R205). -/
  | devVcomDesel (level : Byte)
  /-- DEV_CHARGE_PUMP (R206). -/
  | devChargePump (setting : Byte)
deriving DecidableEq, Repr

/-- The code space an operation belongs to: the `format` of its row in spec/opcode_table.json. -/
def Instr.port : Instr → Port
  | .fill _ | .setPixel _ _ _ | .getPixel _ _ | .hline _ _ _ _ | .vline _ _ _ _
  | .line _ _ _ _ _ | .rect _ _ _ _ _ | .fillRect _ _ _ _ _ | .drawText _ _ _ _
  | .blit _ _ _ _ _ | .init | .showBuffer | .powerOff | .powerOn | .contrast _ | .invert _
  | .rotate _ | .drawScaledText _ _ _ _ _ | .drawTextMax _ | .decodeFrame _ => .host
  | .tpCmd _ | .tpData _ => .tp
  | .devContrast _ | .devEntireOn | .devNormInv _ | .devDisplay _ | .devMemAddrMode _
  | .devColAddr _ _ | .devPageAddr _ _ | .devStartLine _ | .devSegRemap _ | .devMuxRatio _
  | .devComDir _ | .devDispOffset _ | .devComPins _ | .devClkDiv _ | .devPrecharge _
  | .devVcomDesel _ | .devChargePump _ => .dev

end Sys2Proof
end

