-- ==== Sys2Proof/WellFormed.lean ====
section
/-! DEFINITION. Which operations can be written in their code space: the operand limits of
spec/30_encoding.md R91, R93, R94 and R95. -/

namespace Sys2Proof

/-- The number of bytes that carry the operation: the `len` column of R93 for a host request, the
kind byte and the byte list for a transport request (R100), the command byte and its operand bytes for
a device command (R103). -/
def Instr.size : Instr → Nat
  | .fill _ => 2
  | .setPixel _ _ _ => 6
  | .getPixel _ _ => 5
  | .hline _ _ _ _ => 8
  | .vline _ _ _ _ => 8
  | .line _ _ _ _ _ => 10
  | .rect _ _ _ _ _ => 10
  | .fillRect _ _ _ _ _ => 10
  | .drawText _ _ _ text => 7 + text.length
  | .blit _ _ _ _ src => 9 + src.length
  | .init => 1
  | .showBuffer => 1
  | .powerOff => 1
  | .powerOn => 1
  | .contrast _ => 3
  | .invert _ => 2
  | .rotate _ => 2
  | .drawScaledText _ _ _ _ text => 9 + text.length
  | .drawTextMax text => 2 + text.length
  | .decodeFrame frame => 3 + frame.length
  | .tpCmd _ => 2
  | .tpData l => 1 + l.length
  | .devContrast _ => 2
  | .devEntireOn => 1
  | .devNormInv _ => 1
  | .devDisplay _ => 1
  | .devMemAddrMode _ => 2
  | .devColAddr _ _ => 3
  | .devPageAddr _ _ => 3
  | .devStartLine _ => 1
  | .devSegRemap _ => 1
  | .devMuxRatio _ => 2
  | .devComDir _ => 1
  | .devDispOffset _ => 2
  | .devComPins _ => 2
  | .devClkDiv _ => 2
  | .devPrecharge _ => 2
  | .devVcomDesel _ => 2
  | .devChargePump _ => 2

/-- The limits on the operands alone: a text of at most 255 bytes (R95), a BLIT source of
`(sh div 8) * sw` bytes with `sh mod 8 = 0` (R93, R94), a frame whose length fits `u16` (R91). -/
def Instr.operandsOk : Instr → Bool
  | .drawText _ _ _ text => text.length ≤ 255
  | .drawScaledText _ _ _ _ text => text.length ≤ 255
  | .drawTextMax text => text.length ≤ 255
  | .blit _ _ sw sh src => sh.toNat % 8 == 0 && src.length == sh.toNat / 8 * sw.toNat
  | .decodeFrame frame => frame.length < 65536
  | .fill _ | .setPixel _ _ _ | .getPixel _ _ | .hline _ _ _ _ | .vline _ _ _ _
  | .line _ _ _ _ _ | .rect _ _ _ _ _ | .fillRect _ _ _ _ _ | .init | .showBuffer | .powerOff
  | .powerOn | .contrast _ | .invert _ | .rotate _ | .tpCmd _ | .tpData _ | .devContrast _
  | .devEntireOn | .devNormInv _ | .devDisplay _ | .devMemAddrMode _ | .devColAddr _ _
  | .devPageAddr _ _ | .devStartLine _ | .devSegRemap _ | .devMuxRatio _ | .devComDir _
  | .devDispOffset _ | .devComPins _ | .devClkDiv _ | .devPrecharge _ | .devVcomDesel _
  | .devChargePump _ => true

/-- A well-formed operation under a given `MAX_REQUEST_BYTES`: its operands are in their limits, and
a host request is not longer than the port accepts (R94). -/
def Instr.wf (maxReq : Nat) (i : Instr) : Bool :=
  i.operandsOk && (i.port != .host || i.size ≤ maxReq)

end Sys2Proof
end

