-- ==== Sys2Proof/Decode.lean ====
section
/-! DEFINITION. The decoder of the three code spaces of spec/30_encoding.md (host requests R90 to R99,
transport requests R100, device commands R103), the encoder written from the same tables, and the
reading of an opcode-table word. -/

namespace Sys2Proof

/-- The reasons why bytes are no operation of a code space. On the host port `illegalOp` answers
ILLEGAL_OP and every other reason BAD_ARG (R281). -/
inductive DecodeError where
  /-- No byte at all: never a request, which has m ≥ 1 (R90). -/
  | empty
  /-- The host opcode is reserved (R99). -/
  | illegalOp
  /-- The length differs from the one R93 gives (R94). -/
  | badLength
  /-- Longer than MAX_REQUEST_BYTES (R94). -/
  | tooLong
  /-- A `c1` field other than 0 and 1 (R94). -/
  | badFlag
  /-- BLIT with `sh mod 8 ≠ 0` (R94). -/
  | badBlitHeight
  /-- A kind byte or byte list that R100 does not allow. -/
  | badTransport
  /-- Bytes that are no device command of R103. -/
  | noDeviceCommand
deriving DecidableEq, Repr

/-! ### Fields (R91) -/

/-- A 16-bit field from its two bytes, little-endian (R91). -/
def half (lo hi : Byte) : Half := hi ++ lo

/-- Bits 7..0 of a 16-bit value. -/
def loByte (v : Half) : Byte := v.extractLsb' 0 8

/-- Bits 15..8 of a 16-bit value. -/
def hiByte (v : Half) : Byte := v.extractLsb' 8 8

/-- The byte of a `c1` operand (R91). -/
def flagByte (c : Bool) : Byte := if c then 1 else 0

/-- Read a `c1` field: only 0 and 1 are legal (R94). -/
def readFlag (b : Byte) (k : Bool → Instr) : Except DecodeError Instr :=
  if b = 0 then .ok (k false) else if b = 1 then .ok (k true) else .error .badFlag

/-! ### Host requests -/

/-- The rows of the host opcode map (R92). -/
inductive HostOp where
  | fill
  | setPixel
  | getPixel
  | hline
  | vline
  | line
  | rect
  | fillRect
  | drawText
  | blit
  | init
  | showBuffer
  | powerOff
  | powerOn
  | contrast
  | invert
  | rotate
  | drawScaledText
  | drawTextMax
  | decodeFrame
deriving DecidableEq, Repr

/-- The host opcode map (R92). -/
def hostOpcodes : List (Byte × HostOp) :=
  [(0x01#8, HostOp.fill), (0x02#8, HostOp.setPixel), (0x03#8, HostOp.getPixel),
    (0x04#8, HostOp.hline), (0x05#8, HostOp.vline), (0x06#8, HostOp.line),
    (0x07#8, HostOp.rect), (0x08#8, HostOp.fillRect), (0x09#8, HostOp.drawText),
    (0x0A#8, HostOp.blit), (0x10#8, HostOp.init), (0x11#8, HostOp.showBuffer),
    (0x12#8, HostOp.powerOff), (0x13#8, HostOp.powerOn), (0x14#8, HostOp.contrast),
    (0x15#8, HostOp.invert), (0x16#8, HostOp.rotate), (0x30#8, HostOp.drawScaledText),
    (0x31#8, HostOp.drawTextMax), (0x40#8, HostOp.decodeFrame)]

/-- The operation a host opcode selects; `none` for a reserved opcode (R99). -/
def hostOp (op : Byte) : Option HostOp :=
  (hostOpcodes.find? (fun r => r.1 == op)).map Prod.snd

/-- The request length R93 gives for an opcode, from the bytes of the request by their offset: only
the length fields R97 names are read. -/
def requestLength (o : HostOp) (q : Nat → Byte) : Nat :=
  match o with
  | .fill => 2
  | .setPixel => 6
  | .getPixel => 5
  | .hline => 8
  | .vline => 8
  | .line => 10
  | .rect => 10
  | .fillRect => 10
  | .drawText => 7 + (q 6).toNat
  | .blit => 9 + (half (q 7) (q 8)).toNat / 8 * (half (q 5) (q 6)).toNat
  | .init => 1
  | .showBuffer => 1
  | .powerOff => 1
  | .powerOn => 1
  | .contrast => 3
  | .invert => 2
  | .rotate => 2
  | .drawScaledText => 9 + (q 8).toNat
  | .drawTextMax => 2 + (q 1).toNat
  | .decodeFrame => 3 + (half (q 1) (q 2)).toNat

/-- Read the operands of a host request by the layouts of R93. -/
def decodeArgs (o : HostOp) (args : List Byte) : Except DecodeError Instr :=
  match o with
  | .fill =>
    match args with
    | [c] => readFlag c .fill
    | _ => .error .badLength
  | .setPixel =>
    match args with
    | [x0, x1, y0, y1, c] => readFlag c (.setPixel (half x0 x1) (half y0 y1))
    | _ => .error .badLength
  | .getPixel =>
    match args with
    | [x0, x1, y0, y1] => .ok (.getPixel (half x0 x1) (half y0 y1))
    | _ => .error .badLength
  | .hline =>
    match args with
    | [x0, x1, y0, y1, w0, w1, c] =>
      readFlag c (.hline (half x0 x1) (half y0 y1) (half w0 w1))
    | _ => .error .badLength
  | .vline =>
    match args with
    | [x0, x1, y0, y1, h0, h1, c] =>
      readFlag c (.vline (half x0 x1) (half y0 y1) (half h0 h1))
    | _ => .error .badLength
  | .line =>
    match args with
    | [x0, x1, y0, y1, u0, u1, v0, v1, c] =>
      readFlag c (.line (half x0 x1) (half y0 y1) (half u0 u1) (half v0 v1))
    | _ => .error .badLength
  | .rect =>
    match args with
    | [x0, x1, y0, y1, w0, w1, h0, h1, c] =>
      readFlag c (.rect (half x0 x1) (half y0 y1) (half w0 w1) (half h0 h1))
    | _ => .error .badLength
  | .fillRect =>
    match args with
    | [x0, x1, y0, y1, w0, w1, h0, h1, c] =>
      readFlag c (.fillRect (half x0 x1) (half y0 y1) (half w0 w1) (half h0 h1))
    | _ => .error .badLength
  | .drawText =>
    match args with
    | x0 :: x1 :: y0 :: y1 :: c :: n :: text =>
      if text.length = n.toNat then
        readFlag c (fun c => .drawText (half x0 x1) (half y0 y1) c text)
      else .error .badLength
    | _ => .error .badLength
  | .blit =>
    match args with
    | x0 :: x1 :: y0 :: y1 :: w0 :: w1 :: h0 :: h1 :: src =>
      if (half h0 h1).toNat % 8 ≠ 0 then .error .badBlitHeight
      else if src.length = (half h0 h1).toNat / 8 * (half w0 w1).toNat then
        .ok (.blit (half x0 x1) (half y0 y1) (half w0 w1) (half h0 h1) src)
      else .error .badLength
    | _ => .error .badLength
  | .init =>
    match args with
    | [] => .ok .init
    | _ => .error .badLength
  | .showBuffer =>
    match args with
    | [] => .ok .showBuffer
    | _ => .error .badLength
  | .powerOff =>
    match args with
    | [] => .ok .powerOff
    | _ => .error .badLength
  | .powerOn =>
    match args with
    | [] => .ok .powerOn
    | _ => .error .badLength
  | .contrast =>
    match args with
    | [v0, v1] => .ok (.contrast (half v0 v1))
    | _ => .error .badLength
  | .invert =>
    match args with
    | [f] => readFlag f .invert
    | _ => .error .badLength
  | .rotate =>
    match args with
    | [f] => readFlag f .rotate
    | _ => .error .badLength
  | .drawScaledText =>
    match args with
    | x0 :: x1 :: y0 :: y1 :: s0 :: s1 :: c :: n :: text =>
      if text.length = n.toNat then
        readFlag c (fun c => .drawScaledText (half x0 x1) (half y0 y1) (half s0 s1) c text)
      else .error .badLength
    | _ => .error .badLength
  | .drawTextMax =>
    match args with
    | n :: text =>
      if text.length = n.toNat then .ok (.drawTextMax text) else .error .badLength
    | _ => .error .badLength
  | .decodeFrame =>
    match args with
    | l0 :: l1 :: frame =>
      if frame.length = (half l0 l1).toNat then .ok (.decodeFrame frame) else .error .badLength
    | _ => .error .badLength

/-- Decode a host request: the reserved opcode first, then the malformed request (R281). -/
def decodeHost (maxReq : Nat) : List Byte → Except DecodeError Instr
  | [] => .error .empty
  | op :: args =>
    match hostOp op with
    | none => .error .illegalOp
    | some o => if maxReq < 1 + args.length then .error .tooLong else decodeArgs o args

/-! ### Transport requests -/

/-- Decode a transport request, its kind bit K in bit 0 of the first byte and the byte list L after
it: K = 0 is TP_CMD and requires one byte, K = 1 is TP_DATA (R100). The other seven bits of the kind
byte are 0. DESIGN CHOICE (log entry 21). -/
def decodeTp : List Byte → Except DecodeError Instr
  | [] => .error .empty
  | k :: l =>
    if k = 0 then
      match l with
      | [b] => .ok (.tpCmd b)
      | _ => .error .badTransport
    else if k = 1 then .ok (.tpData l)
    else .error .badTransport

/-! ### Device commands -/

/-- The rows of the device command table (R103). -/
inductive DevOp where
  | contrast
  | entireOn
  | normInv
  | display
  | memAddrMode
  | colAddr
  | pageAddr
  | startLine
  | segRemap
  | muxRatio
  | comDir
  | dispOffset
  | comPins
  | clkDiv
  | precharge
  | vcomDesel
  | chargePump
deriving DecidableEq, Repr

/-- The device command table: mask, match and command (R103). -/
def devCommands : List (Byte × Byte × DevOp) :=
  [(0xFF#8, 0x81#8, DevOp.contrast), (0xFF#8, 0xA4#8, DevOp.entireOn),
    (0xFE#8, 0xA6#8, DevOp.normInv), (0xFE#8, 0xAE#8, DevOp.display),
    (0xFF#8, 0x20#8, DevOp.memAddrMode), (0xFF#8, 0x21#8, DevOp.colAddr),
    (0xFF#8, 0x22#8, DevOp.pageAddr), (0xC0#8, 0x40#8, DevOp.startLine),
    (0xFE#8, 0xA0#8, DevOp.segRemap), (0xFF#8, 0xA8#8, DevOp.muxRatio),
    (0xF7#8, 0xC0#8, DevOp.comDir), (0xFF#8, 0xD3#8, DevOp.dispOffset),
    (0xFF#8, 0xDA#8, DevOp.comPins), (0xFF#8, 0xD5#8, DevOp.clkDiv),
    (0xFF#8, 0xD9#8, DevOp.precharge), (0xFF#8, 0xDB#8, DevOp.vcomDesel),
    (0xFF#8, 0x8D#8, DevOp.chargePump)]

/-- The command a device command byte selects; `none` for a byte R103 does not list. -/
def devOp (b : Byte) : Option DevOp :=
  (devCommands.find? (fun r => b &&& r.1 == r.2.1)).map (fun r => r.2.2)

/-- The number of operand bytes that follow a device command byte (R103). -/
def devOperands : DevOp → Nat
  | .contrast => 1
  | .entireOn => 0
  | .normInv => 0
  | .display => 0
  | .memAddrMode => 1
  | .colAddr => 2
  | .pageAddr => 2
  | .startLine => 0
  | .segRemap => 0
  | .muxRatio => 1
  | .comDir => 0
  | .dispOffset => 1
  | .comPins => 1
  | .clkDiv => 1
  | .precharge => 1
  | .vcomDesel => 1
  | .chargePump => 1

/-- Read a device command from its command byte (with its variable bits) and its operand bytes (R103). -/
def decodeDevArgs (o : DevOp) (b : Byte) (args : List Byte) : Except DecodeError Instr :=
  match o with
  | .contrast =>
    match args with
    | [v] => .ok (.devContrast v)
    | _ => .error .noDeviceCommand
  | .entireOn =>
    match args with
    | [] => .ok .devEntireOn
    | _ => .error .noDeviceCommand
  | .normInv =>
    match args with
    | [] => .ok (.devNormInv (b.getLsbD 0))
    | _ => .error .noDeviceCommand
  | .display =>
    match args with
    | [] => .ok (.devDisplay (b.getLsbD 0))
    | _ => .error .noDeviceCommand
  | .memAddrMode =>
    match args with
    | [m] => .ok (.devMemAddrMode m)
    | _ => .error .noDeviceCommand
  | .colAddr =>
    match args with
    | [u, v] => .ok (.devColAddr u v)
    | _ => .error .noDeviceCommand
  | .pageAddr =>
    match args with
    | [u, v] => .ok (.devPageAddr u v)
    | _ => .error .noDeviceCommand
  | .startLine =>
    match args with
    | [] => .ok (.devStartLine (b.extractLsb' 0 6))
    | _ => .error .noDeviceCommand
  | .segRemap =>
    match args with
    | [] => .ok (.devSegRemap (b.getLsbD 0))
    | _ => .error .noDeviceCommand
  | .muxRatio =>
    match args with
    | [v] => .ok (.devMuxRatio v)
    | _ => .error .noDeviceCommand
  | .comDir =>
    match args with
    | [] => .ok (.devComDir (b.getLsbD 3))
    | _ => .error .noDeviceCommand
  | .dispOffset =>
    match args with
    | [v] => .ok (.devDispOffset v)
    | _ => .error .noDeviceCommand
  | .comPins =>
    match args with
    | [v] => .ok (.devComPins v)
    | _ => .error .noDeviceCommand
  | .clkDiv =>
    match args with
    | [v] => .ok (.devClkDiv v)
    | _ => .error .noDeviceCommand
  | .precharge =>
    match args with
    | [v] => .ok (.devPrecharge v)
    | _ => .error .noDeviceCommand
  | .vcomDesel =>
    match args with
    | [v] => .ok (.devVcomDesel v)
    | _ => .error .noDeviceCommand
  | .chargePump =>
    match args with
    | [v] => .ok (.devChargePump v)
    | _ => .error .noDeviceCommand

/-- Decode one device command with all its operand bytes (R103). -/
def decodeDev : List Byte → Except DecodeError Instr
  | [] => .error .empty
  | b :: args =>
    match devOp b with
    | none => .error .noDeviceCommand
    | some o => decodeDevArgs o b args

/-- The decoder: the bytes of one operation in one of the three code spaces. `maxReq` is
MAX_REQUEST_BYTES, which only host requests are checked against (R94). -/
def decode (p : Port) (maxReq : Nat) (bytes : List Byte) : Except DecodeError Instr :=
  match p with
  | .host => decodeHost maxReq bytes
  | .tp => decodeTp bytes
  | .dev => decodeDev bytes

/-! ### The encoder -/

/-- The two bytes of a 16-bit field, little-endian (R91). -/
def halfBytes (v : Half) : List Byte := [loByte v, hiByte v]

/-- A one-byte length field (`n`, R91, R95). -/
def lenByte (n : Nat) : Byte := BitVec.ofNat 8 n

/-- A device command byte with a variable bit (R103). -/
def withBit (base : Byte) (k : Nat) (v : Bool) : Byte := base ||| (flagByte v <<< k)

/-- The bytes of an operation in its own code space: the request of R92 and R93, the transport request
of R100, the device command of R103. -/
def encode : Instr → List Byte
  | .fill c => [0x01, flagByte c]
  | .setPixel x y c => 0x02 :: halfBytes x ++ halfBytes y ++ [flagByte c]
  | .getPixel x y => 0x03 :: halfBytes x ++ halfBytes y
  | .hline x y w c => 0x04 :: halfBytes x ++ halfBytes y ++ halfBytes w ++ [flagByte c]
  | .vline x y h c => 0x05 :: halfBytes x ++ halfBytes y ++ halfBytes h ++ [flagByte c]
  | .line x1 y1 x2 y2 c =>
    0x06 :: halfBytes x1 ++ halfBytes y1 ++ halfBytes x2 ++ halfBytes y2 ++ [flagByte c]
  | .rect x y w h c =>
    0x07 :: halfBytes x ++ halfBytes y ++ halfBytes w ++ halfBytes h ++ [flagByte c]
  | .fillRect x y w h c =>
    0x08 :: halfBytes x ++ halfBytes y ++ halfBytes w ++ halfBytes h ++ [flagByte c]
  | .drawText x y c text =>
    0x09 :: halfBytes x ++ halfBytes y ++ [flagByte c, lenByte text.length] ++ text
  | .blit x y sw sh src =>
    0x0A :: halfBytes x ++ halfBytes y ++ halfBytes sw ++ halfBytes sh ++ src
  | .init => [0x10]
  | .showBuffer => [0x11]
  | .powerOff => [0x12]
  | .powerOn => [0x13]
  | .contrast v => 0x14 :: halfBytes v
  | .invert f => [0x15, flagByte f]
  | .rotate f => [0x16, flagByte f]
  | .drawScaledText x y scale c text =>
    0x30 :: halfBytes x ++ halfBytes y ++ halfBytes scale ++
      [flagByte c, lenByte text.length] ++ text
  | .drawTextMax text => 0x31 :: lenByte text.length :: text
  | .decodeFrame frame => 0x40 :: halfBytes (BitVec.ofNat 16 frame.length) ++ frame
  | .tpCmd b => [0x00, b]
  | .tpData l => 0x01 :: l
  | .devContrast v => [0x81, v]
  | .devEntireOn => [0xA4]
  | .devNormInv i => [withBit 0xA6 0 i]
  | .devDisplay d => [withBit 0xAE 0 d]
  | .devMemAddrMode mode => [0x20, mode]
  | .devColAddr first last => [0x21, first, last]
  | .devPageAddr first last => [0x22, first, last]
  | .devStartLine line => [0x40 ||| line.setWidth 8]
  | .devSegRemap r => [withBit 0xA0 0 r]
  | .devMuxRatio ratio => [0xA8, ratio]
  | .devComDir d => [withBit 0xC0 3 d]
  | .devDispOffset offset => [0xD3, offset]
  | .devComPins pins => [0xDA, pins]
  | .devClkDiv divide => [0xD5, divide]
  | .devPrecharge period => [0xD9, period]
  | .devVcomDesel level => [0xDB, level]
  | .devChargePump setting => [0x8D, setting]

/-! ### Words of the opcode table -/

/-- Byte i of an opcode-table word of `nbits` bits; every bit from `nbits` on is 0. -/
def wordByte (nbits w i : Nat) : Byte := BitVec.ofNat 8 ((w % 2 ^ nbits) >>> (8 * i))

/-- The port and the bytes of the operation an opcode-table word stands for. The three code spaces
overlap, and a word does not say which one it belongs to: the host opcode map is tried first, then the
device commands, then the transport port; a reserved host opcode that is none of them stays a one-byte
host request. DESIGN CHOICE (log entry 12). -/
def tableFetch (nbits w : Nat) : Port × List Byte :=
  match hostOp (wordByte nbits w 0) with
  | some o => (.host, (List.range (requestLength o (wordByte nbits w))).map (wordByte nbits w))
  | none =>
    match devOp (wordByte nbits w 0) with
    | some o => (.dev, (List.range (1 + devOperands o)).map (wordByte nbits w))
    | none =>
      if wordByte nbits w 0 = 0 then (.tp, [wordByte nbits w 0, wordByte nbits w 1])
      else (.host, [wordByte nbits w 0])

/-- The operation the decoder reads from an opcode-table word. -/
def decodeTableWord (nbits w : Nat) : Option Instr :=
  match decode (tableFetch nbits w).1 (tableFetch nbits w).2.length (tableFetch nbits w).2 with
  | .ok i => some i
  | .error _ => none

end Sys2Proof
end

