-- ==== Sys2Proof/Config.lean ====
section
/-! DEFINITION. What an implementation fixes (spec/00_scope.md R7, spec/10_state.md R22) and the free
values: the font, the answers of the bus environment, and what CMDBUF holds while no rule reads it. -/

namespace Sys2Proof

/-- The transport variant, configuration input `BUS` (R7, R220). -/
inductive BusKind where
  | a
  | b
deriving DecidableEq, Repr

/-- How the bus environment answers a transaction (R222). -/
inductive Ack where
  | ok
  | fail
deriving DecidableEq, Repr

/-- The answer to one transaction: `ok`, `fail`, or `none` when it never comes (R222, R223). -/
abbrev Answer := Option Ack

/-- The configuration registers (R22) and the two open parameters of R7, `MAX_REQUEST_BYTES` and
`GLYPH`. The numbers are kept as the configuration inputs gave them, not cut to the register's width,
so that the check of R172 sees an illegal input. DESIGN CHOICE (log entry 13). -/
structure Cfg where
  /-- `CFG.W`, the width in pixels. -/
  w : Nat
  /-- `CFG.H`, the height in pixels. -/
  h : Nat
  /-- `CFG.EXTVCC`. -/
  extVcc : Bool
  /-- `CFG.BUS`. -/
  bus : BusKind
  /-- `CFG.ADDR_A`. -/
  addrA : Nat
  /-- `CFG.CHUNK_A`. -/
  chunkA : Nat
  /-- `CFG.CHUNK_B`. -/
  chunkB : Nat
  /-- `MAX_REQUEST_BYTES` (R7, R94). -/
  maxReq : Nat
  /-- The glyphs this configuration pins down: a character code and its bitmap, pixel (col, row) in
  bit `8 * col + row`. A code not listed has the uninterpreted glyph `Config.glyph`. -/
  font : List (Byte × BitVec 64)
deriving DecidableEq, Repr

/-- FREE VALUE (R34, log entry 3): pixel (col, row) of the glyph of a code that the configuration
does not list. -/
opaque Config.glyph : Byte → Nat → Nat → Bool

/-- FREE VALUE (R222, R223, log entry 4): the answer to the n-th transaction where the state has no
answer lined up for it. -/
opaque Config.busAnswer : Nat → Answer

/-- FREE VALUE (R32, log entry 5): what CMDBUF holds after a TP_CMD that has returned, by the number of
transactions issued so far. -/
opaque Config.cmdBufIdle : Nat → Byte × Byte

/-- The configuration inputs of the state after reset: the document's default configuration (R9) with
EXTVCC = 0, BUS = A and MAX_REQUEST_BYTES = 64 as in section 0 of spec/95_test_vectors.md, and no
glyph pinned. DESIGN CHOICE (log entry 2). -/
def Config.default : Cfg where
  w := 128
  h := 32
  extVcc := false
  bus := .a
  addrA := 0x3C
  chunkA := 16
  chunkB := 32
  maxReq := 64
  font := []

end Sys2Proof
end

