-- ==== Sys2Proof/Machine/State.lean ====
section
/-! DEFINITION. The state of the block (spec/10_state.md, summary R38), its reset value (R310, R323) and
the reasons a step can stop. -/

namespace Sys2Proof.Machine

/-- Why the block stops. No host request reaches any of these: each needs a request in the internal
transport port that the controller never makes. -/
inductive Fault where
  /-- Raised by the fetch of the internal port: K = 0 with a byte list that is not one byte long, which
  R100 requires. Safe: the block makes no step. -/
  | transportRequest
  /-- Raised by the fetch of the internal port: bytes that are no device command of R103. Safe: the
  block makes no step. -/
  | deviceCommand
  /-- Raised by TP_DATA when the chunk size of the selected variant is 0: R221 defines `Chunks(L, C)`
  for C ≥ 1 only, and R172 keeps such a configuration from the transport. Safe: the block makes no
  step. -/
  | zeroChunk
deriving DecidableEq, Repr

/-- Why an operation has no meaning. -/
inductive Refusal where
  /-- Raised by an arm of `exec` whose operation has no meaning yet, by the mnemonic of
  spec/opcode_table.json. Safe: the block makes no step. -/
  | notModelled (mnemonic : String)
deriving DecidableEq, Repr

/-- `LIFE`, the controller lifecycle state (R27). -/
inductive Life where
  | uninit
  | ready
  | failed
deriving DecidableEq, Repr

/-- The bus-B output lines (R29). -/
inductive Line where
  | cs
  | dc
  | res
deriving DecidableEq, Repr

/-- The levels of the bus-B output lines, 1 as `true` (R29). -/
structure Lines where
  /-- Chip select, active low. -/
  cs : Bool
  /-- Command/data select. -/
  dc : Bool
  /-- The reset line, active low. -/
  res : Bool
deriving DecidableEq, Repr

/-- A wire event (R31). `out` is the outcome the bus environment gave, `none` while no answer has come. -/
inductive WireEvent where
  /-- A bus-A write transaction. -/
  | ax (addr : BitVec 7) (bytes : List Byte) (out : Answer)
  /-- A bus-B line driven to a level. -/
  | bl (line : Line) (level : Bool)
  /-- A bus-B serial write. -/
  | bw (bytes : List Byte) (out : Answer)
  /-- The block was reset. -/
  | rst
deriving DecidableEq, Repr

/-- What the host does (R322). A request is its opcode byte and the bytes after it, so that it has at
least one byte (R90). -/
inductive HostEvent where
  /-- Present a request. -/
  | request (op : Byte) (args : List Byte)
  /-- Apply reset with these configuration inputs (R310). -/
  | reset (inputs : Cfg)
  /-- Present a request and apply reset while it runs, when it has made `events` wire events (or has
  made all it makes), before any response (R310). -/
  | resetDuring (op : Byte) (args : List Byte) (events : Nat) (inputs : Cfg)
deriving DecidableEq, Repr

/-- A request in the internal port: a transport request K, L (R100), or the bytes of one device command
(R103), which the model keeps there so that it can be stepped by itself (log entry 11). -/
inductive PortReq where
  | tp (k : Bool) (l : List Byte)
  | dev (bytes : List Byte)
deriving DecidableEq, Repr

/-- The frame buffer: byte index and byte, in rising index order, no byte listed that is
`Memory.blank`. -/
abbrev Memory := List Host.Cell

/-- What a byte of the frame buffer that is not listed reads as. The spec gives no contents after reset
(R28). DESIGN CHOICE, unsafe (log entry 6). -/
def Memory.blank : Byte := 0

/-- The canonical form: indices strictly rising, no entry equal to what an unlisted index reads as. -/
def Memory.wf (m : Memory) : Bool :=
  decide (m.Pairwise (fun c d => c.1 < d.1)) && m.all (fun c => c.2 != Memory.blank)

/-- The state of the block. -/
structure State where
  /-- The configuration registers (R22). -/
  cfg : Cfg
  /-- `LIFE` (R27). -/
  life : Life
  /-- `FB` (R28). -/
  fb : Memory
  /-- The levels of the bus-B output lines; `none` on bus-A, where the lines do not exist (R29). -/
  lines : Option Lines
  /-- `WIRE`, oldest event first (R30). -/
  wire : List WireEvent
  /-- `BUSY` (R35). -/
  busy : Bool
  /-- `CMDBUF` (R32). -/
  cmdBuf : Byte × Byte
  /-- `STRIP`, one byte per column; `none` when it does not exist (R33). -/
  strip : Option (List Byte)
  /-- The request in the internal port (R100). -/
  port : Option PortReq
  /-- What the internal port last returned (R100). -/
  ret : Answer
  /-- The model's own: what the host does next, oldest first (R322). -/
  inbox : List HostEvent
  /-- The model's own: the responses produced so far, oldest first (R96). -/
  resp : List (List Byte)
  /-- The model's own: the answers the bus environment has lined up, next one first (R222). -/
  script : List Answer
  /-- The model's own: the number of transactions issued so far; past the script the next answer is
  `Config.busAnswer asked`. -/
  asked : Nat
deriving DecidableEq, Repr

/-- The state right after power-up and reset (R38, R310, R323): `WIRE = [RST]`. The configuration is
`Config.default` (log entry 2), which is bus-A, so that there are no lines (R29); FB lists nothing (log entry 6), CMDBUF is zero (log entry 5). -/
def State.reset : State where
  cfg := Config.default
  life := .uninit
  fb := []
  lines := none
  wire := [.rst]
  busy := false
  cmdBuf := (0, 0)
  strip := none
  port := none
  ret := none
  inbox := []
  resp := []
  script := []
  asked := 0

end Sys2Proof.Machine
end

