-- ==== Sys2Proof/Machine/Flags.lean ====
section
/-! DEFINITION. The block has no flags and no condition codes (spec/10_state.md R36). The only status it
reports is the status code of a response (spec/60_exceptions.md R280). -/

namespace Sys2Proof.Machine

/-- The status codes (R280). -/
inductive Status where
  | ok
  | illegalOp
  | badArg
  | notReady
  | busFail
  | alreadyInit
  | badConfig
deriving DecidableEq, Repr

/-- The byte of a status code (R280). -/
def statusByte : Status → Byte
  | .ok => 0
  | .illegalOp => 1
  | .badArg => 2
  | .notReady => 3
  | .busFail => 4
  | .alreadyInit => 5
  | .badConfig => 6

/-- The status a request that does not decode is answered with (R281). -/
def decodeStatus : DecodeError → Status
  | .illegalOp => .illegalOp
  | .empty => .badArg
  | .badLength => .badArg
  | .tooLong => .badArg
  | .badFlag => .badArg
  | .badBlitHeight => .badArg
  | .badTransport => .badArg
  | .noDeviceCommand => .badArg

end Sys2Proof.Machine
end

