-- ==== Sys2Proof/Machine/Ops.lean ====
section
/-! DEFINITION. The named operations over the frame buffer, the response port, the wire and the bus
environment; raising a status (the block's only exception mechanism) and reset. -/

namespace Sys2Proof.Machine

/-! ### Memory -/

/-- The byte at an index. -/
def Memory.read : Memory → Nat → Byte
  | [], _ => Memory.blank
  | (b, v) :: m, a => if a = b then v else Memory.read m a

/-- Put a cell in its place among cells of rising index. -/
def Memory.insert (a : Nat) (v : Byte) : Memory → Memory
  | [] => [(a, v)]
  | (b, w) :: m => if a < b then (a, v) :: (b, w) :: m else (b, w) :: Memory.insert a v m

/-- Write one byte: the index is listed after it exactly when the byte is not what an unlisted index
reads as. -/
def Memory.write (m : Memory) (a : Nat) (v : Byte) : Memory :=
  if v = Memory.blank then m.filter (fun c => c.1 != a)
  else Memory.insert a v (m.filter (fun c => c.1 != a))

/-- The cell of an index with this byte, if it is to be listed. -/
def Memory.cell (a : Nat) (v : Byte) : Option Host.Cell :=
  if v = Memory.blank then none else some (a, v)

/-- Write the n bytes at indices 0 to n-1, the byte at i to `g i`, and no other. -/
def Memory.remake (n : Nat) (g : Nat → Byte) (m : Memory) : Memory :=
  (List.range n).filterMap (fun i => Memory.cell i (g i)) ++ m.filter (fun c => n ≤ c.1)

/-! ### The frame buffer -/

/-- The page count `P = H / 8` (R8, R23). -/
def pages (c : Cfg) : Nat := c.h / 8

/-- The number of bytes of the frame buffer, `P × W` (R28). -/
def fbSize (c : Cfg) : Nat := pages c * c.w

/-- `InFb(x, y)` (R61). -/
def inFb (c : Cfg) (x y : Int) : Bool :=
  decide (0 ≤ x) && decide (x < c.w) && decide (0 ≤ y) && decide (y < c.h)

/-- The byte index of an in-range pixel (R60). -/
def pixelIndex (c : Cfg) (x y : Int) : Nat := y.toNat / 8 * c.w + x.toNat

/-- The bit of its byte an in-range pixel lives at (R60). -/
def pixelBit (y : Int) : Nat := y.toNat % 8

/-- `FbGet(x, y)`, for an in-range pixel (R62). -/
def fbGet (s : State) (x y : Int) : Bool :=
  (s.fb.read (pixelIndex s.cfg x y)).getLsbD (pixelBit y)

/-- A byte with bit k set to c and the other seven kept (R63). -/
def setBit (b : Byte) (k : Nat) (c : Bool) : Byte :=
  (b &&& ~~~ (1#8 <<< k)) ||| (flagByte c <<< k)

/-- `FbSet(x, y, c)`: nothing outside the frame buffer (R63). -/
def fbSet (x y : Int) (c : Bool) (s : State) : State :=
  if inFb s.cfg x y then
    let i := pixelIndex s.cfg x y
    { s with fb := s.fb.write i (setBit (s.fb.read i) (pixelBit y) c) }
  else s

/-- `MemRead(i, n)` (R64). -/
def memRead (m : Memory) (i n : Nat) : List Byte :=
  (List.range n).map (fun k => m.read (i + k))

/-- `MemWrite(i, n, v)`: write the n bytes of the list at indices i to i + n - 1, in that order (R64).
Like `memRead` it is called only inside [0, P × W). DEDUCED: v is the list of the n bytes
(log entry 24). No operation calls it. -/
def memWrite (m : Memory) (i : Nat) : List Byte → Memory
  | [] => m
  | v :: vs => memWrite (m.write i v) (i + 1) vs

/-- A byte from its eight bits. -/
def byteOf (f : Nat → Bool) : Byte :=
  BitVec.ofNat 8 ((f 0).toNat + 2 * (f 1).toNat + 4 * (f 2).toNat + 8 * (f 3).toNat +
    16 * (f 4).toNat + 32 * (f 5).toNat + 64 * (f 6).toNat + 128 * (f 7).toNat)

/-- A point set (R141 to R143): which integer points belong to it. -/
abbrev Points := Int → Int → Bool

/-- `for each (i, j) in S: FbSet(i, j, c)` for a point set given by its membership (R141). Only points
of the frame buffer can change, and the order of the points does not matter (R63, R73), so each byte is
rewritten once, its bit k being the pixel in row `8 * page + k` (R60). DEDUCED, safe (log entry 18). -/
def paint (points : Points) (c : Bool) (s : State) : State :=
  { s with
    fb := s.fb.remake (fbSize s.cfg) (fun i =>
      byteOf (fun k =>
        if points ((i % s.cfg.w : Nat) : Int) ((8 * (i / s.cfg.w) + k : Nat) : Int) then c
        else (s.fb.read i).getLsbD k)) }

/-- `for each (i, j) in S: FbSet(i, j, c)` for a point set given as a list (R141). -/
def plot (points : List (Int × Int)) (c : Bool) (s : State) : State :=
  points.foldl (fun s p => fbSet p.1 p.2 c s) s

/-- `for i in [0, P*W): FB[i] <- v` (R131, R170). -/
def fillBytes (v : Byte) (s : State) : State :=
  { s with fb := s.fb.remake (fbSize s.cfg) (fun _ => v) }

/-! ### Responses and raising a status -/

/-- `respond(status, result)`: the one response of a request, after which the block is not busy (R96,
R35). The block saves nothing and transfers control nowhere; the response is also the return from a
raised status (R286). -/
def respond (status : Status) (result : List Byte) (s : State) : State :=
  { s with busy := false, resp := s.resp ++ [statusByte status :: result] }

/-- `raise S`: stop the operation at this step and answer `[S]`; every state change and wire event made
before it stays made (R282). -/
def raiseStatus (status : Status) (s : State) : State := respond status [] s

/-- The lifecycle gate of every operation but INIT and DECODE_FRAME (R130, R281): the operation runs
when `LIFE = READY`, else NOT_READY is raised. -/
def gated (op : State → State) (s : State) : State :=
  if s.life = .ready then op s else raiseStatus .notReady s

/-! ### The wire -/

/-- `Emit(e)` (R12, R30). -/
def emit (e : WireEvent) (s : State) : State := { s with wire := s.wire ++ [e] }

/-- The levels with line l at level v. -/
def Lines.drive (l : Line) (v : Bool) (ls : Lines) : Lines :=
  match l with
  | .cs => { ls with cs := v }
  | .dc => { ls with dc := v }
  | .res => { ls with res := v }

/-- `SetLine(l, v)`, on bus-B only, where the lines exist (R225, R29). -/
def setLine (l : Line) (v : Bool) (s : State) : State :=
  emit (.bl l v) { s with lines := s.lines.map (Lines.drive l v) }

/-- The answer the bus environment gives to the j-th transaction from now (R222, R223). -/
def busAnswer (s : State) (j : Nat) : Answer :=
  match s.script[j]? with
  | some a => a
  | none => Config.busAnswer (s.asked + j)

/-- What a transport operation gives: its result (`none` when it never returns, R223) and the state it
leaves. -/
structure TpRes where
  ret : Answer
  st : State
deriving DecidableEq, Repr

/-- Go on with the next step when the last one returned `ok`; a `fail` or a stall ends the operation at
once (R224, R223). -/
def TpRes.andThen (r : TpRes) (next : State → TpRes) : TpRes :=
  match r.ret with
  | some .ok => next r.st
  | some .fail => r
  | none => r

/-- `Xfer(e)`: append the transaction with its outcome and take the answer (R222). Where no answer comes
the event stays without outcome and the block stays busy (R223, R31). -/
def xfer (e : Answer → WireEvent) (s : State) : TpRes where
  ret := busAnswer s 0
  st :=
    { s with
      wire := s.wire ++ [e (busAnswer s 0)]
      busy := s.busy || (busAnswer s 0).isNone
      script := s.script.tail
      asked := s.asked + 1 }

/-- One transaction after the other, ending at the first that does not answer `ok` (R224). -/
def xferAll : List (Answer → WireEvent) → State → TpRes
  | [], s => ⟨some .ok, s⟩
  | e :: es, s => (xfer e s).andThen (xferAll es)

/-! ### Reset -/

/-- The bus-B lines at their reset levels, CS = 1, DC = 0, RES = 1; on bus-A there are none (R29). -/
def resetLines (inputs : Cfg) : Option Lines :=
  match inputs.bus with
  | .a => none
  | .b => some { cs := true, dc := false, res := true }

/-- Reset (R310): the configuration registers take the inputs, the state takes its reset values, RST is
appended to WIRE and the earlier events stay. What the host does next, the responses it has had and the
bus environment are outside the block and stay. -/
def resetBlock (inputs : Cfg) (s : State) : State :=
  { State.reset with
    cfg := inputs
    lines := resetLines inputs
    wire := s.wire ++ [.rst]
    inbox := s.inbox
    resp := s.resp
    script := s.script
    asked := s.asked }

/-- Reset applied while an operation that leads from `s` to `t` runs, when it has made n wire events
(or all it makes): the request is abandoned without a response, its events so far stay (R310, R30). -/
def abandon (n : Nat) (inputs : Cfg) (s t : State) : State :=
  resetBlock inputs
    { t with
      wire := s.wire ++ (t.wire.drop s.wire.length).take n
      resp := s.resp }

end Sys2Proof.Machine
end

