-- ==== Sys2Proof/Machine/Transport.lean ====
section
/-! DEFINITION. The transport operations (spec/42_transport.md): TP_CMD and TP_DATA, each on bus-A and on
bus-B. -/

namespace Sys2Proof.Machine

/-- `Chunks(L, C)` (R221); no slice for C = 0, where R221 gives none. -/
def chunks (l : List Byte) (c : Nat) : List (List Byte) :=
  (List.range ((l.length + c - 1) / c)).map (fun k => (l.drop (k * c)).take c)

/-- The 7-bit target address of a bus-A transaction (R229). -/
def busAddr (c : Cfg) : BitVec 7 := BitVec.ofNat 7 c.addrA

/-- The internal port while a transport operation runs, and its return (R100): the port holds the
request until the operation returns; a stalled operation never returns (R223). -/
def portCall (k : Bool) (l : List Byte) (body : State → TpRes) (s : State) : TpRes :=
  let r := body { s with port := some (.tp k l), ret := none }
  match r.ret with
  | some a => ⟨some a, { r.st with port := none, ret := some a }⟩
  | none => r

/-- CMDBUF once a bus-A TP_CMD has returned: its value is unspecified (R32), a free value
(log entry 5). -/
def releaseCmdBuf (r : TpRes) : TpRes :=
  match r.ret with
  | some a => ⟨some a, { r.st with cmdBuf := Config.cmdBufIdle r.st.asked }⟩
  | none => r

/-- Bus-A TP_CMD (R226). -/
def busACmd (b : Byte) (s : State) : TpRes :=
  let s := { s with cmdBuf := (0x80, b) }
  releaseCmdBuf (xfer (.ax (busAddr s.cfg) [s.cmdBuf.1, s.cmdBuf.2]) s)

/-- Bus-A TP_DATA (R227). -/
def busAData (l : List Byte) (s : State) : TpRes :=
  xferAll ((chunks l s.cfg.chunkA).map (fun d => .ax (busAddr s.cfg) (0x40 :: d))) s

/-- The opening of a bus-B bracket: CS idle, the mode, CS asserted (R230, R231). -/
def openBracket (mode : Bool) (s : State) : State :=
  setLine .cs false (setLine .dc mode (setLine .cs true s))

/-- The end of a bus-B bracket (R230, R231). -/
def closeBracket (s : State) : TpRes := ⟨some .ok, setLine .cs true s⟩

/-- Bus-B TP_CMD (R230). -/
def busBCmd (b : Byte) (s : State) : TpRes :=
  (xfer (.bw [b]) (openBracket false s)).andThen closeBracket

/-- Bus-B TP_DATA (R231). -/
def busBData (l : List Byte) (s : State) : TpRes :=
  (xferAll ((chunks l s.cfg.chunkB).map .bw) (openBracket true s)).andThen closeBracket

/-- TP_CMD of the variant the configuration selects (R220). -/
def tpCmd (b : Byte) (s : State) : TpRes :=
  portCall false [b] (match s.cfg.bus with | .a => busACmd b | .b => busBCmd b) s

/-- TP_DATA of the variant the configuration selects (R220). -/
def tpData (l : List Byte) (s : State) : TpRes :=
  portCall true l (match s.cfg.bus with | .a => busAData l | .b => busBData l) s

/-- The chunk size of the selected variant (R22). -/
def chunkSize (c : Cfg) : Nat :=
  match c.bus with
  | .a => c.chunkA
  | .b => c.chunkB

/-- `BusBResetPulse()` (R233). -/
def busBResetPulse (s : State) : State :=
  setLine .res true (setLine .res false (setLine .res true s))

/-- TP_CMD (R226 on bus-A, R230 on bus-B). -/
def execTpCmd (b : Byte) (s : State) : Host.Outcome State Fault Refusal := .next (tpCmd b s).st

/-- TP_DATA (R227 on bus-A, R231 on bus-B). With a chunk size of 0 R221 defines no chunks, and R172
lets no operation reach the transport: a fault (log entry 15). -/
def execTpData (l : List Byte) (s : State) : Host.Outcome State Fault Refusal :=
  if chunkSize s.cfg = 0 then .fault .zeroChunk else .next (tpData l s).st

end Sys2Proof.Machine
end

