-- ==== Sys2Proof/Machine/Device.lean ====
section
/-! DEFINITION. The device commands (spec/30_encoding.md R103, spec/41_controller.md R190 to R206): what
the block does with one is to send its command byte and its operand bytes, each as a TP_CMD (R181). -/

namespace Sys2Proof.Machine

/-- Consecutive TP_CMDs, ending at the first that does not return `ok` (R181, R224). -/
def sendCmds : List Byte → State → TpRes
  | [], s => ⟨some .ok, s⟩
  | b :: bs, s => (tpCmd b s).andThen (sendCmds bs)

/-- Send one device command: the command byte first, then its operand bytes (R181). -/
def sendDevice (i : Instr) (s : State) : TpRes := sendCmds (encode i) s

/-- DEV_CONTRAST (R190). -/
def execDevContrast (v : Byte) (s : State) : Host.Outcome State Fault Refusal :=
  .next (sendDevice (.devContrast v) s).st

/-- DEV_ENTIRE_ON (R191). -/
def execDevEntireOn (s : State) : Host.Outcome State Fault Refusal :=
  .next (sendDevice .devEntireOn s).st

/-- DEV_NORM_INV (R192). -/
def execDevNormInv (i : Bool) (s : State) : Host.Outcome State Fault Refusal :=
  .next (sendDevice (.devNormInv i) s).st

/-- DEV_DISPLAY (R193). -/
def execDevDisplay (d : Bool) (s : State) : Host.Outcome State Fault Refusal :=
  .next (sendDevice (.devDisplay d) s).st

/-- DEV_MEM_ADDR_MODE (R194). -/
def execDevMemAddrMode (mode : Byte) (s : State) : Host.Outcome State Fault Refusal :=
  .next (sendDevice (.devMemAddrMode mode) s).st

/-- DEV_COL_ADDR (R195). -/
def execDevColAddr (first last : Byte) (s : State) : Host.Outcome State Fault Refusal :=
  .next (sendDevice (.devColAddr first last) s).st

/-- DEV_PAGE_ADDR (R196). -/
def execDevPageAddr (first last : Byte) (s : State) : Host.Outcome State Fault Refusal :=
  .next (sendDevice (.devPageAddr first last) s).st

/-- DEV_START_LINE (R197). -/
def execDevStartLine (line : BitVec 6) (s : State) : Host.Outcome State Fault Refusal :=
  .next (sendDevice (.devStartLine line) s).st

/-- DEV_SEG_REMAP (R198). -/
def execDevSegRemap (r : Bool) (s : State) : Host.Outcome State Fault Refusal :=
  .next (sendDevice (.devSegRemap r) s).st

/-- DEV_MUX_RATIO (R199). -/
def execDevMuxRatio (ratio : Byte) (s : State) : Host.Outcome State Fault Refusal :=
  .next (sendDevice (.devMuxRatio ratio) s).st

/-- DEV_COM_DIR (R200). -/
def execDevComDir (d : Bool) (s : State) : Host.Outcome State Fault Refusal :=
  .next (sendDevice (.devComDir d) s).st

/-- DEV_DISP_OFFSET (R201). -/
def execDevDispOffset (offset : Byte) (s : State) : Host.Outcome State Fault Refusal :=
  .next (sendDevice (.devDispOffset offset) s).st

/-- DEV_COM_PINS (R202). -/
def execDevComPins (pins : Byte) (s : State) : Host.Outcome State Fault Refusal :=
  .next (sendDevice (.devComPins pins) s).st

/-- DEV_CLK_DIV (R203). -/
def execDevClkDiv (divide : Byte) (s : State) : Host.Outcome State Fault Refusal :=
  .next (sendDevice (.devClkDiv divide) s).st

/-- DEV_PRECHARGE (R204). -/
def execDevPrecharge (period : Byte) (s : State) : Host.Outcome State Fault Refusal :=
  .next (sendDevice (.devPrecharge period) s).st

/-- DEV_VCOM_DESEL (R205). -/
def execDevVcomDesel (level : Byte) (s : State) : Host.Outcome State Fault Refusal :=
  .next (sendDevice (.devVcomDesel level) s).st

/-- DEV_CHARGE_PUMP (R206). -/
def execDevChargePump (setting : Byte) (s : State) : Host.Outcome State Fault Refusal :=
  .next (sendDevice (.devChargePump setting) s).st

end Sys2Proof.Machine
end

