-- ==== Sys2Proof/Machine/Controller.lean ====
section
/-! DEFINITION. The controller operations (spec/41_controller.md). -/

namespace Sys2Proof.Machine

/-! ### Initialization -/

/-- `ConfigLegal()` (R172). -/
def configLegal (c : Cfg) : Bool :=
  decide (1 ≤ c.w) && decide (c.w ≤ 256) && (c.h == 32 || c.h == 64) &&
    match c.bus with
    | .a => decide (1 ≤ c.chunkA) && decide (c.addrA ≤ 0x7F)
    | .b => decide (1 ≤ c.chunkB)

/-- The device commands of the initialization sequence, in the order of R171. -/
def initCommands (c : Cfg) : List Instr :=
  [.devDisplay false,
    .devMemAddrMode 0x00,
    .devStartLine 0,
    .devSegRemap true,
    .devMuxRatio (BitVec.ofNat 8 (c.h - 1)),
    .devComDir true,
    .devDispOffset 0x00,
    .devComPins (if c.h = 32 then 0x02 else 0x12),
    .devClkDiv 0x80,
    .devPrecharge (if c.extVcc then 0x22 else 0xF1),
    .devVcomDesel 0x30,
    .devContrast 0xFF,
    .devEntireOn,
    .devNormInv false,
    .devChargePump (if c.extVcc then 0x10 else 0x14),
    .devDisplay true]

/-- `InitSeq()`: the 25 command bytes (R171). -/
def initSeq (c : Cfg) : List Byte := (initCommands c).flatMap encode

/-! ### The flush -/

/-- The part of `Flush()` that sends page p (R173). -/
def flushPage (p : Nat) (s : State) : TpRes :=
  (sendDevice (.devPageAddr (BitVec.ofNat 8 p) (BitVec.ofNat 8 (pages s.cfg - 1))) s).andThen
    (fun s =>
      (sendDevice (.devColAddr 0x00 (BitVec.ofNat 8 (s.cfg.w - 1))) s).andThen
        (fun s => tpData (memRead s.fb (p * s.cfg.w) s.cfg.w) s))

/-- Send these pages, one after the other, ending at the first failure (R173, R174). -/
def flushPages : List Nat → State → TpRes
  | [], s => ⟨some .ok, s⟩
  | p :: ps, s => (flushPage p s).andThen (flushPages ps)

/-- `Flush()` (R173): every page in increasing order. -/
def flush (s : State) : TpRes := flushPages (List.range (pages s.cfg)) s

/-! ### The operations -/

/-- The end of a controller operation: OK, or BUS_FAIL raised where a transport operation failed (R174);
a stalled operation produces no response (R223). -/
def finish (r : TpRes) : State :=
  match r.ret with
  | some .ok => respond .ok [] r.st
  | some .fail => raiseStatus .busFail r.st
  | none => r.st

/-- The end of INIT: READY and OK, or FAILED and BUS_FAIL; a stalled INIT leaves LIFE (R170, R27). -/
def finishInit (r : TpRes) : State :=
  match r.ret with
  | some .ok => respond .ok [] { r.st with life := .ready }
  | some .fail => raiseStatus .busFail { r.st with life := .failed }
  | none => r.st

/-- INIT once its checks have passed (R170, R312): on bus-B the reset pulse, the initialization
sequence, the clearing of the frame buffer, the first flush. -/
def initRun (s : State) : TpRes :=
  let s := match s.cfg.bus with | .a => s | .b => busBResetPulse s
  (sendCmds (initSeq s.cfg) s).andThen (fun s => flush (fillBytes 0x00 s))

/-- INIT with its checks in the order of R170. -/
def initOp (s : State) : State :=
  match s.life with
  | .ready => raiseStatus .alreadyInit s
  | .failed => raiseStatus .notReady s
  | .uninit =>
    if configLegal s.cfg then finishInit (initRun s)
    else raiseStatus .badConfig { s with life := .failed }

/-- INIT (R170). -/
def execInit (s : State) : Host.Outcome State Fault Refusal := .next (initOp s)

/-- SHOW (R175). -/
def execShowBuffer (s : State) : Host.Outcome State Fault Refusal :=
  .next (gated (fun s => finish (flush s)) s)

/-- POWEROFF (R176). -/
def execPowerOff (s : State) : Host.Outcome State Fault Refusal :=
  .next (gated (fun s => finish (sendDevice (.devDisplay false) s)) s)

/-- POWERON (R177). -/
def execPowerOn (s : State) : Host.Outcome State Fault Refusal :=
  .next (gated (fun s => finish (sendDevice (.devDisplay true) s)) s)

/-- CONTRAST (R178): the value masked to 8 bits. -/
def execContrast (v : Half) (s : State) : Host.Outcome State Fault Refusal :=
  .next (gated (fun s => finish (sendDevice (.devContrast (loByte v)) s)) s)

/-- INVERT (R179). -/
def execInvert (f : Bool) (s : State) : Host.Outcome State Fault Refusal :=
  .next (gated (fun s => finish (sendDevice (.devNormInv f) s)) s)

/-- ROTATE (R180): COM-output-direction first, then segment-remap. -/
def execRotate (f : Bool) (s : State) : Host.Outcome State Fault Refusal :=
  .next (gated (fun s =>
    finish ((sendDevice (.devComDir f) s).andThen (sendDevice (.devSegRemap f)))) s)

end Sys2Proof.Machine
end

