-- ==== Sys2Proof/Machine/Operands.lean ====
section
/-! DEFINITION. The operand forms of the drawing operations: the point sets of spec/40_framebuffer.md
(R141 to R143, R137, R140) and spec/43_glyph.md (R250, R254). All arithmetic is on integers (R11). -/

namespace Sys2Proof.Machine

/-- An `s16` operand as the integer it names (R91, R11). -/
def s16 (v : Half) : Int := v.toInt

/-- A `u16` operand as the number it names (R91, R11). -/
def u16 (v : Half) : Nat := v.toNat

/-- `RectSet(x, y, w, h)` (R141). -/
def rectSet (x y w h : Int) : Points := fun i j =>
  decide (x ≤ i) && decide (i < x + w) && decide (y ≤ j) && decide (j < y + h)

/-- The points of `RectSet(x, y, w, h)` on its border (R137). -/
def rectBorder (x y w h : Int) : Points := fun i j =>
  rectSet x y w h i j &&
    (decide (i = x) || decide (i = x + w - 1) || decide (j = y) || decide (j = y + h - 1))

/-- The inner loop of `LinePixels`, `while e >= 0: v <- v + sy; e <- e - 2*dx` (R142). Each turn takes at
least 2 from e, so `e + 1` turns are enough. -/
def lineDrop : Nat → Int → Int → Int → Int → Int × Int
  | 0, _, _, v, e => (v, e)
  | k + 1, sy, dx, v, e => if 0 ≤ e then lineDrop k sy dx (v + sy) (e - 2 * dx) else (v, e)

/-- The outer loop of `LinePixels`, for its remaining turns (R142). -/
def lineLoop : Nat → Bool → Int → Int → Int → Int → Int → Int → Int → List (Int × Int)
  | 0, _, _, _, _, _, _, _, _ => []
  | n + 1, steep, sx, sy, dx, dy, u, v, e =>
    (if steep then (v, u) else (u, v)) ::
      lineLoop n steep sx sy dx dy (u + sx) (lineDrop (e.toNat + 1) sy dx v e).1
        ((lineDrop (e.toNat + 1) sy dx v e).2 + 2 * dy)

/-- The absolute value and the direction of a difference (R142). -/
def lineDelta (d : Int) : Int × Int := if 0 < d then (d, 1) else (-d, -1)

/-- `LinePixels(x1, y1, x2, y2)`, in the order the algorithm plots them (R142). -/
def linePixels (x1 y1 x2 y2 : Int) : List (Int × Int) :=
  let dx := (lineDelta (x2 - x1)).1
  let sx := (lineDelta (x2 - x1)).2
  let dy := (lineDelta (y2 - y1)).1
  let sy := (lineDelta (y2 - y1)).2
  (if dx < dy then lineLoop dy.toNat true sy sx dy dx y1 x1 (2 * dx - dy)
    else lineLoop dx.toNat false sx sy dx dy x1 y1 (2 * dy - dx)) ++ [(x2, y2)]

/-- `GLYPH(c, col, row)` of this configuration (R34): the bitmap the configuration lists for the code,
else the uninterpreted glyph. -/
def glyph (cfg : Cfg) (code : Byte) (col row : Nat) : Bool :=
  match cfg.font.find? (fun g => g.1 == code) with
  | some g => g.2.getLsbD (8 * col + row)
  | none => Config.glyph code col row

/-- `TextSet(T, x, y)` (R143): point (i, j) belongs to glyph `(i - x) div 8`, its column
`(i - x) mod 8` and its row `j - y`. -/
def textSet (cfg : Cfg) (text : List Byte) (x y : Int) : Points := fun i j =>
  decide (x ≤ i) && decide (i < x + 8 * text.length) && decide (y ≤ j) && decide (j < y + 8) &&
    glyph cfg (text.getD ((i - x).toNat / 8) 0) ((i - x).toNat % 8) (j - y).toNat

/-- The points BLIT sets: those under an "on" bit of the source (R140). -/
def blitSet (x y : Int) (sw sh : Nat) (src : List Byte) : Points := fun i j =>
  decide (x ≤ i) && decide (i < x + sw) && decide (y ≤ j) && decide (j < y + sh) &&
    (src.getD ((j - y).toNat / 8 * sw + (i - x).toNat) 0).getLsbD ((j - y).toNat % 8)

/-- `RenderStrip(T)`: column byte `col` holds `GLYPH(T[col div 8], col mod 8, row)` in bit `row` (R250). -/
def renderStrip (cfg : Cfg) (text : List Byte) : List Byte :=
  (List.range (8 * text.length)).map (fun col =>
    byteOf (fun row => glyph cfg (text.getD (col / 8) 0) (col % 8) row))

/-- `STRIP(col, row)` (R250). -/
def stripBit (strip : List Byte) (col row : Nat) : Bool := (strip.getD col 0).getLsbD row

/-- The points DrawScaled paints (R254); none for scale 0 (R252). -/
def scaledSet (strip : List Byte) (x y : Int) (scale : Nat) : Points := fun i j =>
  decide (x ≤ i) && decide (i < x + strip.length * scale) &&
    decide (y ≤ j) && decide (j < y + 8 * scale) &&
    stripBit strip ((i - x).toNat / scale) ((j - y).toNat / scale)

end Sys2Proof.Machine
end

