-- ==== Sys2Proof/Machine/FrameBuffer.lean ====
section
/-! DEFINITION. The frame-buffer operations (spec/40_framebuffer.md). -/

namespace Sys2Proof.Machine

/-- FILL (R131). -/
def execFill (c : Bool) (s : State) : Host.Outcome State Fault Refusal :=
  .next (gated (fun s => respond .ok [] (fillBytes (if c then 0xFF else 0x00) s)) s)

/-- SET_PIXEL (R132). -/
def execSetPixel (x y : Half) (c : Bool) (s : State) : Host.Outcome State Fault Refusal :=
  .next (gated (fun s => respond .ok [] (fbSet (s16 x) (s16 y) c s)) s)

/-- The result of GET_PIXEL: `[1, pixel]` in range, `[0, 0]` out of range (R133). -/
def pixelResult (x y : Int) (s : State) : List Byte :=
  if inFb s.cfg x y then [1, flagByte (fbGet s x y)] else [0, 0]

/-- GET_PIXEL (R133). -/
def execGetPixel (x y : Half) (s : State) : Host.Outcome State Fault Refusal :=
  .next (gated (fun s => respond .ok (pixelResult (s16 x) (s16 y) s) s) s)

/-- Paint a point set and answer OK (R130, R141). -/
def drawPoints (points : Points) (c : Bool) (s : State) : State :=
  respond .ok [] (paint points c s)

/-- HLINE (R134). -/
def execHline (x y w : Half) (c : Bool) (s : State) : Host.Outcome State Fault Refusal :=
  .next (gated (drawPoints (rectSet (s16 x) (s16 y) (s16 w) 1) c) s)

/-- VLINE (R135). -/
def execVline (x y h : Half) (c : Bool) (s : State) : Host.Outcome State Fault Refusal :=
  .next (gated (drawPoints (rectSet (s16 x) (s16 y) 1 (s16 h)) c) s)

/-- LINE (R136). -/
def execLine (x1 y1 x2 y2 : Half) (c : Bool) (s : State) : Host.Outcome State Fault Refusal :=
  .next (gated (fun s =>
    respond .ok [] (plot (linePixels (s16 x1) (s16 y1) (s16 x2) (s16 y2)) c s)) s)

/-- RECT (R137). -/
def execRect (x y w h : Half) (c : Bool) (s : State) : Host.Outcome State Fault Refusal :=
  .next (gated (drawPoints (rectBorder (s16 x) (s16 y) (s16 w) (s16 h)) c) s)

/-- FILL_RECT (R138). -/
def execFillRect (x y w h : Half) (c : Bool) (s : State) : Host.Outcome State Fault Refusal :=
  .next (gated (drawPoints (rectSet (s16 x) (s16 y) (s16 w) (s16 h)) c) s)

/-- DRAW_TEXT (R139). -/
def execDrawText (x y : Half) (c : Bool) (text : List Byte) (s : State) :
    Host.Outcome State Fault Refusal :=
  .next (gated (drawPoints (textSet s.cfg text (s16 x) (s16 y)) c) s)

/-- BLIT (R140): "on" bits of the source are set, no bit is cleared. -/
def execBlit (x y sw sh : Half) (src : List Byte) (s : State) :
    Host.Outcome State Fault Refusal :=
  .next (gated (drawPoints (blitSet (s16 x) (s16 y) (u16 sw) (u16 sh) src) true) s)

end Sys2Proof.Machine
end

