-- ==== Sys2Proof/Machine/Glyph.lean ====
section
/-! DEFINITION. The glyph operations (spec/43_glyph.md). -/

namespace Sys2Proof.Machine

/-- `DrawScaled(T, x, y, s, c)` (R251): render the text into STRIP, paint a block for every "on" pixel of
STRIP, discard STRIP (R33, R250). -/
def drawScaled (text : List Byte) (x y : Int) (scale : Nat) (c : Bool) (s : State) : State :=
  let s := { s with strip := some (renderStrip s.cfg text) }
  let s := paint (scaledSet (s.strip.getD []) x y scale) c s
  { s with strip := none }

/-- DRAW_SCALED_TEXT (R251, R252). -/
def execDrawScaledText (x y scale : Half) (c : Bool) (text : List Byte) (s : State) :
    Host.Outcome State Fault Refusal :=
  .next (gated (fun s =>
    respond .ok [] (drawScaled text (s16 x) (s16 y) (u16 scale) c s)) s)

/-- The scale of DRAW_TEXT_MAX, `min(W div (8*n), H div 8)` (R253). -/
def maxScale (cfg : Cfg) (n : Nat) : Nat := min (cfg.w / (8 * n)) (cfg.h / 8)

/-- DRAW_TEXT_MAX (R253): BAD_ARG for an empty text, after the lifecycle gate (R281). -/
def execDrawTextMax (text : List Byte) (s : State) : Host.Outcome State Fault Refusal :=
  .next (gated (fun s =>
    if text.length = 0 then raiseStatus .badArg s
    else respond .ok [] (drawScaled text 0 0 (maxScale s.cfg text.length) true s)) s)

end Sys2Proof.Machine
end

