-- ==== Sys2Proof/Machine/Sensor.lean ====
section
/-! DEFINITION. The sensor frame operation (spec/44_sensor.md). -/

namespace Sys2Proof.Machine

/-- The velocity of a frame, `byte[5] * 256 + byte[6]` (R270, R67). -/
def frameVelocity (frame : List Byte) : Half := half (frame.getD 6 0) (frame.getD 5 0)

/-- The result of DECODE_FRAME: `[1, vel_lo, vel_hi]` for a frame of 10 bytes, `[0, 0, 0]` for any
other (R270). -/
def frameResult (frame : List Byte) : List Byte :=
  if frame.length = 10 then 1 :: halfBytes (frameVelocity frame) else [0, 0, 0]

/-- DECODE_FRAME (R270): in every lifecycle state, no state changed but the response. -/
def execDecodeFrame (frame : List Byte) (s : State) : Host.Outcome State Fault Refusal :=
  .next (respond .ok (frameResult frame) s)

end Sys2Proof.Machine
end

