-- ==== Sys2Proof/Machine/Dispatch.lean ====
section
/-! DEFINITION. One arm per operation: each is one call of its meaning. -/

namespace Sys2Proof.Machine

def exec (i : Instr) (s : State) : Host.Outcome State Fault Refusal :=
  match i with
  | .fill c => Sys2Proof.Machine.execFill c s
  | .setPixel x y c => Sys2Proof.Machine.execSetPixel x y c s
  | .getPixel x y => Sys2Proof.Machine.execGetPixel x y s
  | .hline x y w c => Sys2Proof.Machine.execHline x y w c s
  | .vline x y h c => Sys2Proof.Machine.execVline x y h c s
  | .line x1 y1 x2 y2 c => Sys2Proof.Machine.execLine x1 y1 x2 y2 c s
  | .rect x y w h c => Sys2Proof.Machine.execRect x y w h c s
  | .fillRect x y w h c => Sys2Proof.Machine.execFillRect x y w h c s
  | .drawText x y c text => Sys2Proof.Machine.execDrawText x y c text s
  | .blit x y sw sh src => Sys2Proof.Machine.execBlit x y sw sh src s
  | .init => Sys2Proof.Machine.execInit s
  | .showBuffer => Sys2Proof.Machine.execShowBuffer s
  | .powerOff => Sys2Proof.Machine.execPowerOff s
  | .powerOn => Sys2Proof.Machine.execPowerOn s
  | .contrast v => Sys2Proof.Machine.execContrast v s
  | .invert f => Sys2Proof.Machine.execInvert f s
  | .rotate f => Sys2Proof.Machine.execRotate f s
  | .drawScaledText x y scale c text => Sys2Proof.Machine.execDrawScaledText x y scale c text s
  | .drawTextMax text => Sys2Proof.Machine.execDrawTextMax text s
  | .decodeFrame frame => Sys2Proof.Machine.execDecodeFrame frame s
  | .tpCmd b => Sys2Proof.Machine.execTpCmd b s
  | .tpData l => Sys2Proof.Machine.execTpData l s
  | .devContrast v => Sys2Proof.Machine.execDevContrast v s
  | .devEntireOn => Sys2Proof.Machine.execDevEntireOn s
  | .devNormInv i1 => Sys2Proof.Machine.execDevNormInv i1 s
  | .devDisplay d => Sys2Proof.Machine.execDevDisplay d s
  | .devMemAddrMode mode => Sys2Proof.Machine.execDevMemAddrMode mode s
  | .devColAddr first last => Sys2Proof.Machine.execDevColAddr first last s
  | .devPageAddr first last => Sys2Proof.Machine.execDevPageAddr first last s
  | .devStartLine line => Sys2Proof.Machine.execDevStartLine line s
  | .devSegRemap r => Sys2Proof.Machine.execDevSegRemap r s
  | .devMuxRatio ratio => Sys2Proof.Machine.execDevMuxRatio ratio s
  | .devComDir d => Sys2Proof.Machine.execDevComDir d s
  | .devDispOffset offset => Sys2Proof.Machine.execDevDispOffset offset s
  | .devComPins pins => Sys2Proof.Machine.execDevComPins pins s
  | .devClkDiv divide => Sys2Proof.Machine.execDevClkDiv divide s
  | .devPrecharge period => Sys2Proof.Machine.execDevPrecharge period s
  | .devVcomDesel level => Sys2Proof.Machine.execDevVcomDesel level s
  | .devChargePump setting => Sys2Proof.Machine.execDevChargePump setting s

end Sys2Proof.Machine
end

