-- ==== Sys2Proof/Machine/Fetch.lean ====
section
/-! DEFINITION. Where the block gets the next thing to do: the internal port and the host port
(spec/10_state.md R35, spec/30_encoding.md R90, R100, spec/60_exceptions.md R281,
spec/70_reset_and_hazards.md R310, R322). -/

namespace Sys2Proof.Machine

/-- What the block finds to do next. -/
inductive Fetched where
  /-- Nothing: the block waits for the host (R311), or a stalled request waits for ever (R223). -/
  | wait
  /-- Run this operation from this state. -/
  | run (i : Instr) (s : State)
  /-- Already done: a reset, or a request answered before any operation runs (R281). -/
  | settled (s : State)
  /-- Run this operation from this state, but reset is applied while it runs (R310). -/
  | cut (i : Instr) (events : Nat) (inputs : Cfg) (s : State)
  /-- The internal port holds no operation. -/
  | bad (f : Fault)
deriving DecidableEq, Repr

/-- The bytes of a request in the internal port, and the code space they are read in (R100, R103). -/
def portBytes : PortReq → Port × List Byte
  | .tp k l => (.tp, flagByte k :: l)
  | .dev bytes => (.dev, bytes)

/-- The fault of a request in the internal port that is no operation (log entry 16). -/
def portFault : PortReq → Fault
  | .tp _ _ => .transportRequest
  | .dev _ => .deviceCommand

/-- Take the request out of the internal port. -/
def fetchPort (r : PortReq) (s : State) : Fetched :=
  match decode (portBytes r).1 s.cfg.maxReq (portBytes r).2 with
  | .ok i => .run i { s with port := none }
  | .error _ => .bad (portFault r)

/-- Accept a host request: `BUSY` is 1 until its response (R35); a reserved opcode answers ILLEGAL_OP, a
malformed request BAD_ARG (R281). -/
def fetchRequest (op : Byte) (args : List Byte) (s : State) : Fetched :=
  match decode .host s.cfg.maxReq (op :: args) with
  | .ok i => .run i { s with busy := true }
  | .error e => .settled (raiseStatus (decodeStatus e) { s with busy := true })

/-- A host request during which reset is applied: one that runs no operation makes no wire event before
the reset (R310). -/
def fetchCut (op : Byte) (args : List Byte) (events : Nat) (inputs : Cfg) (s : State) : Fetched :=
  match decode .host s.cfg.maxReq (op :: args) with
  | .ok i => .cut i events inputs { s with busy := true }
  | .error _ => .settled (resetBlock inputs s)

/-- The first reset the host applies, and what it does besides: a request presented while the block is
busy is not consumed and waits (R35). -/
def takeReset : List HostEvent → Option (Cfg × List HostEvent)
  | [] => none
  | .reset inputs :: rest => some (inputs, rest)
  | .resetDuring op args _ inputs :: rest => some (inputs, .request op args :: rest)
  | .request op args :: rest =>
    match takeReset rest with
    | some (inputs, rest) => some (inputs, .request op args :: rest)
    | none => none

/-- What the block does next. A busy block has a request that never completes: only reset helps (R223,
R314). Otherwise it serves the internal port, then the host port in the host's order (R72). -/
def fetch (s : State) : Fetched :=
  if s.busy then
    match takeReset s.inbox with
    | some (inputs, rest) => .settled (resetBlock inputs { s with inbox := rest })
    | none => .wait
  else
    match s.port with
    | some r => fetchPort r s
    | none =>
      match s.inbox with
      | [] => .wait
      | .request op args :: rest => fetchRequest op args { s with inbox := rest }
      | .reset inputs :: rest => .settled (resetBlock inputs { s with inbox := rest })
      | .resetDuring op args events inputs :: rest =>
        fetchCut op args events inputs { s with inbox := rest }

/-- Go on after an operation during which reset is applied: the state it leads to is abandoned (R310). -/
def cutShort (events : Nat) (inputs : Cfg) (s : State)
    (o : Host.Outcome State Fault Refusal) : Host.Outcome State Fault Refusal :=
  match o with
  | .next t => .next (abandon events inputs s t)
  | .fault f => .fault f
  | .refused r => .refused r

/-- Put an operation's bytes where the block fetches next: at the head of the host port's requests, or
in the internal port. -/
def placeBytes (p : Port) (bytes : List Byte) (s : State) : State :=
  match p with
  | .host =>
    match bytes with
    | [] => s
    | op :: args => { s with busy := false, port := none, inbox := .request op args :: s.inbox }
  | .tp =>
    match bytes with
    | [] => s
    | k :: l => { s with busy := false, port := some (.tp (k.getLsbD 0) l) }
  | .dev => { s with busy := false, port := some (.dev bytes) }

end Sys2Proof.Machine
end

