-- ==== Sys2Proof/Machine/Step.lean ====
section
/-! DEFINITION. One step of the block: one host action or one request in the internal port, to its
completion, its abort or its stall (spec/10_state.md R25, spec/20_memory.md R72, R73). -/

namespace Sys2Proof.Machine

/-- One step. -/
def step (s : State) : Host.Outcome State Fault Refusal :=
  match fetch s with
  | .wait => .next s
  | .run i s => exec i s
  | .settled s => .next s
  | .cut i events inputs s => cutShort events inputs s (exec i s)
  | .bad f => .fault f

/-- The state with the operation of an opcode-table word placed where the block fetches next. -/
def State.withFetchWord (s : State) (nbits w : Nat) : State :=
  placeBytes (tableFetch nbits w).1 (tableFetch nbits w).2 s

end Sys2Proof.Machine
end

