-- ==== Sys2Proof/Safety.lean ====
section
/-! DEFINITION. The terms claims are made in: the wire events an operation makes when the bus environment
answers every transaction `ok` and when it does not (spec/70_reset_and_hazards.md R324), the levels the
lines have after some events, and the invariant of the block. -/

namespace Sys2Proof.Machine

/-! ### What the bus environment answers (R324) -/

/-- The next n transactions are answered `ok`. -/
abbrev BusOk (s : State) (n : Nat) : Prop := ∀ j < n, busAnswer s j = some .ok

/-- The next k transactions are answered `ok` and the one after them gets `a`, which is not `ok`: a
failure, or no answer at all. -/
abbrev BusStops (s : State) (k : Nat) (a : Answer) : Prop :=
  BusOk s k ∧ busAnswer s k = a ∧ a ≠ some .ok

/-! ### Wire events -/

/-- Is it a bus transaction, AX or BW (R31)? -/
def WireEvent.isTransaction : WireEvent → Bool
  | .ax _ _ _ => true
  | .bl _ _ => false
  | .bw _ _ => true
  | .rst => false

/-- The event with this outcome; a line change and RST have none (R31). -/
def WireEvent.withOut (a : Answer) : WireEvent → WireEvent
  | .ax addr bytes _ => .ax addr bytes a
  | .bl l v => .bl l v
  | .bw bytes _ => .bw bytes a
  | .rst => .rst

/-- The outcome of a transaction is still missing (R31). -/
def WireEvent.pending : WireEvent → Bool
  | .ax _ _ out => out.isNone
  | .bl _ _ => false
  | .bw _ out => out.isNone
  | .rst => false

/-- The number of transactions among some events. -/
def transactions (es : List WireEvent) : Nat := es.countP WireEvent.isTransaction

/-- The events up to and including the k-th transaction (counted from 0), whose outcome is `a`: what is on
the wire when an operation stops there (R224, R282). -/
def cutEvents : Nat → Answer → List WireEvent → List WireEvent
  | _, _, [] => []
  | k, a, e :: es =>
    if e.isTransaction then
      match k with
      | 0 => [e.withOut a]
      | k + 1 => e :: cutEvents k a es
    else e :: cutEvents k a es

/-- The level of a line after some events: that of its last BL event, else the level before (R225). -/
def lineAfter (l : Line) (level : Bool) : List WireEvent → Bool
  | [] => level
  | .bl l' v :: es => lineAfter l (if l' = l then v else level) es
  | .ax _ _ _ :: es => lineAfter l level es
  | .bw _ _ :: es => lineAfter l level es
  | .rst :: es => lineAfter l level es

/-- The levels of the three lines after some events (R225). -/
def linesAfter (es : List WireEvent) (ls : Lines) : Lines where
  cs := lineAfter .cs ls.cs es
  dc := lineAfter .dc ls.dc es
  res := lineAfter .res ls.res es

/-! ### The events of an operation whose transactions are all answered `ok` -/

/-- TP_CMD (R226, R230). -/
def okCmd (c : Cfg) (b : Byte) : List WireEvent :=
  match c.bus with
  | .a => [.ax (BitVec.ofNat 7 c.addrA) [0x80, b] (some .ok)]
  | .b => [.bl .cs true, .bl .dc false, .bl .cs false, .bw [b] (some .ok), .bl .cs true]

/-- Consecutive TP_CMDs (R181). -/
def okCmds (c : Cfg) (bs : List Byte) : List WireEvent := bs.flatMap (okCmd c)

/-- TP_DATA (R227, R231). -/
def okData (c : Cfg) (l : List Byte) : List WireEvent :=
  match c.bus with
  | .a => (chunks l c.chunkA).map (fun d => .ax (BitVec.ofNat 7 c.addrA) (0x40 :: d) (some .ok))
  | .b =>
    [.bl .cs true, .bl .dc true, .bl .cs false] ++
      (chunks l c.chunkB).map (fun d => .bw d (some .ok)) ++ [.bl .cs true]

/-- One page of Flush, with the page's bytes (R173). -/
def okPage (c : Cfg) (page : Nat → List Byte) (p : Nat) : List WireEvent :=
  okCmds c [0x22, BitVec.ofNat 8 p, BitVec.ofNat 8 (c.h / 8 - 1),
    0x21, 0x00, BitVec.ofNat 8 (c.w - 1)] ++ okData c (page p)

/-- Flush: the pages in increasing order (R173). -/
def okFlush (c : Cfg) (page : Nat → List Byte) : List WireEvent :=
  (List.range (c.h / 8)).flatMap (okPage c page)

/-- The 25 bytes of the initialization sequence, as R171 lists them. -/
def initBytes (c : Cfg) : List Byte :=
  [0xAE, 0x20, 0x00, 0x40, 0xA1, 0xA8, BitVec.ofNat 8 (c.h - 1), 0xC8, 0xD3, 0x00, 0xDA,
    if c.h = 32 then 0x02 else 0x12, 0xD5, 0x80, 0xD9, if c.extVcc then 0x22 else 0xF1,
    0xDB, 0x30, 0x81, 0xFF, 0xA4, 0xA6, 0x8D, if c.extVcc then 0x10 else 0x14, 0xAF]

/-- The reset pulse of bus-B (R233); bus-A has none. -/
def okPulse (c : Cfg) : List WireEvent :=
  match c.bus with
  | .a => []
  | .b => [.bl .res true, .bl .res false, .bl .res true]

/-- INIT after its checks (R170): the reset pulse, the initialization sequence, the flush of zeros. -/
def okInit (c : Cfg) : List WireEvent :=
  okPulse c ++ okCmds c (initBytes c) ++ okFlush c (fun _ => List.replicate c.w 0)

/-! ### What an operation did -/

/-- The points of the frame buffer (R61). -/
abbrev InRange (c : Cfg) (x y : Int) : Prop := 0 ≤ x ∧ x < c.w ∧ 0 ≤ y ∧ y < c.h

/-- The operation answered OK with no result, gave every point of the set the colour, left every other
pixel and every byte outside [0, P × W) as it was, and changed nothing else (R130, R141, R146). -/
def Draws (points : Int → Int → Prop) (c : Bool) (s : State)
    (o : Host.Outcome State Fault Refusal) : Prop :=
  ∃ t, o = .next t ∧
    t = { s with fb := t.fb, busy := false, resp := s.resp ++ [[0x00]] } ∧
    (∀ x y, InRange s.cfg x y →
      (points x y → fbGet t x y = c) ∧ (¬ points x y → fbGet t x y = fbGet s x y)) ∧
    ∀ a, s.cfg.h / 8 * s.cfg.w ≤ a → t.fb.read a = s.fb.read a

/-- From `s` to `t` the wire grew by these events, n transactions were issued and the last transport
operation returned `a` (or never returned); the lines, where they exist, have the levels of their last
events. What else a
transport operation never changes is as before. Whether CMDBUF changed is said for bus-B only, where it
does not exist. -/
structure Ran (s t : State) (es : List WireEvent) (n : Nat) (a : Answer) : Prop where
  wire : t.wire = s.wire ++ es
  script : t.script = s.script.drop n
  asked : t.asked = s.asked + n
  lines : t.lines = s.lines.map (linesAfter es)
  ret : t.ret = a
  port : a ≠ none → t.port = none
  cmdBuf : s.cfg.bus = .b → t.cmdBuf = s.cmdBuf
  cfg : t.cfg = s.cfg
  strip : t.strip = s.strip
  inbox : t.inbox = s.inbox

/-- How a controller operation that was stopped by the answer `a` ends: BUS_FAIL is answered for a
failure, nothing for a transaction that is never answered, and the block then stays busy (R174, R223). -/
def Stopped (s t : State) (a : Answer) : Prop :=
  (a = some .fail → t.busy = false ∧ t.resp = s.resp ++ [[0x04]]) ∧
    (a = none → t.busy = true ∧ t.resp = s.resp)

/-- The command bytes of the operations that send only device commands (R176 to R180). -/
def toggleBytes : Instr → Option (List Byte)
  | .powerOff => some [0xAE]
  | .powerOn => some [0xAF]
  | .contrast v => some [0x81, BitVec.ofNat 8 v.toNat]
  | .invert f => some [if f then 0xA7 else 0xA6]
  | .rotate f => some [if f then 0xC8 else 0xC0, if f then 0xA1 else 0xA0]
  | .fill _ | .setPixel _ _ _ | .getPixel _ _ | .hline _ _ _ _ | .vline _ _ _ _
  | .line _ _ _ _ _ | .rect _ _ _ _ _ | .fillRect _ _ _ _ _ | .drawText _ _ _ _
  | .blit _ _ _ _ _ | .init | .showBuffer | .drawScaledText _ _ _ _ _ | .drawTextMax _
  | .decodeFrame _ | .tpCmd _ | .tpData _ | .devContrast _ | .devEntireOn | .devNormInv _
  | .devDisplay _ | .devMemAddrMode _ | .devColAddr _ _ | .devPageAddr _ _ | .devStartLine _
  | .devSegRemap _ | .devMuxRatio _ | .devComDir _ | .devDispOffset _ | .devComPins _
  | .devClkDiv _ | .devPrecharge _ | .devVcomDesel _ | .devChargePump _ => none

/-- The bytes of a device command: its command byte with its variable bits, then its operand bytes
(R190 to R206). -/
def deviceBytes : Instr → Option (List Byte)
  | .devContrast v => some [0x81, v]
  | .devEntireOn => some [0xA4]
  | .devNormInv i => some [if i then 0xA7 else 0xA6]
  | .devDisplay d => some [if d then 0xAF else 0xAE]
  | .devMemAddrMode mode => some [0x20, mode]
  | .devColAddr first last => some [0x21, first, last]
  | .devPageAddr first last => some [0x22, first, last]
  | .devStartLine line => some [BitVec.ofNat 8 (0x40 + line.toNat)]
  | .devSegRemap r => some [if r then 0xA1 else 0xA0]
  | .devMuxRatio ratio => some [0xA8, ratio]
  | .devComDir d => some [if d then 0xC8 else 0xC0]
  | .devDispOffset offset => some [0xD3, offset]
  | .devComPins pins => some [0xDA, pins]
  | .devClkDiv divide => some [0xD5, divide]
  | .devPrecharge period => some [0xD9, period]
  | .devVcomDesel level => some [0xDB, level]
  | .devChargePump setting => some [0x8D, setting]
  | .fill _ | .setPixel _ _ _ | .getPixel _ _ | .hline _ _ _ _ | .vline _ _ _ _
  | .line _ _ _ _ _ | .rect _ _ _ _ _ | .fillRect _ _ _ _ _ | .drawText _ _ _ _
  | .blit _ _ _ _ _ | .init | .showBuffer | .powerOff | .powerOn | .contrast _ | .invert _
  | .rotate _ | .drawScaledText _ _ _ _ _ | .drawTextMax _ | .decodeFrame _ | .tpCmd _
  | .tpData _ => none

/-- The reserved host opcodes (R99). -/
abbrev ReservedOpcode (op : Byte) : Prop :=
  op.toNat = 0x00 ∨ (0x0B ≤ op.toNat ∧ op.toNat ≤ 0x0F) ∨ (0x17 ≤ op.toNat ∧ op.toNat ≤ 0x2F) ∨
    (0x32 ≤ op.toNat ∧ op.toNat ≤ 0x3F) ∨ 0x41 ≤ op.toNat

/-- The offsets of the `c1` fields of a request (R93). -/
def flagOffset : HostOp → Option Nat
  | .fill => some 1
  | .setPixel => some 5
  | .getPixel => none
  | .hline => some 7
  | .vline => some 7
  | .line => some 9
  | .rect => some 9
  | .fillRect => some 9
  | .drawText => some 5
  | .blit => none
  | .init => none
  | .showBuffer => none
  | .powerOff => none
  | .powerOn => none
  | .contrast => none
  | .invert => some 1
  | .rotate => some 1
  | .drawScaledText => some 7
  | .drawTextMax => none
  | .decodeFrame => none

/-- A malformed request of a legal opcode (R94): its length is not the one R93 gives for its own length
fields (a field it is too short to hold counts as 0, and such a length is never right), it is longer than
MAX_REQUEST_BYTES, it is a BLIT with `sh mod 8 ≠ 0`, or its `c1` field is neither 0 nor 1. -/
def Malformed (maxReq : Nat) (o : HostOp) (q : List Byte) : Prop :=
  q.length ≠ requestLength o (fun k => q.getD k 0) ∨ maxReq < q.length ∨
    (o = .blit ∧ (half (q.getD 7 0) (q.getD 8 0)).toNat % 8 ≠ 0) ∨
    (∃ k, flagOffset o = some k ∧ q.getD k 0 ≠ 0 ∧ q.getD k 0 ≠ 1)

/-- The block waits for the host: it is not busy and its internal port is empty. -/
abbrev Idle (s : State) : Prop := s.busy = false ∧ s.port = none

/-! ### The invariant -/

/-- The legal configurations, as R172 words them. -/
abbrev LegalConfig (c : Cfg) : Prop :=
  1 ≤ c.w ∧ c.w ≤ 256 ∧ (c.h = 32 ∨ c.h = 64) ∧
    (c.bus = .a → 1 ≤ c.chunkA ∧ c.addrA ≤ 0x7F) ∧ (c.bus = .b → 1 ≤ c.chunkB)

/-- An event that lacks its outcome is followed by RST, or it is the last one and the block is busy:
at most one transaction is in flight (R31, R75, R310). -/
def SettledWire : List WireEvent → Bool → Prop
  | [], _ => True
  | [e], busy => e.pending = true → busy = true
  | e :: e' :: es, busy => (e.pending = true → e' = .rst) ∧ SettledWire (e' :: es) busy

/-- The invariant every step keeps: the frame buffer is in canonical form and lists no byte outside
[0, P × W) (R28, R146); the lines exist on bus-B only (R29); STRIP does not exist between requests (R33); the block is READY only under a
legal configuration (R170, R172); at most one transaction is in flight (R75). -/
structure State.Inv (s : State) : Prop where
  canonical : s.fb.wf = true
  bounded : ∀ c ∈ s.fb, c.1 < s.cfg.h / 8 * s.cfg.w
  lines : s.lines.isSome = true ↔ s.cfg.bus = .b
  noStrip : s.strip = none
  legal : s.life = .ready → LegalConfig s.cfg
  settled : SettledWire s.wire s.busy

end Sys2Proof.Machine
end

