-- ==== Sys2Proof/Certificates/Slice0/Obligations.lean ====
section
/-! DEFINITION. The statements for the provers. Each docstring names the rules of spec/ it formalises. -/

open Sys2Proof Sys2Proof.Machine

/-! ### Encoding -/

/-- Decoding the bytes of a well-formed operation gives the operation back, in every code space (R93,
R94, R100, R103). The kind byte of a transport request is the model's choice (log entry 21). -/
def Obligations.DecodeOfEncodeIsTheInstruction : Prop :=
  ∀ (maxReq : Nat) (i : Instr), i.wf maxReq = true → decode i.port maxReq (encode i) = .ok i

/-- Bytes that decode are the encoding of the operation they decode to, which is well-formed and of that
code space: one meaning, one spelling (R93, R94, R98, R103). For a transport request R100 gives K and L
but no bytes: its one spelling, a kind byte with seven zero bits and then L, is the model's choice (log
entry 21). -/
def Obligations.DecodedBytesAreTheEncoding : Prop :=
  ∀ (p : Port) (maxReq : Nat) (bytes : List Byte) (i : Instr), decode p maxReq bytes = .ok i →
    i.port = p ∧ i.wf maxReq = true ∧ encode i = bytes

/-- R99: a request whose opcode is reserved answers ILLEGAL_OP with no other effect, whatever its length;
no other request is answered so by the decoder. -/
def Obligations.ReservedOpcodesAnswerIllegalOp : Prop :=
  ∀ (s : State) (op : Byte) (args : List Byte) (rest : List HostEvent), Idle s →
    s.inbox = .request op args :: rest →
    (ReservedOpcode op → step s = .next { s with inbox := rest, resp := s.resp ++ [[0x01]] }) ∧
      (¬ ReservedOpcode op → decode .host s.cfg.maxReq (op :: args) ≠ .error .illegalOp)

/-- R94, R281: a malformed request of a legal opcode answers BAD_ARG with no other effect; every other
request of a legal opcode is decoded. -/
def Obligations.MalformedRequestsAnswerBadArg : Prop :=
  ∀ (s : State) (op : Byte) (o : HostOp) (args : List Byte) (rest : List HostEvent), Idle s →
    s.inbox = .request op args :: rest → (op, o) ∈ hostOpcodes →
    (Malformed s.cfg.maxReq o (op :: args) →
      step s = .next { s with inbox := rest, resp := s.resp ++ [[0x02]] }) ∧
      (¬ Malformed s.cfg.maxReq o (op :: args) →
        ∃ i, decode .host s.cfg.maxReq (op :: args) = .ok i)

/-- Requests and device commands written out byte by byte from R92, R93 and R103 decode to the operations
they stand for (a sanity statement). So does one transport request; R100 gives it no bytes, and its
spelling is the model's choice (log entry 21). -/
def Obligations.WrittenOutBytesDecode : Prop :=
  decode .host 64 [0x02, 0x05, 0x00, 0xFE, 0xFF, 0x01] =
      .ok (.setPixel (BitVec.ofInt 16 5) (BitVec.ofInt 16 (-2)) true) ∧
    decode .host 64 [0x14, 0x34, 0x12] = .ok (.contrast 0x1234) ∧
    decode .host 64 [0x31, 0x02, 0x41, 0x42] = .ok (.drawTextMax [0x41, 0x42]) ∧
    decode .host 64 [0x0A, 3, 0, 4, 0, 2, 0, 8, 0, 0x01, 0x80] = .ok (.blit 3 4 2 8 [0x01, 0x80]) ∧
    decode .tp 64 [0x00, 0x40] = .ok (.tpCmd 0x40) ∧
    decode .dev 64 [0x22, 0x01, 0x03] = .ok (.devPageAddr 1 3) ∧
    decode .dev 64 [0xC8] = .ok (.devComDir true) ∧
    decode .dev 64 [0x6A] = .ok (.devStartLine 0x2A)

/-! ### Steps -/

/-- R25, R35, R72: the block accepts the host's next request when it is idle, and a step is the
execution of the operation its bytes decode to, from the state in which the request is consumed and
BUSY is 1. -/
def Obligations.StepRunsTheDecodedRequest : Prop :=
  ∀ (s : State) (op : Byte) (args : List Byte) (rest : List HostEvent) (i : Instr), Idle s →
    s.inbox = .request op args :: rest → decode .host s.cfg.maxReq (op :: args) = .ok i →
    step s = exec i { s with inbox := rest, busy := true }

/-- R100, R181: a step with a request in the internal port is the execution of the transport operation
or device command its bytes decode to, from the state in which the port is empty (log entry 11). -/
def Obligations.StepRunsTheDecodedPortRequest : Prop :=
  ∀ (s : State) (i : Instr), s.busy = false →
    (∀ k l, s.port = some (.tp k l) →
      decode .tp s.cfg.maxReq ((if k then 0x01 else 0x00) :: l) = .ok i →
      step s = exec i { s with port := none }) ∧
    (∀ bytes, s.port = some (.dev bytes) → decode .dev s.cfg.maxReq bytes = .ok i →
      step s = exec i { s with port := none })

/-- R100 and log entry 16: a transport request with K = 0 whose byte list is not one byte long, and bytes
that are no device command, stop the block by name. -/
def Obligations.BadPortRequestsFault : Prop :=
  ∀ (s : State), s.busy = false →
    (∀ l : List Byte, s.port = some (.tp false l) → l.length ≠ 1 →
      step s = .fault .transportRequest) ∧
    (∀ bytes : List Byte, s.port = some (.dev bytes) →
      (∀ i, deviceBytes i ≠ some bytes) → step s = .fault .deviceCommand)

/-- R35, R223: while the block is busy (a stalled request), the requests the host presents are not
consumed and nothing changes. -/
def Obligations.BusyBlockConsumesNoRequest : Prop :=
  ∀ (s : State), s.busy = true → (∀ e ∈ s.inbox, ∃ op args, e = .request op args) →
    step s = .next s

/-- R310, R314: reset, whether the block waits for the host or is stalled with requests waiting, loads
the configuration, sets LIFE, BUSY, STRIP and, on bus-B, the lines to their reset values (on bus-A there
are no lines, R29), appends RST to WIRE with no
other event, produces no response and leaves the waiting requests. -/
def Obligations.ResetSetsTheResetValues : Prop :=
  ∀ (s : State) (waiting rest : List HostEvent) (inputs : Cfg),
    s.inbox = waiting ++ .reset inputs :: rest →
    (∀ e ∈ waiting, ∃ op args, e = .request op args) →
    (s.busy = true ∨ (Idle s ∧ waiting = [])) →
    ∃ t, step s = .next t ∧ t.cfg = inputs ∧ t.life = .uninit ∧ t.busy = false ∧
      t.lines = (if inputs.bus = .b then some { cs := true, dc := false, res := true } else none) ∧
      t.strip = none ∧ t.port = none ∧
      t.wire = s.wire ++ [.rst] ∧ t.resp = s.resp ∧ t.inbox = waiting ++ rest ∧
      t.script = s.script ∧ t.asked = s.asked

/-- R310, R30: reset applied in the middle of a request keeps the wire events the request has made so
far, appends RST, sets the reset values and produces no response. -/
def Obligations.ResetDuringARequestAbandonsIt : Prop :=
  ∀ (s t : State) (op : Byte) (args : List Byte) (n : Nat) (inputs : Cfg) (rest : List HostEvent)
    (i : Instr) (es : List WireEvent), Idle s →
    s.inbox = .resetDuring op args n inputs :: rest →
    decode .host s.cfg.maxReq (op :: args) = .ok i →
    exec i { s with inbox := rest, busy := true } = .next t → t.wire = s.wire ++ es →
    ∃ u, step s = .next u ∧ u.wire = s.wire ++ es.take n ++ [.rst] ∧ u.resp = s.resp ∧
      u.inbox = rest ∧ u.cfg = inputs ∧ u.life = .uninit ∧ u.busy = false ∧
      u.lines = (if inputs.bus = .b then some { cs := true, dc := false, res := true } else none) ∧
      u.strip = none ∧ u.port = none

/-! ### The lifecycle gate -/

/-- R281, R130: in UNINIT and FAILED every host operation but INIT and DECODE_FRAME answers NOT_READY and
changes nothing. -/
def Obligations.GatedOperationsAnswerNotReady : Prop :=
  ∀ (i : Instr) (s : State), i.port = .host → i ≠ .init → (∀ f, i ≠ .decodeFrame f) →
    s.life ≠ .ready →
    exec i s = .next { s with busy := false, resp := s.resp ++ [[0x03]] }

/-- R170, R172, R281: INIT answers ALREADY_INIT in READY and NOT_READY in FAILED and changes nothing; in
UNINIT with an illegal configuration it answers BAD_CONFIG, sets LIFE = FAILED and makes no wire event. -/
def Obligations.InitChecksBeforeItRuns : Prop :=
  ∀ (s : State),
    (s.life = .ready → exec .init s = .next { s with busy := false, resp := s.resp ++ [[0x05]] }) ∧
    (s.life = .failed → exec .init s = .next { s with busy := false, resp := s.resp ++ [[0x03]] }) ∧
    (s.life = .uninit → ¬ LegalConfig s.cfg →
      exec .init s =
        .next { s with life := .failed, busy := false, resp := s.resp ++ [[0x06]] })

/-! ### Frame-buffer operations -/

/-- R131: FILL writes every byte of the frame buffer, 0xFF or 0x00, and nothing else. -/
def Obligations.FillSetsEveryByte : Prop :=
  ∀ (c : Bool) (s : State), s.life = .ready →
    ∃ t, exec (.fill c) s = .next t ∧
      t = { s with fb := t.fb, busy := false, resp := s.resp ++ [[0x00]] } ∧
      ∀ a, t.fb.read a =
        if a < s.cfg.h / 8 * s.cfg.w then (if c then 0xFF else 0x00) else s.fb.read a

/-- R132, R63: SET_PIXEL writes one pixel and leaves every other bit of the frame buffer unchanged; on an
out-of-bounds point it changes nothing. -/
def Obligations.SetPixelWritesOneBit : Prop :=
  ∀ (x y : Half) (c : Bool) (s : State), s.life = .ready →
    ∃ t, exec (.setPixel x y c) s = .next t ∧
      t = { s with fb := t.fb, busy := false, resp := s.resp ++ [[0x00]] } ∧
      ∀ a k, k < 8 → (t.fb.read a).getLsbD k =
        if InRange s.cfg x.toInt y.toInt ∧
            a = y.toInt.toNat / 8 * s.cfg.w + x.toInt.toNat ∧ k = y.toInt.toNat % 8 then c
        else (s.fb.read a).getLsbD k

/-- R133: GET_PIXEL answers `[1, pixel]` for a point in range and `[0, 0]` out of range, and changes
nothing. -/
def Obligations.GetPixelReadsOneBit : Prop :=
  ∀ (x y : Half) (s : State), s.life = .ready →
    ∃ t, exec (.getPixel x y) s = .next t ∧
      t = { s with busy := false, resp := t.resp } ∧
      (InRange s.cfg x.toInt y.toInt →
        t.resp = s.resp ++ [[0x00, 0x01,
          if (s.fb.read (y.toInt.toNat / 8 * s.cfg.w + x.toInt.toNat)).getLsbD (y.toInt.toNat % 8)
          then 0x01 else 0x00]]) ∧
      (¬ InRange s.cfg x.toInt y.toInt → t.resp = s.resp ++ [[0x00, 0x00, 0x00]])

/-- R134, R135: HLINE and VLINE colour the points of a line of length n, clipped to the buffer; none for
n ≤ 0. -/
def Obligations.HlineAndVlineColourTheirLine : Prop :=
  ∀ (x y n : Half) (c : Bool) (s : State), s.life = .ready → LegalConfig s.cfg →
    Draws (fun i j => x.toInt ≤ i ∧ i < x.toInt + n.toInt ∧ j = y.toInt) c s
      (exec (.hline x y n c) s) ∧
    Draws (fun i j => i = x.toInt ∧ y.toInt ≤ j ∧ j < y.toInt + n.toInt) c s
      (exec (.vline x y n c) s)

/-- R137, R138, R141: FILL_RECT colours RectSet(x, y, w, h), RECT the points of it on its border. -/
def Obligations.RectAndFillRectColourTheirPoints : Prop :=
  ∀ (x y w h : Half) (c : Bool) (s : State), s.life = .ready → LegalConfig s.cfg →
    Draws (fun i j => x.toInt ≤ i ∧ i < x.toInt + w.toInt ∧ y.toInt ≤ j ∧ j < y.toInt + h.toInt)
      c s (exec (.fillRect x y w h c) s) ∧
    Draws (fun i j =>
        (x.toInt ≤ i ∧ i < x.toInt + w.toInt ∧ y.toInt ≤ j ∧ j < y.toInt + h.toInt) ∧
        (i = x.toInt ∨ i = x.toInt + w.toInt - 1 ∨ j = y.toInt ∨ j = y.toInt + h.toInt - 1))
      c s (exec (.rect x y w h c) s)

/-- R136: LINE colours the points LinePixels plots, clipped to the buffer. -/
def Obligations.LineColoursLinePixels : Prop :=
  ∀ (x1 y1 x2 y2 : Half) (c : Bool) (s : State), s.life = .ready → LegalConfig s.cfg →
    Draws (fun i j => (i, j) ∈ linePixels x1.toInt y1.toInt x2.toInt y2.toInt) c s
      (exec (.line x1 y1 x2 y2 c) s)

/-- R142, R136: LinePixels contains both end points; it is one point when they are equal; a horizontal
line is every point between them, and so is a vertical one. For every other line too it is exactly the
points of R142's algorithm, one for each step k along the major axis from the first end point to the
second: when the k-th point is plotted the minor coordinate has moved (2·k·minor + major) div (2·major)
times, the number of turns the inner loop has taken by then; x is the major axis when dy ≤ dx, y when
dx < dy. -/
def Obligations.LinePixelsJoinTheEndPoints : Prop :=
  ∀ (x1 y1 x2 y2 dx dy sx sy : Int),
    dx = (if 0 < x2 - x1 then x2 - x1 else -(x2 - x1)) → sx = (if 0 < x2 - x1 then 1 else -1) →
    dy = (if 0 < y2 - y1 then y2 - y1 else -(y2 - y1)) → sy = (if 0 < y2 - y1 then 1 else -1) →
    (dy ≤ dx → 0 < dx → ∀ i j, (i, j) ∈ linePixels x1 y1 x2 y2 ↔
      ∃ k, 0 ≤ k ∧ k ≤ dx ∧ i = x1 + sx * k ∧ j = y1 + sy * ((2 * k * dy + dx) / (2 * dx))) ∧
    (dx < dy → ∀ i j, (i, j) ∈ linePixels x1 y1 x2 y2 ↔
      ∃ k, 0 ≤ k ∧ k ≤ dy ∧ j = y1 + sy * k ∧ i = x1 + sx * ((2 * k * dx + dy) / (2 * dy))) ∧
    (x1, y1) ∈ linePixels x1 y1 x2 y2 ∧ (x2, y2) ∈ linePixels x1 y1 x2 y2 ∧
    linePixels x1 y1 x1 y1 = [(x1, y1)] ∧
    (∀ i j, (i, j) ∈ linePixels x1 y1 x2 y1 ↔ min x1 x2 ≤ i ∧ i ≤ max x1 x2 ∧ j = y1) ∧
    (∀ i j, (i, j) ∈ linePixels x1 y1 x1 y2 ↔ i = x1 ∧ min y1 y2 ≤ j ∧ j ≤ max y1 y2)

/-- R139, R143: DRAW_TEXT colours the "on" pixels of its glyphs, glyph k in columns x + 8k to
x + 8k + 7, and leaves the "off" pixels. -/
def Obligations.DrawTextColoursItsGlyphs : Prop :=
  ∀ (x y : Half) (c : Bool) (text : List Byte) (s : State), s.life = .ready →
    LegalConfig s.cfg →
    Draws (fun i j => ∃ (k col row : Nat) (code : Byte), text[k]? = some code ∧ col < 8 ∧ row < 8 ∧
        glyph s.cfg code col row = true ∧ i = x.toInt + 8 * k + col ∧ j = y.toInt + row)
      c s (exec (.drawText x y c text) s)

/-- R140: BLIT sets the pixels under the "on" bits of its source and clears none. -/
def Obligations.BlitOrsItsSource : Prop :=
  ∀ (x y sw sh : Half) (src : List Byte) (s : State), s.life = .ready → LegalConfig s.cfg →
    Draws (fun i j => ∃ (sx sy : Nat) (b : Byte), sx < sw.toNat ∧ sy < sh.toNat ∧
        src[sy / 8 * sw.toNat + sx]? = some b ∧ b.getLsbD (sy % 8) = true ∧
        i = x.toInt + sx ∧ j = y.toInt + sy)
      true s (exec (.blit x y sw sh src) s)

/-- R144: SET_PIXEL then GET_PIXEL of the same in-range point answers `[1, c]`; after FILL every in-range
point answers the colour of the fill, and after SET_PIXEL of another point a point answers as before. -/
def Obligations.GetPixelReadsWhatWasWritten : Prop :=
  ∀ (x y x' y' : Half) (c : Bool) (s t u : State), s.life = .ready → LegalConfig s.cfg →
    InRange s.cfg x.toInt y.toInt →
    (exec (.setPixel x y c) s = .next t → exec (.getPixel x y) t = .next u →
      u.resp = t.resp ++ [[0x00, 0x01, if c then 0x01 else 0x00]]) ∧
    (exec (.fill c) s = .next t → exec (.getPixel x y) t = .next u →
      u.resp = t.resp ++ [[0x00, 0x01, if c then 0x01 else 0x00]]) ∧
    (exec (.setPixel x' y' c) s = .next t → (x', y') ≠ (x, y) →
      fbGet t x.toInt y.toInt = fbGet s x.toInt y.toInt)

/-- R145: FILL 1 then FILL 0 leaves every pixel 0, and FILL c leaves the same frame buffer whatever it
held before (frame buffers in canonical form, with no byte outside [0, P × W)). -/
def Obligations.FillForgetsTheOldContents : Prop :=
  ∀ (c : Bool) (s t u : State) (m : Memory), s.life = .ready → s.Inv → m.wf = true →
    (∀ e ∈ m, e.1 < s.cfg.h / 8 * s.cfg.w) →
    (exec (.fill true) s = .next t → exec (.fill false) t = .next u → u.fb = []) ∧
    (exec (.fill c) s = .next t → exec (.fill c) { s with fb := m } = .next u → u.fb = t.fb)

/-- R130, R146, R251: a frame-buffer or glyph operation past its checks completes, answers OK, and
changes only the frame buffer inside [0, P × W): not LIFE, the lines, WIRE or the bus. -/
def Obligations.DrawingKeepsEverythingElse : Prop :=
  ∀ (i : Instr) (s : State), i.port = .host → i ≠ .init → i ≠ .showBuffer →
    toggleBytes i = none → i ≠ .drawTextMax [] → s.life = .ready → s.Inv →
    ∃ t r, exec i s = .next t ∧
      t = { s with fb := t.fb, busy := false, resp := s.resp ++ [0x00 :: r] } ∧
      ∀ a, s.cfg.h / 8 * s.cfg.w ≤ a → t.fb.read a = Memory.blank

/-! ### Glyph operations -/

/-- R251, R250, R252: DRAW_SCALED_TEXT colours a scale × scale block for every "on" pixel of its strip, so
nothing for scale 0, and discards STRIP. -/
def Obligations.DrawScaledTextColoursBlocks : Prop :=
  ∀ (x y scale : Half) (c : Bool) (text : List Byte) (s : State), s.life = .ready →
    LegalConfig s.cfg → s.strip = none →
    Draws (fun i j => ∃ (k col row : Nat) (code : Byte), text[k]? = some code ∧ col < 8 ∧ row < 8 ∧
        glyph s.cfg code col row = true ∧
        x.toInt + (8 * k + col) * scale.toNat ≤ i ∧
        i < x.toInt + (8 * k + col) * scale.toNat + scale.toNat ∧
        y.toInt + row * scale.toNat ≤ j ∧ j < y.toInt + row * scale.toNat + scale.toNat)
      c s (exec (.drawScaledText x y scale c text) s)

/-- R253: DRAW_TEXT_MAX answers BAD_ARG for an empty text and else draws blocks of the largest scale that
fits at (0, 0) in colour 1. -/
def Obligations.DrawTextMaxDrawsAtTheLargestScale : Prop :=
  ∀ (text : List Byte) (s : State), s.life = .ready → LegalConfig s.cfg → s.strip = none →
    (text = [] →
      exec (.drawTextMax text) s = .next { s with busy := false, resp := s.resp ++ [[0x02]] }) ∧
    (text ≠ [] → ∀ scale : Nat, scale = min (s.cfg.w / (8 * text.length)) (s.cfg.h / 8) →
      Draws (fun i j => ∃ (k col row : Nat) (code : Byte), text[k]? = some code ∧ col < 8 ∧
          row < 8 ∧ glyph s.cfg code col row = true ∧
          (8 * k + col) * scale ≤ i ∧ i < (8 * k + col) * scale + scale ∧
          row * scale ≤ j ∧ j < row * scale + scale)
        true s (exec (.drawTextMax text) s))

/-- R255: DRAW_SCALED_TEXT with scale 1 has the same effect as DRAW_TEXT. -/
def Obligations.ScaleOneIsDrawText : Prop :=
  ∀ (x y : Half) (c : Bool) (text : List Byte) (s : State), s.strip = none →
    exec (.drawScaledText x y 1 c text) s = exec (.drawText x y c text) s

/-- R252: a scale of 0 leaves the frame buffer unchanged and answers OK, given to DRAW_SCALED_TEXT or
computed by DRAW_TEXT_MAX. -/
def Obligations.ScaleZeroDrawsNothing : Prop :=
  ∀ (x y : Half) (c : Bool) (text : List Byte) (s : State), s.life = .ready → s.Inv →
    exec (.drawScaledText x y 0 c text) s =
      .next { s with busy := false, resp := s.resp ++ [[0x00]] } ∧
    (text ≠ [] → s.cfg.w < 8 * text.length →
      exec (.drawTextMax text) s = .next { s with busy := false, resp := s.resp ++ [[0x00]] })

/-- R250: STRIP(col, row) is GLYPH(T[col div 8], col mod 8, row), and the strip is 8n columns wide. -/
def Obligations.StripHoldsTheGlyphs : Prop :=
  ∀ (c : Cfg) (text : List Byte), (renderStrip c text).length = 8 * text.length ∧
    ∀ (col row : Nat) (code : Byte), text[col / 8]? = some code → row < 8 →
      stripBit (renderStrip c text) col row = glyph c code (col % 8) row

/-! ### The sensor frame -/

/-- R270, R271: DECODE_FRAME answers the big-endian velocity of a 10-byte frame, low byte first, and "no
value" for any other length, in every lifecycle state, and changes nothing else. -/
def Obligations.DecodeFrameExtractsTheVelocity : Prop :=
  ∀ (s : State) (b0 b1 b2 b3 b4 b5 b6 b7 b8 b9 : Byte) (frame : List Byte),
    exec (.decodeFrame [b0, b1, b2, b3, b4, b5, b6, b7, b8, b9]) s =
      .next { s with
        busy := false
        resp := s.resp ++ [[0x00, 0x01,
          BitVec.ofNat 8 ((b5.toNat * 256 + b6.toNat) % 256),
          BitVec.ofNat 8 ((b5.toNat * 256 + b6.toNat) / 256)]] } ∧
    (frame.length ≠ 10 →
      exec (.decodeFrame frame) s =
        .next { s with busy := false, resp := s.resp ++ [[0x00, 0x00, 0x00, 0x00]] })

/-! ### Transport operations -/

/-- R221: the chunks of a byte list are its consecutive slices of C bytes, the last of 1 to C bytes, and
their concatenation is the list. -/
def Obligations.ChunksSliceThePayload : Prop :=
  ∀ (l : List Byte) (c : Nat), 1 ≤ c →
    (chunks l c).flatten = l ∧ (chunks l c).length = (l.length + c - 1) / c ∧
    (l = [] → chunks l c = []) ∧
    ∀ k d, (chunks l c)[k]? = some d →
      d = l.extract (k * c) (min ((k + 1) * c) l.length) ∧ 1 ≤ d.length ∧ d.length ≤ c ∧
      (k + 1 < (chunks l c).length → d.length = c)

/-- R226, R229, R222, R223: TP_CMD on bus-A is one transaction `[0x80, b]` to ADDR_A, with whatever outcome
the bus gives it; a transaction that is never answered leaves the block busy. -/
def Obligations.TpCmdOnBusA : Prop :=
  ∀ (b : Byte) (s : State), s.cfg.bus = .a →
    ∃ t, exec (.tpCmd b) s = .next t ∧
      Ran s t [.ax (BitVec.ofNat 7 s.cfg.addrA) [0x80, b] (busAnswer s 0)] 1 (busAnswer s 0) ∧
      t.life = s.life ∧ t.fb = s.fb ∧ t.resp = s.resp ∧
      t.busy = (s.busy || (busAnswer s 0).isNone) ∧
      (busAnswer s 0 = none → t.cmdBuf = (0x80, b) ∧ t.port = some (.tp false [b]))

/-- R230, R224: TP_CMD on bus-B drives CS to 1, DC to 0 and CS to 0, writes one byte, and drives CS to 1
only if the write was answered `ok`. -/
def Obligations.TpCmdOnBusB : Prop :=
  ∀ (b : Byte) (s : State), s.cfg.bus = .b →
    ∃ t, exec (.tpCmd b) s = .next t ∧
      Ran s t ([.bl .cs true, .bl .dc false, .bl .cs false, .bw [b] (busAnswer s 0)] ++
        if busAnswer s 0 = some .ok then [.bl .cs true] else []) 1 (busAnswer s 0) ∧
      t.life = s.life ∧ t.fb = s.fb ∧ t.resp = s.resp ∧
      t.busy = (s.busy || (busAnswer s 0).isNone) ∧
      (busAnswer s 0 = none → t.port = some (.tp false [b]))

/-- R227, R231, R232: TP_DATA on a bus that answers `ok` is one transaction per chunk, on bus-A each with
the control byte 0x40, on bus-B all inside one bracket with DC = 1; an empty payload makes none. -/
def Obligations.TpDataSendsTheChunks : Prop :=
  ∀ (l : List Byte) (s : State),
    (s.cfg.bus = .a → 1 ≤ s.cfg.chunkA → BusOk s (chunks l s.cfg.chunkA).length →
      ∃ t, exec (.tpData l) s = .next t ∧
        Ran s t ((chunks l s.cfg.chunkA).map (fun d =>
            .ax (BitVec.ofNat 7 s.cfg.addrA) (0x40 :: d) (some .ok)))
          (chunks l s.cfg.chunkA).length (some .ok) ∧
        t.life = s.life ∧ t.fb = s.fb ∧ t.resp = s.resp ∧ t.busy = s.busy ∧
        t.cmdBuf = s.cmdBuf) ∧
    (s.cfg.bus = .b → 1 ≤ s.cfg.chunkB → BusOk s (chunks l s.cfg.chunkB).length →
      ∃ t, exec (.tpData l) s = .next t ∧
        Ran s t ([.bl .cs true, .bl .dc true, .bl .cs false] ++
            (chunks l s.cfg.chunkB).map (fun d => .bw d (some .ok)) ++ [.bl .cs true])
          (chunks l s.cfg.chunkB).length (some .ok) ∧
        t.life = s.life ∧ t.fb = s.fb ∧ t.resp = s.resp ∧ t.busy = s.busy)

/-- R224, R223, R227, R231: TP_DATA stops with the first chunk that is not answered `ok`: it issues no
further transaction and no further line change, and on bus-B CS stays 0. -/
def Obligations.TpDataStopsAtTheFailedChunk : Prop :=
  ∀ (l : List Byte) (s : State) (k : Nat) (a : Answer), 1 ≤ chunkSize s.cfg →
    k < (chunks l (chunkSize s.cfg)).length → BusStops s k a →
    ∃ t, exec (.tpData l) s = .next t ∧
      Ran s t (cutEvents k a (okData s.cfg l)) (k + 1) a ∧
      t.life = s.life ∧ t.fb = s.fb ∧ t.resp = s.resp ∧ t.busy = (s.busy || a.isNone) ∧
      t.cmdBuf = s.cmdBuf ∧ 
      (s.cfg.bus = .b → t.lines = s.lines.map (fun ls => { ls with cs := false, dc := true })) ∧
      (a = none → t.port = some (.tp true l))

/-- R221, R172 and log entry 15: TP_DATA under a configuration with chunk size 0, for which R221 gives no
chunks, stops by name. -/
def Obligations.TpDataWithoutChunkSizeFaults : Prop :=
  ∀ (l : List Byte) (s : State),
    (s.cfg.bus = .a → s.cfg.chunkA = 0 → exec (.tpData l) s = .fault .zeroChunk) ∧
    (s.cfg.bus = .b → s.cfg.chunkB = 0 → exec (.tpData l) s = .fault .zeroChunk)

/-- R235: a 128-byte payload on bus-A with chunks of 16 is 8 transactions of 0x40 and 16 of its bytes; on
bus-B with chunks of 32 it is 4 writes of 32 of its bytes inside one bracket with DC = 1 throughout. -/
def Obligations.PageOf128BytesIsChunked : Prop :=
  ∀ (l : List Byte) (s t : State), l.length = 128 → exec (.tpData l) s = .next t →
    (s.cfg.bus = .a → s.cfg.chunkA = 16 → BusOk s 8 →
      ∃ ds : List (List Byte), ds.flatten = l ∧ ds.length = 8 ∧ (∀ d ∈ ds, d.length = 16) ∧
        t.wire = s.wire ++
          ds.map (fun d => .ax (BitVec.ofNat 7 s.cfg.addrA) (0x40 :: d) (some .ok))) ∧
    (s.cfg.bus = .b → s.cfg.chunkB = 32 → BusOk s 4 →
      ∃ ds : List (List Byte), ds.flatten = l ∧ ds.length = 4 ∧ (∀ d ∈ ds, d.length = 32) ∧
        t.wire = s.wire ++ [.bl .cs true, .bl .dc true, .bl .cs false] ++
          ds.map (fun d => .bw d (some .ok)) ++ [.bl .cs true])

/-- R318: on bus-B, whose lines exist (R29, an invariant of the block), a failed write leaves CS = 0, and
the first thing the next transport operation does is to drive CS to 1. -/
def Obligations.FailedBracketIsClosedNext : Prop :=
  ∀ (i i' : Instr) (s t u : State), i.port = .tp → i'.port = .tp → s.cfg.bus = .b →
    s.lines.isSome = true →
    exec i s = .next t → t.ret = some .fail → exec i' t = .next u →
    t.lines.map Lines.cs = some false ∧ ∃ es, u.wire = t.wire ++ .bl .cs true :: es

/-! ### Device commands -/

/-- R181, R190 to R206: a device command is sent as consecutive TP_CMDs, its command byte first and then
its operand bytes. -/
def Obligations.DeviceCommandsSendTheirBytes : Prop :=
  ∀ (i : Instr) (bytes : List Byte) (s : State), deviceBytes i = some bytes →
    BusOk s bytes.length →
    ∃ t, exec i s = .next t ∧ Ran s t (okCmds s.cfg bytes) bytes.length (some .ok) ∧
      t.life = s.life ∧ t.fb = s.fb ∧ t.resp = s.resp ∧ t.busy = s.busy

/-- R181, R224, R223: a device command stops at its first byte that is not answered `ok`. -/
def Obligations.DeviceCommandsStopAtAFailedByte : Prop :=
  ∀ (i : Instr) (bytes : List Byte) (s : State) (k : Nat) (a : Answer),
    deviceBytes i = some bytes → k < bytes.length → BusStops s k a →
    ∃ t, exec i s = .next t ∧ Ran s t (cutEvents k a (okCmds s.cfg bytes)) (k + 1) a ∧
      t.life = s.life ∧ t.fb = s.fb ∧ t.resp = s.resp ∧ t.busy = (s.busy || a.isNone)

/-! ### Controller operations -/

/-- R176 to R181: POWEROFF, POWERON, CONTRAST, INVERT and ROTATE send their command bytes and answer OK. The
bytes of INVERT and ROTATE rest on 92 D33, which the spec marks as its own choice (log entry 22). -/
def Obligations.TogglesSendTheirBytes : Prop :=
  ∀ (i : Instr) (bytes : List Byte) (s : State), toggleBytes i = some bytes → s.life = .ready →
    BusOk s bytes.length →
    ∃ t, exec i s = .next t ∧ Ran s t (okCmds s.cfg bytes) bytes.length (some .ok) ∧
      t.life = s.life ∧ t.fb = s.fb ∧ t.busy = false ∧ t.resp = s.resp ++ [[0x00]]

/-- R174, R223, R282: POWEROFF, POWERON, CONTRAST, INVERT and ROTATE stop at their first byte that is not
answered `ok`; LIFE stays READY and the frame buffer is kept; a failure answers BUS_FAIL and a stall
nothing. -/
def Obligations.TogglesStopAtAFailedByte : Prop :=
  ∀ (i : Instr) (bytes : List Byte) (s : State) (k : Nat) (a : Answer),
    toggleBytes i = some bytes → s.life = .ready → k < bytes.length → BusStops s k a →
    ∃ t, exec i s = .next t ∧ Ran s t (cutEvents k a (okCmds s.cfg bytes)) (k + 1) a ∧
      t.life = .ready ∧ t.fb = s.fb ∧ Stopped s t a

/-- R173, R175, R316: SHOW sends the whole frame buffer, pages in increasing order, for each the page
address, the column address and the page's W bytes, and answers OK. -/
def Obligations.ShowFlushesEveryPage : Prop :=
  ∀ (s : State) (flushed : List WireEvent), s.life = .ready → LegalConfig s.cfg →
    flushed = okFlush s.cfg (fun p => (List.range s.cfg.w).map (fun k => s.fb.read (p * s.cfg.w + k))) →
    BusOk s (transactions flushed) →
    ∃ t, exec .showBuffer s = .next t ∧ Ran s t flushed (transactions flushed) (some .ok) ∧
      t.life = s.life ∧ t.fb = s.fb ∧ t.busy = false ∧ t.resp = s.resp ++ [[0x00]]

/-- R174, R175, R223, R282: SHOW stops at the first transaction that is not answered `ok`; what comes after
it is not sent, LIFE stays READY and the frame buffer is kept. -/
def Obligations.ShowStopsAtAFailedTransaction : Prop :=
  ∀ (s : State) (flushed : List WireEvent) (k : Nat) (a : Answer), s.life = .ready →
    LegalConfig s.cfg →
    flushed = okFlush s.cfg (fun p => (List.range s.cfg.w).map (fun k => s.fb.read (p * s.cfg.w + k))) →
    k < transactions flushed → BusStops s k a →
    ∃ t, exec .showBuffer s = .next t ∧ Ran s t (cutEvents k a flushed) (k + 1) a ∧
      t.life = .ready ∧ t.fb = s.fb ∧ Stopped s t a

/-- R170, R171, R233, R173, R312: INIT on a bus that answers `ok` makes the reset pulse (bus-B), sends the
25 bytes of the initialization sequence, clears the frame buffer and flushes it, sets LIFE = READY and
answers OK. -/
def Obligations.InitBringsTheBlockUp : Prop :=
  ∀ (s : State), s.life = .uninit → LegalConfig s.cfg → BusOk s (transactions (okInit s.cfg)) →
    ∃ t, exec .init s = .next t ∧
      Ran s t (okInit s.cfg) (transactions (okInit s.cfg)) (some .ok) ∧
      t.life = .ready ∧ t.busy = false ∧ t.resp = s.resp ++ [[0x00]] ∧
      ∀ a, t.fb.read a = if a < s.cfg.h / 8 * s.cfg.w then 0x00 else s.fb.read a

/-- R170, R223, R282: INIT stops at the first transaction that is not answered `ok`: a failure leaves
LIFE = FAILED and answers BUS_FAIL, a stall leaves LIFE = UNINIT and answers nothing. -/
def Obligations.InitStopsAtAFailedTransaction : Prop :=
  ∀ (s : State) (k : Nat) (a : Answer), s.life = .uninit → LegalConfig s.cfg →
    k < transactions (okInit s.cfg) → BusStops s k a →
    ∃ t, exec .init s = .next t ∧ Ran s t (cutEvents k a (okInit s.cfg)) (k + 1) a ∧
      Stopped s t a ∧ (a = some .fail → t.life = .failed) ∧ (a = none → t.life = .uninit) ∧
      ∀ i, s.cfg.h / 8 * s.cfg.w ≤ i → t.fb.read i = s.fb.read i

/-- R183: with W = 128 and H = 32 a SHOW on a bus that answers `ok` makes 56 events on bus-A with chunks of
16 and 152 events on bus-B with chunks of 32. -/
def Obligations.ShowOfTheDefaultDisplayCounts : Prop :=
  ∀ (s t : State), s.life = .ready → s.cfg.w = 128 → s.cfg.h = 32 → exec .showBuffer s = .next t →
    (s.cfg.bus = .a → s.cfg.chunkA = 16 → BusOk s 56 → t.wire.length = s.wire.length + 56) ∧
    (s.cfg.bus = .b → s.cfg.chunkB = 32 → BusOk s 40 → t.wire.length = s.wire.length + 152)

/-- R174, R182, R26: no operation but INIT that uses the bus changes the frame buffer, LIFE or the
configuration, whatever the bus answers. -/
def Obligations.BusOperationsKeepFrameBufferAndLife : Prop :=
  ∀ (i : Instr) (s t : State), (i = .showBuffer ∨ toggleBytes i ≠ none ∨ i.port ≠ .host) →
    exec i s = .next t →
    t.fb = s.fb ∧ t.life = s.life ∧ t.cfg = s.cfg ∧ t.strip = s.strip ∧ t.inbox = s.inbox

/-! ### Whole-machine rules -/

/-- The invariant holds in the state after reset. -/
def Obligations.ResetStateMeetsTheInvariant : Prop := State.reset.Inv

/-- R28, R29, R33, R75, R146, R172: every step keeps the invariant: the frame buffer stays in canonical
form inside [0, P × W), the bus-B lines exist on bus-B and not on bus-A, no STRIP outlives its request, READY needs a legal configuration, and at most one
transaction is in flight. -/
def Obligations.StepKeepsTheInvariant : Prop :=
  ∀ (s t : State), s.Inv → step s = .next t → t.Inv

/-- R30: a step only appends events to WIRE; nothing ever removes or rewrites one. -/
def Obligations.WireOnlyGrows : Prop :=
  ∀ (s t : State), step s = .next t → ∃ es, t.wire = s.wire ++ es

/-- R27, R21, R314: a step that changes LIFE is a reset, which appends RST and leaves UNINIT, or an INIT
request served in UNINIT; so nothing but reset leaves FAILED. A step that changes the configuration
is a reset. -/
def Obligations.OnlyInitAndResetChangeLife : Prop :=
  ∀ (s t : State), step s = .next t →
    (t.life ≠ s.life →
      (t.life = .uninit ∧ ∃ es, t.wire = s.wire ++ es ++ [.rst]) ∨
      (s.life = .uninit ∧ ∃ rest, s.inbox = .request 0x10 [] :: rest)) ∧
    (t.cfg ≠ s.cfg → t.life = .uninit ∧ ∃ es, t.wire = s.wire ++ es ++ [.rst])

/-- R101: on bus-A every event a step makes is RST or one transaction to ADDR_A, either `[0x80, cmd]` or
0x40 and 1 to CHUNK_A data bytes. -/
def Obligations.BusAWireFormat : Prop :=
  ∀ (s t : State), s.cfg.bus = .a → step s = .next t →
    ∃ es, t.wire = s.wire ++ es ∧ ∀ e ∈ es, e = .rst ∨
      ∃ bytes out, e = .ax (BitVec.ofNat 7 s.cfg.addrA) bytes out ∧
        ((∃ cmd, bytes = [0x80, cmd]) ∨
          ∃ d, bytes = 0x40 :: d ∧ 1 ≤ d.length ∧ d.length ≤ s.cfg.chunkA)

/-- R102: on bus-B every event a step makes is RST, a line change, or a write of one byte or of 1 to
CHUNK_B bytes. -/
def Obligations.BusBWireFormat : Prop :=
  ∀ (s t : State), s.cfg.bus = .b → step s = .next t →
    ∃ es, t.wire = s.wire ++ es ∧ ∀ e ∈ es, e = .rst ∨ (∃ l v, e = .bl l v) ∨
      ∃ bytes out, e = .bw bytes out ∧
        (bytes.length = 1 ∨ (1 ≤ bytes.length ∧ bytes.length ≤ s.cfg.chunkB))

/-- R96, R280, R283: a step that serves a host request produces exactly one response, with a status of 0
to 6 and a result only with status 0; or it stalls, produces none and stays busy. -/
def Obligations.OneResponsePerRequest : Prop :=
  ∀ (s t : State) (op : Byte) (args : List Byte) (rest : List HostEvent), Idle s →
    s.inbox = .request op args :: rest → step s = .next t →
    t.inbox = rest ∧
    (t.busy = false → ∃ st result, t.resp = s.resp ++ [st :: result] ∧ st.toNat ≤ 6 ∧
      (st ≠ 0 → result = [])) ∧
    (t.busy = true → t.resp = s.resp)

/-- R28, 92 D43: while the block is not READY the contents of the frame buffer make no difference to a
step, and when the step brings the block up the frame buffer no longer depends on them. -/
def Obligations.FrameBufferIsUnobservableBeforeInit : Prop :=
  ∀ (s t : State) (m : Memory), s.life ≠ .ready → step s = .next t →
    ∃ m', step { s with fb := m } = .next { t with fb := m' } ∧
      (t.life = .ready → ∀ a, a < t.cfg.h / 8 * t.cfg.w → m'.read a = t.fb.read a)

/-- R64, R68, R131: MemRead gives the bytes of consecutive indices in order; MemWrite writes them, so that
MemRead reads them back, changes no other byte and keeps the canonical form; FILL writes the P × W bytes
of the frame buffer, one MemWrite of equal bytes. That MemWrite's v is the list of the n bytes is the
model's reading (log entry 24). -/
def Obligations.MemReadReadsWhatMemWriteWrote : Prop :=
  ∀ (m : Memory) (i n : Nat) (v : List Byte) (c : Bool) (s t : State),
    (memRead m i n).length = n ∧ (∀ k, k < n → (memRead m i n)[k]? = some (m.read (i + k))) ∧
    memRead (memWrite m i v) i v.length = v ∧
    (∀ a, a < i ∨ i + v.length ≤ a → (memWrite m i v).read a = m.read a) ∧
    (m.wf = true → (memWrite m i v).wf = true) ∧
    (s.life = .ready → s.fb.wf = true → exec (.fill c) s = .next t →
      t.fb = memWrite s.fb 0 (List.replicate (s.cfg.h / 8 * s.cfg.w) (if c then 0xFF else 0x00)))
end

