-- ==== Sys2Proof/Laws/Decode.lean ====
section
/-! SUPPORT. The fields of an encoding and their bytes, each the inverse of the other, and that no two
rows of an opcode table claim the same byte (spec/30_encoding.md R91, R92, R99, R103). -/

namespace Sys2Proof

theorem half_toNat (lo hi : Byte) : (half lo hi).toNat = hi.toNat * 256 + lo.toNat := by
  have := lo.isLt
  simp only [half, BitVec.toNat_append]
  rw [Nat.shiftLeft_eq, Nat.mul_comm, ← Nat.two_pow_add_eq_or_of_lt this]

theorem loByte_toNat (v : Half) : (loByte v).toNat = v.toNat % 256 := by
  simp [loByte]

theorem hiByte_toNat (v : Half) : (hiByte v).toNat = v.toNat / 256 := by
  have := v.isLt
  simp only [hiByte, BitVec.extractLsb'_toNat, Nat.shiftRight_eq_div_pow]
  omega

@[simp] theorem half_bytes (v : Half) : half (loByte v) (hiByte v) = v := by
  apply BitVec.eq_of_toNat_eq
  rw [half_toNat, loByte_toNat, hiByte_toNat]
  omega

@[simp] theorem loByte_half (lo hi : Byte) : loByte (half lo hi) = lo := by
  apply BitVec.eq_of_toNat_eq
  have := lo.isLt
  rw [loByte_toNat, half_toNat]
  omega

@[simp] theorem hiByte_half (lo hi : Byte) : hiByte (half lo hi) = hi := by
  apply BitVec.eq_of_toNat_eq
  have := lo.isLt
  rw [hiByte_toNat, half_toNat]
  omega

theorem halfBytes_half (lo hi : Byte) : halfBytes (half lo hi) = [lo, hi] := by
  simp [halfBytes]

/-- A `c1` byte that the encoder writes reads back. -/
@[simp] theorem readFlag_flagByte (c : Bool) (k : Bool → Instr) :
    readFlag (flagByte c) k = .ok (k c) := by
  cases c <;> rfl

/-- A `c1` byte is read only if it is 0 or 1, and then it is the byte the encoder writes (R94). -/
theorem readFlag_eq_ok {b : Byte} {k : Bool → Instr} {i : Instr} (h : readFlag b k = .ok i) :
    ∃ c, flagByte c = b ∧ k c = i := by
  unfold readFlag at h
  split at h
  next hb => exact ⟨false, hb.symm, by simpa using h⟩
  next =>
    split at h
    next hb => exact ⟨true, hb.symm, by simpa using h⟩
    next => simp at h

theorem lenByte_toNat {n : Nat} (h : n ≤ 255) : (lenByte n).toNat = n := by
  simp only [lenByte, BitVec.toNat_ofNat]
  omega

@[simp] theorem lenByte_of_toNat (b : Byte) : lenByte b.toNat = b := by
  simp [lenByte]

/-- Well-formedness as two conditions: the operands, and the length of a host request (R94). -/
theorem Instr.wf_iff {maxReq : Nat} {i : Instr} :
    i.wf maxReq = true ↔ i.operandsOk = true ∧ (i.port = .host → i.size ≤ maxReq) := by
  simp only [Instr.wf, Bool.and_eq_true, Bool.or_eq_true, decide_eq_true_eq, bne_iff_ne,
    ← imp_iff_not_or]

/-! ### The opcode tables -/

/-- No two rows of the host opcode map have the same opcode (R92). -/
theorem hostOpcodes_nodup : (hostOpcodes.map Prod.fst).Nodup := by decide

/-- No byte is claimed by two rows of the device command table (R103). -/
theorem devCommands_disjoint :
    devCommands.Pairwise (fun r q => (r.1 &&& q.1) &&& r.2.1 ≠ (r.1 &&& q.1) &&& q.2.1) := by decide

/-- A host opcode selects the row it stands in. -/
theorem hostOp_eq_some {op : Byte} {o : HostOp} : hostOp op = some o ↔ (op, o) ∈ hostOpcodes := by
  constructor
  · intro h
    simp only [hostOp, Option.map_eq_some_iff] at h
    obtain ⟨r, hr, rfl⟩ := h
    have hp : r.1 = op := by simpa using List.find?_some hr
    exact hp ▸ List.mem_of_find?_eq_some hr
  · have rows : ∀ r ∈ hostOpcodes, hostOp r.1 = some r.2 := by decide
    exact rows (op, o)

end Sys2Proof
end

