-- ==== Sys2Proof/Laws/Memory.lean ====
section
/-! SUPPORT. The frame buffer as a map from indices to bytes: read after write, what a write leaves
alone, and that every operation keeps the canonical form. -/

namespace Sys2Proof.Machine

theorem Memory.wf_iff (m : Memory) :
    m.wf = true ↔ m.Pairwise (fun c d => c.1 < d.1) ∧ ∀ c ∈ m, c.2 ≠ Memory.blank := by
  simp [Memory.wf]

@[simp] theorem Memory.read_nil (a : Nat) : Memory.read [] a = Memory.blank := rfl

theorem Memory.read_cons (b : Nat) (v : Byte) (m : Memory) (a : Nat) :
    Memory.read ((b, v) :: m) a = if a = b then v else Memory.read m a := rfl

/-- An index that no cell has reads as an unlisted one. -/
theorem Memory.read_of_unlisted {m : Memory} {a : Nat} (h : ∀ c ∈ m, c.1 ≠ a) :
    m.read a = Memory.blank := by
  induction m with
  | nil => rfl
  | cons c m ih =>
    obtain ⟨b, v⟩ := c
    have hb : b ≠ a := h (b, v) (by simp)
    rw [Memory.read_cons, if_neg (fun e => hb e.symm)]
    exact ih (fun c hc => h c (by simp [hc]))

theorem Memory.read_append (m n : Memory) (a : Nat) (h : ∀ c ∈ m, c.1 ≠ a) :
    Memory.read (m ++ n) a = Memory.read n a := by
  induction m with
  | nil => rfl
  | cons c m ih =>
    obtain ⟨b, v⟩ := c
    have hb : b ≠ a := h (b, v) (by simp)
    rw [List.cons_append, Memory.read_cons, if_neg (fun e => hb e.symm)]
    exact ih (fun c hc => h c (by simp [hc]))

theorem Memory.read_append_left (m n : Memory) (a : Nat) (h : ∀ c ∈ n, c.1 ≠ a) :
    Memory.read (m ++ n) a = Memory.read m a := by
  induction m with
  | nil => simpa using Memory.read_of_unlisted h
  | cons c m ih =>
    obtain ⟨b, v⟩ := c
    rw [List.cons_append, Memory.read_cons, Memory.read_cons, ih]

/-- Dropping the cells whose index fails a test does not change the others. -/
theorem Memory.read_filter (m : Memory) (p : Nat → Bool) (a : Nat) :
    Memory.read (m.filter (fun c => p c.1)) a = if p a then m.read a else Memory.blank := by
  induction m with
  | nil => simp
  | cons c m ih =>
    obtain ⟨b, v⟩ := c
    by_cases hb : p b
    · simp only [List.filter_cons, hb, if_true, Memory.read_cons, ih]
      by_cases hab : a = b
      · simp [hab, hb]
      · simp [hab]
    · simp only [List.filter_cons, hb, Memory.read_cons]
      rw [if_neg (by simp), ih]
      by_cases hab : a = b
      · simp [hab, hb]
      · simp [hab]

theorem Memory.read_insert (m : Memory) (a : Nat) (v : Byte) (h : ∀ c ∈ m, c.1 ≠ a) (b : Nat) :
    Memory.read (Memory.insert a v m) b = if b = a then v else m.read b := by
  induction m with
  | nil => simp [Memory.insert, Memory.read_cons]
  | cons c m ih =>
    obtain ⟨k, w⟩ := c
    have hk : k ≠ a := h (k, w) (by simp)
    unfold Memory.insert
    split
    · simp [Memory.read_cons]
    · rw [Memory.read_cons, Memory.read_cons, ih (fun c hc => h c (by simp [hc]))]
      by_cases hbk : b = k
      · have hba : b ≠ a := fun e => hk (by rw [← hbk, e])
        simp [hbk, hk]
      · simp [hbk]

/-- Read after write: the index written holds the byte, every other index is as before. No canonical
form is needed. -/
@[simp] theorem Memory.read_write (m : Memory) (a : Nat) (v : Byte) (b : Nat) :
    (m.write a v).read b = if b = a then v else m.read b := by
  have hun : ∀ c ∈ m.filter (fun c => c.1 != a), c.1 ≠ a := by
    intro c hc; simpa using (List.mem_filter.mp hc).2
  have hf : Memory.read (m.filter (fun c => c.1 != a)) b = if b = a then Memory.blank else m.read b := by
    have := Memory.read_filter m (fun k => k != a) b
    rw [this]
    by_cases h : b = a <;> simp [h]
  unfold Memory.write
  split
  next hv => rw [hf, hv]
  next => rw [Memory.read_insert _ _ _ hun, hf]; split <;> rfl

theorem Memory.mem_insert {m : Memory} {a : Nat} {v : Byte} {c : Host.Cell} :
    c ∈ Memory.insert a v m ↔ c = (a, v) ∨ c ∈ m := by
  induction m with
  | nil => simp [Memory.insert]
  | cons d m ih =>
    unfold Memory.insert
    split
    · simp
    · simp only [List.mem_cons, ih]
      constructor
      · rintro (h | h | h) <;> simp [h]
      · rintro (h | h | h) <;> simp [h]

theorem Memory.pairwise_insert {m : Memory} {a : Nat} {v : Byte}
    (hm : m.Pairwise (fun c d => c.1 < d.1)) (ha : ∀ c ∈ m, c.1 ≠ a) :
    (Memory.insert a v m).Pairwise (fun c d => c.1 < d.1) := by
  induction m with
  | nil => simp [Memory.insert]
  | cons d m ih =>
    obtain ⟨k, w⟩ := d
    have hd := List.pairwise_cons.mp hm
    have hk : k ≠ a := ha (k, w) (by simp)
    unfold Memory.insert
    split
    next hlt =>
      refine List.pairwise_cons.mpr ⟨?_, hm⟩
      intro c hc
      rcases List.mem_cons.mp hc with rfl | hc
      · exact hlt
      · exact Nat.lt_trans hlt (hd.1 c hc)
    next hge =>
      refine List.pairwise_cons.mpr ⟨?_, ih hd.2 (fun c hc => ha c (by simp [hc]))⟩
      intro c hc
      rcases Memory.mem_insert.mp hc with rfl | hc
      · show k < a
        omega
      · exact hd.1 c hc

/-- A write keeps the canonical form. -/
theorem Memory.wf_write {m : Memory} (h : m.wf = true) (a : Nat) (v : Byte) :
    (m.write a v).wf = true := by
  rw [Memory.wf_iff] at h ⊢
  have hp : (m.filter (fun c => c.1 != a)).Pairwise (fun c d => c.1 < d.1) :=
    h.1.sublist List.filter_sublist
  have hn : ∀ c ∈ m.filter (fun c => c.1 != a), c.2 ≠ Memory.blank :=
    fun c hc => h.2 c (List.mem_filter.mp hc).1
  unfold Memory.write
  split
  · exact ⟨hp, hn⟩
  next hv =>
    refine ⟨Memory.pairwise_insert hp (fun c hc => by simpa using (List.mem_filter.mp hc).2), ?_⟩
    intro c hc
    rcases Memory.mem_insert.mp hc with rfl | hc
    · exact hv
    · exact hn c hc

/-- A write lists only indices that were listed and the one written. -/
theorem Memory.mem_write {m : Memory} {a : Nat} {v : Byte} {c : Host.Cell}
    (h : c ∈ m.write a v) : c ∈ m ∨ c.1 = a := by
  unfold Memory.write at h
  split at h
  · exact .inl (List.mem_filter.mp h).1
  · rcases Memory.mem_insert.mp h with rfl | h
    · exact .inr rfl
    · exact .inl (List.mem_filter.mp h).1

theorem Memory.cell_eq_some {a : Nat} {v : Byte} {c : Host.Cell} :
    Memory.cell a v = some c ↔ v ≠ Memory.blank ∧ c = (a, v) := by
  unfold Memory.cell
  split <;> simp_all [eq_comm]

theorem Memory.mem_remake {m : Memory} {n : Nat} {g : Nat → Byte} {c : Host.Cell} :
    c ∈ m.remake n g ↔
      (c.1 < n ∧ g c.1 ≠ Memory.blank ∧ c.2 = g c.1) ∨ (c ∈ m ∧ n ≤ c.1) := by
  obtain ⟨a, v⟩ := c
  simp only [Memory.remake, List.mem_append, List.mem_filterMap, List.mem_range,
    Memory.cell_eq_some, List.mem_filter, decide_eq_true_eq, Prod.mk.injEq]
  constructor
  · rintro (⟨i, hi, hv, rfl, rfl⟩ | h)
    · exact .inl ⟨hi, hv, rfl⟩
    · exact .inr h
  · rintro (⟨hi, hv, rfl⟩ | h)
    · exact .inl ⟨a, hi, hv, rfl, rfl⟩
    · exact .inr h

/-- The listed cells of the first n indices, read back. -/
theorem Memory.read_cells (n : Nat) (g : Nat → Byte) (a : Nat) :
    Memory.read ((List.range n).filterMap (fun i => Memory.cell i (g i))) a =
      if a < n then g a else Memory.blank := by
  induction n with
  | zero => simp
  | succ n ih =>
    rw [List.range_succ, List.filterMap_append]
    by_cases han : a = n
    · subst han
      rw [Memory.read_append]
      · by_cases hv : g a = Memory.blank <;> simp [Memory.cell, hv, Memory.read_cons]
      · intro c hc
        simp only [List.mem_filterMap, List.mem_range, Memory.cell_eq_some] at hc
        obtain ⟨i, hi, _, rfl⟩ := hc
        exact Nat.ne_of_lt hi
    · rw [Memory.read_append_left, ih]
      · have : a < n + 1 ↔ a < n := by omega
        simp [this]
      · intro c hc
        simp only [List.mem_filterMap, List.mem_singleton, Memory.cell_eq_some] at hc
        obtain ⟨i, rfl, _, rfl⟩ := hc
        exact fun e => han e.symm

/-- `remake` writes the first n bytes and leaves every other byte alone. -/
@[simp] theorem Memory.read_remake (n : Nat) (g : Nat → Byte) (m : Memory) (a : Nat) :
    (m.remake n g).read a = if a < n then g a else m.read a := by
  unfold Memory.remake
  have hf := Memory.read_filter m (fun k => decide (n ≤ k)) a
  by_cases ha : a < n
  · rw [Memory.read_append_left, Memory.read_cells]
    · simp [ha]
    · intro c hc
      have := (List.mem_filter.mp hc).2
      simp only [decide_eq_true_eq] at this
      omega
  · rw [Memory.read_append, hf]
    · simp [ha, Nat.le_of_not_lt ha]
    · intro c hc
      simp only [List.mem_filterMap, List.mem_range, Memory.cell_eq_some] at hc
      obtain ⟨i, hi, _, rfl⟩ := hc
      show i ≠ a
      omega

/-- `remake` keeps the canonical form. -/
theorem Memory.wf_remake {m : Memory} (h : m.wf = true) (n : Nat) (g : Nat → Byte) :
    (m.remake n g).wf = true := by
  rw [Memory.wf_iff] at h ⊢
  refine ⟨?_, ?_⟩
  · refine List.pairwise_append.mpr ⟨?_, h.1.sublist List.filter_sublist, ?_⟩
    · refine List.Pairwise.filterMap _ ?_ (List.pairwise_lt_range (n := n))
      intro a b hab c hc d hd
      simp only [Memory.cell_eq_some] at hc hd
      rw [hc.2, hd.2]
      exact hab
    · intro c hc d hd
      simp only [List.mem_filterMap, List.mem_range, Memory.cell_eq_some] at hc
      obtain ⟨i, hi, _, rfl⟩ := hc
      have := (List.mem_filter.mp hd).2
      simp only [decide_eq_true_eq] at this
      show i < d.1
      omega
  · intro c hc
    rcases Memory.mem_remake.mp hc with ⟨_, hv, he⟩ | ⟨hc, _⟩
    · rw [he]; exact hv
    · exact h.2 c hc

/-! ### Whole-byte accesses (R64) -/

/-- `memWrite` writes the bytes of the list at consecutive indices and no other byte. -/
theorem memWrite_read (m : Memory) (i : Nat) (vs : List Byte) (a : Nat) :
    (memWrite m i vs).read a =
      if i ≤ a ∧ a < i + vs.length then vs.getD (a - i) 0 else m.read a := by
  induction vs generalizing m i with
  | nil => rw [if_neg (by simp)]; rfl
  | cons v vs ih =>
    rw [memWrite, ih, Memory.read_write, List.length_cons]
    by_cases hi : a = i
    · subst hi
      simp
    · by_cases ha : i ≤ a
      · obtain ⟨d, rfl⟩ : ∃ d, a = i + 1 + d := ⟨a - (i + 1), by omega⟩
        rw [show i + 1 + d - i = d + 1 by omega, show i + 1 + d - (i + 1) = d by omega, if_neg hi,
          List.getD_cons_succ]
        simp only [show (i + 1 ≤ i + 1 + d ∧ i + 1 + d < i + 1 + vs.length) ↔
          (i ≤ i + 1 + d ∧ i + 1 + d < i + (vs.length + 1)) by omega]
      · rw [if_neg (by omega), if_neg hi, if_neg (by omega)]

/-- `memWrite` keeps the canonical form. -/
theorem memWrite_wf {m : Memory} (h : m.wf = true) (i : Nat) (vs : List Byte) :
    (memWrite m i vs).wf = true := by
  induction vs generalizing m i with
  | nil => exact h
  | cons v vs ih => exact ih (Memory.wf_write h i v) (i + 1)

/-- In canonical form two frame buffers that read the same are the same. -/
theorem Memory.ext_of_wf {m n : Memory} (hm : m.wf = true) (hn : n.wf = true)
    (h : ∀ a, m.read a = n.read a) : m = n := by
  rw [Memory.wf_iff] at hm hn
  have key : ∀ {k : Memory}, k.Pairwise (fun c d => c.1 < d.1) → (∀ c ∈ k, c.2 ≠ Memory.blank) →
      ∀ a v, (a, v) ∈ k ↔ v ≠ Memory.blank ∧ k.read a = v := by
    intro k hp hb a v
    induction k with
    | nil => simp [eq_comm]
    | cons c k ih =>
      obtain ⟨b, w⟩ := c
      have hd := List.pairwise_cons.mp hp
      have ih := ih hd.2 (fun c hc => hb c (by simp [hc]))
      have hw : w ≠ Memory.blank := hb (b, w) (by simp)
      rw [List.mem_cons, Memory.read_cons]
      by_cases hab : a = b
      · subst hab
        constructor
        · rintro (e | hmem)
          · simp only [Prod.mk.injEq, true_and] at e; subst e; exact ⟨hw, by simp⟩
          · exact absurd (hd.1 (a, v) hmem) (Nat.lt_irrefl a)
        · rintro ⟨_, e⟩; simp only [if_true] at e; subst e; exact .inl rfl
      · simp only [if_neg hab]
        constructor
        · rintro (e | hmem)
          · simp only [Prod.mk.injEq] at e; exact absurd e.1 hab
          · exact ih.mp hmem
        · intro e; exact .inr (ih.mpr e)
  refine List.Perm.eq_of_pairwise (le := fun c d => c.1 < d.1) ?_ hm.1 hn.1 ?_
  · intro a b _ _ h1 h2; omega
  · refine (List.perm_ext_iff_of_nodup ?_ ?_).mpr ?_
    · exact hm.1.imp (fun hlt e => by subst e; omega)
    · exact hn.1.imp (fun hlt e => by subst e; omega)
    · rintro ⟨a, v⟩
      rw [key hm.1 hm.2, key hn.1 hn.2, h a]

end Sys2Proof.Machine
end

