-- ==== Sys2Proof/Laws/State.lean ====
section
/-! SUPPORT. What each update of the state does to each field, so that no proof unfolds a record
update. -/

namespace Sys2Proof.Machine

/-! ### respond -/

@[simp] theorem respond_cfg (st : Status) (r : List Byte) (s : State) :
    (respond st r s).cfg = s.cfg := rfl

@[simp] theorem respond_life (st : Status) (r : List Byte) (s : State) :
    (respond st r s).life = s.life := rfl

@[simp] theorem respond_fb (st : Status) (r : List Byte) (s : State) :
    (respond st r s).fb = s.fb := rfl

@[simp] theorem respond_lines (st : Status) (r : List Byte) (s : State) :
    (respond st r s).lines = s.lines := rfl

@[simp] theorem respond_wire (st : Status) (r : List Byte) (s : State) :
    (respond st r s).wire = s.wire := rfl

@[simp] theorem respond_busy (st : Status) (r : List Byte) (s : State) :
    (respond st r s).busy = false := rfl

@[simp] theorem respond_cmdBuf (st : Status) (r : List Byte) (s : State) :
    (respond st r s).cmdBuf = s.cmdBuf := rfl

@[simp] theorem respond_strip (st : Status) (r : List Byte) (s : State) :
    (respond st r s).strip = s.strip := rfl

@[simp] theorem respond_port (st : Status) (r : List Byte) (s : State) :
    (respond st r s).port = s.port := rfl

@[simp] theorem respond_ret (st : Status) (r : List Byte) (s : State) :
    (respond st r s).ret = s.ret := rfl

@[simp] theorem respond_inbox (st : Status) (r : List Byte) (s : State) :
    (respond st r s).inbox = s.inbox := rfl

@[simp] theorem respond_resp (st : Status) (r : List Byte) (s : State) :
    (respond st r s).resp = s.resp ++ [statusByte st :: r] := rfl

@[simp] theorem respond_script (st : Status) (r : List Byte) (s : State) :
    (respond st r s).script = s.script := rfl

@[simp] theorem respond_asked (st : Status) (r : List Byte) (s : State) :
    (respond st r s).asked = s.asked := rfl

/-! ### raiseStatus -/

@[simp] theorem raiseStatus_cfg (st : Status) (s : State) :
    (raiseStatus st s).cfg = s.cfg := rfl

@[simp] theorem raiseStatus_life (st : Status) (s : State) :
    (raiseStatus st s).life = s.life := rfl

@[simp] theorem raiseStatus_fb (st : Status) (s : State) :
    (raiseStatus st s).fb = s.fb := rfl

@[simp] theorem raiseStatus_lines (st : Status) (s : State) :
    (raiseStatus st s).lines = s.lines := rfl

@[simp] theorem raiseStatus_wire (st : Status) (s : State) :
    (raiseStatus st s).wire = s.wire := rfl

@[simp] theorem raiseStatus_busy (st : Status) (s : State) :
    (raiseStatus st s).busy = false := rfl

@[simp] theorem raiseStatus_cmdBuf (st : Status) (s : State) :
    (raiseStatus st s).cmdBuf = s.cmdBuf := rfl

@[simp] theorem raiseStatus_strip (st : Status) (s : State) :
    (raiseStatus st s).strip = s.strip := rfl

@[simp] theorem raiseStatus_port (st : Status) (s : State) :
    (raiseStatus st s).port = s.port := rfl

@[simp] theorem raiseStatus_ret (st : Status) (s : State) :
    (raiseStatus st s).ret = s.ret := rfl

@[simp] theorem raiseStatus_inbox (st : Status) (s : State) :
    (raiseStatus st s).inbox = s.inbox := rfl

@[simp] theorem raiseStatus_resp (st : Status) (s : State) :
    (raiseStatus st s).resp = s.resp ++ [[statusByte st]] := rfl

@[simp] theorem raiseStatus_script (st : Status) (s : State) :
    (raiseStatus st s).script = s.script := rfl

@[simp] theorem raiseStatus_asked (st : Status) (s : State) :
    (raiseStatus st s).asked = s.asked := rfl

/-! ### emit -/

@[simp] theorem emit_cfg (e : WireEvent) (s : State) :
    (emit e s).cfg = s.cfg := rfl

@[simp] theorem emit_life (e : WireEvent) (s : State) :
    (emit e s).life = s.life := rfl

@[simp] theorem emit_fb (e : WireEvent) (s : State) :
    (emit e s).fb = s.fb := rfl

@[simp] theorem emit_lines (e : WireEvent) (s : State) :
    (emit e s).lines = s.lines := rfl

@[simp] theorem emit_wire (e : WireEvent) (s : State) :
    (emit e s).wire = s.wire ++ [e] := rfl

@[simp] theorem emit_busy (e : WireEvent) (s : State) :
    (emit e s).busy = s.busy := rfl

@[simp] theorem emit_cmdBuf (e : WireEvent) (s : State) :
    (emit e s).cmdBuf = s.cmdBuf := rfl

@[simp] theorem emit_strip (e : WireEvent) (s : State) :
    (emit e s).strip = s.strip := rfl

@[simp] theorem emit_port (e : WireEvent) (s : State) :
    (emit e s).port = s.port := rfl

@[simp] theorem emit_ret (e : WireEvent) (s : State) :
    (emit e s).ret = s.ret := rfl

@[simp] theorem emit_inbox (e : WireEvent) (s : State) :
    (emit e s).inbox = s.inbox := rfl

@[simp] theorem emit_resp (e : WireEvent) (s : State) :
    (emit e s).resp = s.resp := rfl

@[simp] theorem emit_script (e : WireEvent) (s : State) :
    (emit e s).script = s.script := rfl

@[simp] theorem emit_asked (e : WireEvent) (s : State) :
    (emit e s).asked = s.asked := rfl

/-! ### setLine -/

@[simp] theorem setLine_cfg (l : Line) (v : Bool) (s : State) :
    (setLine l v s).cfg = s.cfg := rfl

@[simp] theorem setLine_life (l : Line) (v : Bool) (s : State) :
    (setLine l v s).life = s.life := rfl

@[simp] theorem setLine_fb (l : Line) (v : Bool) (s : State) :
    (setLine l v s).fb = s.fb := rfl

@[simp] theorem setLine_lines (l : Line) (v : Bool) (s : State) :
    (setLine l v s).lines = s.lines.map (Lines.drive l v) := rfl

@[simp] theorem setLine_wire (l : Line) (v : Bool) (s : State) :
    (setLine l v s).wire = s.wire ++ [.bl l v] := rfl

@[simp] theorem setLine_busy (l : Line) (v : Bool) (s : State) :
    (setLine l v s).busy = s.busy := rfl

@[simp] theorem setLine_cmdBuf (l : Line) (v : Bool) (s : State) :
    (setLine l v s).cmdBuf = s.cmdBuf := rfl

@[simp] theorem setLine_strip (l : Line) (v : Bool) (s : State) :
    (setLine l v s).strip = s.strip := rfl

@[simp] theorem setLine_port (l : Line) (v : Bool) (s : State) :
    (setLine l v s).port = s.port := rfl

@[simp] theorem setLine_ret (l : Line) (v : Bool) (s : State) :
    (setLine l v s).ret = s.ret := rfl

@[simp] theorem setLine_inbox (l : Line) (v : Bool) (s : State) :
    (setLine l v s).inbox = s.inbox := rfl

@[simp] theorem setLine_resp (l : Line) (v : Bool) (s : State) :
    (setLine l v s).resp = s.resp := rfl

@[simp] theorem setLine_script (l : Line) (v : Bool) (s : State) :
    (setLine l v s).script = s.script := rfl

@[simp] theorem setLine_asked (l : Line) (v : Bool) (s : State) :
    (setLine l v s).asked = s.asked := rfl

/-! ### fillBytes -/

@[simp] theorem fillBytes_cfg (v : Byte) (s : State) :
    (fillBytes v s).cfg = s.cfg := rfl

@[simp] theorem fillBytes_life (v : Byte) (s : State) :
    (fillBytes v s).life = s.life := rfl

@[simp] theorem fillBytes_fb (v : Byte) (s : State) :
    (fillBytes v s).fb = s.fb.remake (fbSize s.cfg) (fun _ => v) := rfl

@[simp] theorem fillBytes_lines (v : Byte) (s : State) :
    (fillBytes v s).lines = s.lines := rfl

@[simp] theorem fillBytes_wire (v : Byte) (s : State) :
    (fillBytes v s).wire = s.wire := rfl

@[simp] theorem fillBytes_busy (v : Byte) (s : State) :
    (fillBytes v s).busy = s.busy := rfl

@[simp] theorem fillBytes_cmdBuf (v : Byte) (s : State) :
    (fillBytes v s).cmdBuf = s.cmdBuf := rfl

@[simp] theorem fillBytes_strip (v : Byte) (s : State) :
    (fillBytes v s).strip = s.strip := rfl

@[simp] theorem fillBytes_port (v : Byte) (s : State) :
    (fillBytes v s).port = s.port := rfl

@[simp] theorem fillBytes_ret (v : Byte) (s : State) :
    (fillBytes v s).ret = s.ret := rfl

@[simp] theorem fillBytes_inbox (v : Byte) (s : State) :
    (fillBytes v s).inbox = s.inbox := rfl

@[simp] theorem fillBytes_resp (v : Byte) (s : State) :
    (fillBytes v s).resp = s.resp := rfl

@[simp] theorem fillBytes_script (v : Byte) (s : State) :
    (fillBytes v s).script = s.script := rfl

@[simp] theorem fillBytes_asked (v : Byte) (s : State) :
    (fillBytes v s).asked = s.asked := rfl

/-! ### resetBlock -/

@[simp] theorem resetBlock_cfg (c : Cfg) (s : State) :
    (resetBlock c s).cfg = c := rfl

@[simp] theorem resetBlock_life (c : Cfg) (s : State) :
    (resetBlock c s).life = .uninit := rfl

@[simp] theorem resetBlock_fb (c : Cfg) (s : State) :
    (resetBlock c s).fb = [] := rfl

@[simp] theorem resetBlock_lines (c : Cfg) (s : State) :
    (resetBlock c s).lines = resetLines c := rfl

@[simp] theorem resetBlock_wire (c : Cfg) (s : State) :
    (resetBlock c s).wire = s.wire ++ [.rst] := rfl

@[simp] theorem resetBlock_busy (c : Cfg) (s : State) :
    (resetBlock c s).busy = false := rfl

@[simp] theorem resetBlock_cmdBuf (c : Cfg) (s : State) :
    (resetBlock c s).cmdBuf = (0, 0) := rfl

@[simp] theorem resetBlock_strip (c : Cfg) (s : State) :
    (resetBlock c s).strip = none := rfl

@[simp] theorem resetBlock_port (c : Cfg) (s : State) :
    (resetBlock c s).port = none := rfl

@[simp] theorem resetBlock_ret (c : Cfg) (s : State) :
    (resetBlock c s).ret = none := rfl

@[simp] theorem resetBlock_inbox (c : Cfg) (s : State) :
    (resetBlock c s).inbox = s.inbox := rfl

@[simp] theorem resetBlock_resp (c : Cfg) (s : State) :
    (resetBlock c s).resp = s.resp := rfl

@[simp] theorem resetBlock_script (c : Cfg) (s : State) :
    (resetBlock c s).script = s.script := rfl

@[simp] theorem resetBlock_asked (c : Cfg) (s : State) :
    (resetBlock c s).asked = s.asked := rfl

/-! ### xfer -/

@[simp] theorem xfer_cfg (e : Answer → WireEvent) (s : State) :
    ((xfer e s).st).cfg = s.cfg := rfl

@[simp] theorem xfer_life (e : Answer → WireEvent) (s : State) :
    ((xfer e s).st).life = s.life := rfl

@[simp] theorem xfer_fb (e : Answer → WireEvent) (s : State) :
    ((xfer e s).st).fb = s.fb := rfl

@[simp] theorem xfer_lines (e : Answer → WireEvent) (s : State) :
    ((xfer e s).st).lines = s.lines := rfl

@[simp] theorem xfer_wire (e : Answer → WireEvent) (s : State) :
    ((xfer e s).st).wire = s.wire ++ [e (busAnswer s 0)] := rfl

@[simp] theorem xfer_busy (e : Answer → WireEvent) (s : State) :
    ((xfer e s).st).busy = (s.busy || (busAnswer s 0).isNone) := rfl

@[simp] theorem xfer_cmdBuf (e : Answer → WireEvent) (s : State) :
    ((xfer e s).st).cmdBuf = s.cmdBuf := rfl

@[simp] theorem xfer_strip (e : Answer → WireEvent) (s : State) :
    ((xfer e s).st).strip = s.strip := rfl

@[simp] theorem xfer_port (e : Answer → WireEvent) (s : State) :
    ((xfer e s).st).port = s.port := rfl

@[simp] theorem xfer_ret (e : Answer → WireEvent) (s : State) :
    ((xfer e s).st).ret = s.ret := rfl

@[simp] theorem xfer_inbox (e : Answer → WireEvent) (s : State) :
    ((xfer e s).st).inbox = s.inbox := rfl

@[simp] theorem xfer_resp (e : Answer → WireEvent) (s : State) :
    ((xfer e s).st).resp = s.resp := rfl

@[simp] theorem xfer_script (e : Answer → WireEvent) (s : State) :
    ((xfer e s).st).script = s.script.tail := rfl

@[simp] theorem xfer_asked (e : Answer → WireEvent) (s : State) :
    ((xfer e s).st).asked = s.asked + 1 := rfl

@[simp] theorem xfer_answer (e : Answer → WireEvent) (s : State) :
    (xfer e s).ret = busAnswer s 0 := rfl

/-! ### paint -/

@[simp] theorem paint_cfg (p : Points) (c : Bool) (s : State) :
    (paint p c s).cfg = s.cfg := rfl

@[simp] theorem paint_life (p : Points) (c : Bool) (s : State) :
    (paint p c s).life = s.life := rfl

@[simp] theorem paint_lines (p : Points) (c : Bool) (s : State) :
    (paint p c s).lines = s.lines := rfl

@[simp] theorem paint_wire (p : Points) (c : Bool) (s : State) :
    (paint p c s).wire = s.wire := rfl

@[simp] theorem paint_busy (p : Points) (c : Bool) (s : State) :
    (paint p c s).busy = s.busy := rfl

@[simp] theorem paint_cmdBuf (p : Points) (c : Bool) (s : State) :
    (paint p c s).cmdBuf = s.cmdBuf := rfl

@[simp] theorem paint_strip (p : Points) (c : Bool) (s : State) :
    (paint p c s).strip = s.strip := rfl

@[simp] theorem paint_port (p : Points) (c : Bool) (s : State) :
    (paint p c s).port = s.port := rfl

@[simp] theorem paint_ret (p : Points) (c : Bool) (s : State) :
    (paint p c s).ret = s.ret := rfl

@[simp] theorem paint_inbox (p : Points) (c : Bool) (s : State) :
    (paint p c s).inbox = s.inbox := rfl

@[simp] theorem paint_resp (p : Points) (c : Bool) (s : State) :
    (paint p c s).resp = s.resp := rfl

@[simp] theorem paint_script (p : Points) (c : Bool) (s : State) :
    (paint p c s).script = s.script := rfl

@[simp] theorem paint_asked (p : Points) (c : Bool) (s : State) :
    (paint p c s).asked = s.asked := rfl

/-! ### fbSet -/

@[simp] theorem fbSet_cfg (x y : Int) (c : Bool) (s : State) :
    (fbSet x y c s).cfg = s.cfg := by
  unfold fbSet; split <;> rfl

@[simp] theorem fbSet_life (x y : Int) (c : Bool) (s : State) :
    (fbSet x y c s).life = s.life := by
  unfold fbSet; split <;> rfl

@[simp] theorem fbSet_lines (x y : Int) (c : Bool) (s : State) :
    (fbSet x y c s).lines = s.lines := by
  unfold fbSet; split <;> rfl

@[simp] theorem fbSet_wire (x y : Int) (c : Bool) (s : State) :
    (fbSet x y c s).wire = s.wire := by
  unfold fbSet; split <;> rfl

@[simp] theorem fbSet_busy (x y : Int) (c : Bool) (s : State) :
    (fbSet x y c s).busy = s.busy := by
  unfold fbSet; split <;> rfl

@[simp] theorem fbSet_cmdBuf (x y : Int) (c : Bool) (s : State) :
    (fbSet x y c s).cmdBuf = s.cmdBuf := by
  unfold fbSet; split <;> rfl

@[simp] theorem fbSet_strip (x y : Int) (c : Bool) (s : State) :
    (fbSet x y c s).strip = s.strip := by
  unfold fbSet; split <;> rfl

@[simp] theorem fbSet_port (x y : Int) (c : Bool) (s : State) :
    (fbSet x y c s).port = s.port := by
  unfold fbSet; split <;> rfl

@[simp] theorem fbSet_ret (x y : Int) (c : Bool) (s : State) :
    (fbSet x y c s).ret = s.ret := by
  unfold fbSet; split <;> rfl

@[simp] theorem fbSet_inbox (x y : Int) (c : Bool) (s : State) :
    (fbSet x y c s).inbox = s.inbox := by
  unfold fbSet; split <;> rfl

@[simp] theorem fbSet_resp (x y : Int) (c : Bool) (s : State) :
    (fbSet x y c s).resp = s.resp := by
  unfold fbSet; split <;> rfl

@[simp] theorem fbSet_script (x y : Int) (c : Bool) (s : State) :
    (fbSet x y c s).script = s.script := by
  unfold fbSet; split <;> rfl

@[simp] theorem fbSet_asked (x y : Int) (c : Bool) (s : State) :
    (fbSet x y c s).asked = s.asked := by
  unfold fbSet; split <;> rfl

end Sys2Proof.Machine
end

