-- ==== Sys2Proof/Laws/Transport.lean ====
section
/-! SUPPORT. What a transport operation can do, said once: it plays the events it would make on a bus
that answers `ok`, up to the first transaction that is not answered so (spec/42_transport.md). -/

namespace Sys2Proof.Machine

/-- Play the events of an operation against the answers of the bus: what the operation returns, the
events it makes and the number of its transactions. -/
def playEvents : (Nat → Answer) → List WireEvent → Answer × List WireEvent × Nat
  | _, [] => (some .ok, [], 0)
  | f, e :: es =>
    if e.isTransaction then
      if f 0 = some .ok then
        let r := playEvents (fun j => f (j + 1)) es
        (r.1, e.withOut (f 0) :: r.2.1, r.2.2 + 1)
      else (f 0, [e.withOut (f 0)], 1)
    else
      let r := playEvents f es
      (r.1, e :: r.2.1, r.2.2)

theorem playEvents_line {f : Nat → Answer} {e : WireEvent} {es : List WireEvent}
    (h : e.isTransaction = false) :
    playEvents f (e :: es) =
      ((playEvents f es).1, e :: (playEvents f es).2.1, (playEvents f es).2.2) := by
  simp [playEvents, h]

theorem playEvents_next {f : Nat → Answer} {e : WireEvent} {es : List WireEvent}
    (h : e.isTransaction = true) (h0 : f 0 = some .ok) :
    playEvents f (e :: es) =
      ((playEvents (fun j => f (j + 1)) es).1,
        e.withOut (some .ok) :: (playEvents (fun j => f (j + 1)) es).2.1,
        (playEvents (fun j => f (j + 1)) es).2.2 + 1) := by
  simp [playEvents, h, h0]

theorem playEvents_last {f : Nat → Answer} {e : WireEvent} {es : List WireEvent}
    (h : e.isTransaction = true) (h0 : f 0 ≠ some .ok) :
    playEvents f (e :: es) = (f 0, [e.withOut (f 0)], 1) := by
  simp [playEvents, h, h0]

/-- Every transaction among the events has the outcome `ok`: an operation's events before it is known
how the bus answers. -/
abbrev AllOk (es : List WireEvent) : Prop := ∀ e ∈ es, e.withOut (some .ok) = e

theorem transactions_cons (e : WireEvent) (es : List WireEvent) :
    transactions (e :: es) = transactions es + if e.isTransaction then 1 else 0 := by
  simp [transactions, List.countP_cons]

theorem transactions_append (es fs : List WireEvent) :
    transactions (es ++ fs) = transactions es + transactions fs := by
  simp [transactions]

/-- On a bus that answers every one of its transactions `ok` an operation makes all its events. -/
theorem playEvents_ok {f : Nat → Answer} {es : List WireEvent} (hes : AllOk es)
    (h : ∀ j < transactions es, f j = some .ok) :
    playEvents f es = (some .ok, es, transactions es) := by
  induction es generalizing f with
  | nil => rfl
  | cons e es ih =>
    have hes' : AllOk es := fun e' h' => hes e' (by simp [h'])
    have he := hes e (by simp)
    unfold playEvents
    rw [transactions_cons] at h ⊢
    split
    next ht =>
      simp only [ht, if_true] at h
      have h0 : f 0 = some .ok := h 0 (by omega)
      rw [ih hes' (fun j hj => h (j + 1) (by omega))]
      simp [h0, he]
    next ht =>
      have ht : e.isTransaction = false := by simpa using ht
      rw [ih hes' (fun j hj => h j (by omega))]
      simp

/-- Where the k-th transaction is the first not answered `ok`, the operation returns that answer and
stops with that transaction. -/
theorem playEvents_stop {f : Nat → Answer} {es : List WireEvent} (hes : AllOk es) {k : Nat}
    {a : Answer} (hk : k < transactions es) (h : ∀ j < k, f j = some .ok) (hf : f k = a)
    (ha : a ≠ some .ok) : playEvents f es = (a, cutEvents k a es, k + 1) := by
  induction es generalizing f k with
  | nil => simp [transactions] at hk
  | cons e es ih =>
    have hes' : AllOk es := fun e' h' => hes e' (by simp [h'])
    have he := hes e (by simp)
    rw [transactions_cons] at hk
    unfold playEvents cutEvents
    split
    next ht =>
      simp only [ht, if_true] at hk
      cases k with
      | zero => simp [hf, ha]
      | succ k =>
        have h0 : f 0 = some .ok := h 0 (by omega)
        rw [ih hes' (k := k) (by omega) (fun j hj => h (j + 1) (by omega)) hf]
        simp [h0, he]
    next ht =>
      have ht : e.isTransaction = false := by simpa using ht
      rw [ih hes' (by simpa [ht] using hk) h hf]

/-- One operation after another. -/
theorem playEvents_append (f : Nat → Answer) (es fs : List WireEvent) :
    playEvents f (es ++ fs) =
      if (playEvents f es).1 = some .ok then
        ((playEvents (fun j => f (j + (playEvents f es).2.2)) fs).1,
          (playEvents f es).2.1 ++ (playEvents (fun j => f (j + (playEvents f es).2.2)) fs).2.1,
          (playEvents f es).2.2 + (playEvents (fun j => f (j + (playEvents f es).2.2)) fs).2.2)
      else playEvents f es := by
  induction es generalizing f with
  | nil => simp [playEvents]
  | cons e es ih =>
    rw [List.cons_append]
    cases ht : e.isTransaction with
    | false =>
      rw [playEvents_line ht, playEvents_line ht, ih]
      by_cases hok : (playEvents f es).1 = some .ok
      · simp only [if_pos hok, List.cons_append]
      · simp only [if_neg hok]
    | true =>
      by_cases h0 : f 0 = some .ok
      · have hsh : (fun j => f (j + (playEvents (fun j => f (j + 1)) es).2.2 + 1)) =
            fun j => f (j + ((playEvents (fun j => f (j + 1)) es).2.2 + 1)) := by
          funext j; rw [Nat.add_assoc]
        rw [playEvents_next ht h0, playEvents_next ht h0, ih]
        by_cases hok : (playEvents (fun j => f (j + 1)) es).1 = some .ok
        · simp only [if_pos hok, List.cons_append, hsh]
          rw [Nat.add_right_comm]
        · simp only [if_neg hok]
      · rw [playEvents_last ht h0, playEvents_last ht h0, if_neg h0]

theorem lineAfter_append (l : Line) (v : Bool) (es fs : List WireEvent) :
    lineAfter l v (es ++ fs) = lineAfter l (lineAfter l v es) fs := by
  induction es generalizing v with
  | nil => rfl
  | cons e es ih => cases e <;> simp [lineAfter, ih]

@[simp] theorem linesAfter_nil (ls : Lines) : linesAfter [] ls = ls := rfl

theorem linesAfter_append (es fs : List WireEvent) (ls : Lines) :
    linesAfter (es ++ fs) ls = linesAfter fs (linesAfter es ls) := by
  simp only [linesAfter, lineAfter_append]

/-- Driving a line is what its BL event does to the levels (R225). -/
theorem linesAfter_bl (l : Line) (v : Bool) : linesAfter [.bl l v] = Lines.drive l v := by
  funext ls
  cases l <;> rfl

/-- A transaction drives no line (R222). -/
theorem linesAfter_transaction {e : WireEvent} (h : e.isTransaction = true) (ls : Lines) :
    linesAfter [e] ls = ls := by
  cases e <;> first | rfl | cases h

theorem withOut_isTransaction (e : WireEvent) (a : Answer) :
    (e.withOut a).isTransaction = e.isTransaction := by
  cases e <;> rfl

/-- The answers after some transactions are the answers from that number on. -/
theorem busAnswer_shift {s t : State} {n : Nat} (hs : t.script = s.script.drop n)
    (ha : t.asked = s.asked + n) (j : Nat) : busAnswer t j = busAnswer s (j + n) := by
  unfold busAnswer
  rw [hs, ha, List.getElem?_drop, Nat.add_comm n j, Nat.add_assoc, Nat.add_comm n j]

/-- `r` is what playing the events `es` from the state `s` gives. The port, its return, CMDBUF and the
frame buffer are not said. -/
structure Moves (s : State) (es : List WireEvent) (r : TpRes) : Prop where
  ret : r.ret = (playEvents (busAnswer s) es).1
  wire : r.st.wire = s.wire ++ (playEvents (busAnswer s) es).2.1
  script : r.st.script = s.script.drop (playEvents (busAnswer s) es).2.2
  asked : r.st.asked = s.asked + (playEvents (busAnswer s) es).2.2
  busy : r.st.busy = (s.busy || r.ret.isNone)
  lines : r.st.lines = s.lines.map (linesAfter (playEvents (busAnswer s) es).2.1)
  cfg : r.st.cfg = s.cfg
  life : r.st.life = s.life
  strip : r.st.strip = s.strip
  inbox : r.st.inbox = s.inbox
  resp : r.st.resp = s.resp

/-- `r` is what playing the events `es` from the state `s` gives, and the frame buffer is as before. -/
structure Plays (s : State) (es : List WireEvent) (r : TpRes) : Prop extends Moves s es r where
  fb : r.st.fb = s.fb

theorem plays_nil (s : State) : Plays s [] ⟨some .ok, s⟩ := by
  refine ⟨?_, rfl⟩
  constructor <;> simp [playEvents, show linesAfter [] = id from rfl]

theorem plays_line (l : Line) (v : Bool) (s : State) :
    Plays s [.bl l v] ⟨some .ok, setLine l v s⟩ := by
  refine ⟨?_, rfl⟩
  constructor <;> simp [playEvents, linesAfter_bl, WireEvent.isTransaction]

theorem plays_xfer (s : State) (e : Answer → WireEvent) (he : (e (some .ok)).isTransaction = true)
    (hw : ∀ a, e a = (e (some .ok)).withOut a) : Plays s [e (some .ok)] (xfer e s) := by
  have hl : ∀ a, linesAfter [(e (some .ok)).withOut a] = id := fun a =>
    funext (linesAfter_transaction (by rw [withOut_isTransaction, he]))
  have hp : playEvents (busAnswer s) [e (some .ok)] =
      (busAnswer s 0, [(e (some .ok)).withOut (busAnswer s 0)], 1) := by
    simp only [playEvents, he, if_true]
    split
    next h => simp [h]
    next => rfl
  have hx : xfer e s = xfer (fun a => (e (some .ok)).withOut a) s := by
    rw [← show e = fun a => (e (some .ok)).withOut a from funext hw]
  rw [hx]
  refine ⟨?_, rfl⟩
  constructor <;> simp only [hp, hl, xfer, List.drop_one, Option.map_id, id]

/-- One operation after another plays the events of both. -/
theorem Moves.andThen {s : State} {es fs : List WireEvent} {r : TpRes} {next : State → TpRes}
    (h : Moves s es r) (hn : r.ret = some .ok → Moves r.st fs (next r.st)) :
    Moves s (es ++ fs) (r.andThen next) := by
  have hr := h.ret
  have happ := playEvents_append (busAnswer s) es fs
  by_cases hok : r.ret = some .ok
  · have ht := hn hok
    have hshift : (fun j => busAnswer s (j + (playEvents (busAnswer s) es).2.2)) = busAnswer r.st := by
      funext j; rw [busAnswer_shift h.script h.asked]
    rw [← hr, if_pos hok, hshift] at happ
    have hbusy : r.st.busy = s.busy := by rw [h.busy, hok]; simp
    have hat : r.andThen next = next r.st := by simp [TpRes.andThen, hok]
    rw [hat]
    constructor
    · rw [ht.ret, happ]
    · rw [ht.wire, h.wire, happ, List.append_assoc]
    · rw [ht.script, h.script, happ, List.drop_drop]
    · rw [ht.asked, h.asked, happ, Nat.add_assoc]
    · rw [ht.busy, hbusy]
    · rw [ht.lines, h.lines, happ, Option.map_map]
      exact congrArg (s.lines.map ·) (funext fun ls => (linesAfter_append _ _ ls).symm)
    · rw [ht.cfg, h.cfg]
    · rw [ht.life, h.life]
    · rw [ht.strip, h.strip]
    · rw [ht.inbox, h.inbox]
    · rw [ht.resp, h.resp]
  · rw [← hr, if_neg hok] at happ
    have hat : r.andThen next = r := by
      unfold TpRes.andThen
      split
      next h' => exact absurd h' hok
      next => rfl
      next => rfl
    rw [hat]
    constructor <;> simp [happ, h.ret, h.wire, h.script, h.asked, h.busy, h.lines, h.cfg,
      h.life, h.strip, h.inbox, h.resp]

/-- One transport operation after another plays the events of both and keeps the frame buffer. -/
theorem Plays.andThen {s : State} {es fs : List WireEvent} {r : TpRes} {next : State → TpRes}
    (h : Plays s es r) (hn : ∀ t, t.cfg = s.cfg → t.fb = s.fb → Plays t fs (next t)) :
    Plays s (es ++ fs) (r.andThen next) := by
  have ht := hn r.st h.cfg h.fb
  refine ⟨h.toMoves.andThen (fun _ => ht.toMoves), ?_⟩
  unfold TpRes.andThen
  split
  · rw [ht.fb, h.fb]
  · exact h.fb
  · exact h.fb

theorem plays_xferAll (s : State) (l : List (List Byte)) (mk : List Byte → Answer → WireEvent)
    (he : ∀ d, (mk d (some .ok)).isTransaction = true)
    (hw : ∀ d a, mk d a = (mk d (some .ok)).withOut a) :
    Plays s (l.map (fun d => mk d (some .ok))) (xferAll (l.map mk) s) := by
  induction l generalizing s with
  | nil => exact plays_nil s
  | cons d l ih =>
    exact (plays_xfer s (mk d) (he d) (hw d)).andThen (fun t _ _ => ih t)

/-- The port, its return and CMDBUF do not matter to what is played. -/
theorem Plays.but {s : State} {es : List WireEvent} {r : TpRes} {p p' : Option PortReq}
    {q q' : Answer} {d d' : Byte × Byte}
    (h : Plays { s with port := p, ret := q, cmdBuf := d } es r) :
    Plays s es ⟨r.ret, { r.st with port := p', ret := q', cmdBuf := d' }⟩ :=
  ⟨⟨h.ret, h.wire, h.script, h.asked, h.busy, h.lines, h.cfg, h.life, h.strip, h.inbox,
    h.resp⟩, h.fb⟩

theorem plays_portCall {s : State} {es : List WireEvent} (k : Bool) (l : List Byte)
    (body : State → TpRes)
    (h : ∀ t : State, t.cfg = s.cfg → Plays t es (body t)) : Plays s es (portCall k l body s) := by
  have hb := h { s with port := some (.tp k l), ret := none } rfl
  unfold portCall
  generalize body { s with port := some (.tp k l), ret := none } = r at hb
  obtain ⟨ret, st⟩ := r
  cases ret
  · exact hb.but
  · exact hb.but

theorem plays_releaseCmdBuf {s : State} {es : List WireEvent} {r : TpRes} (h : Plays s es r) :
    Plays s es (releaseCmdBuf r) := by
  obtain ⟨ret, st⟩ := r
  cases ret
  · exact h
  · exact h.but

theorem plays_busACmd (b : Byte) (s : State) :
    Plays s [.ax (busAddr s.cfg) [0x80, b] (some .ok)] (busACmd b s) := by
  refine plays_releaseCmdBuf ?_
  exact (plays_xfer { s with cmdBuf := (0x80, b) }
    (fun a => .ax (busAddr s.cfg) [0x80, b] a) rfl (fun _ => rfl)).but

theorem plays_busAData (l : List Byte) (s : State) :
    Plays s ((chunks l s.cfg.chunkA).map (fun d => .ax (busAddr s.cfg) (0x40 :: d) (some .ok)))
      (busAData l s) :=
  plays_xferAll s (chunks l s.cfg.chunkA) (fun d a => .ax (busAddr s.cfg) (0x40 :: d) a)
    (fun _ => rfl) (fun _ _ => rfl)

theorem plays_openBracket {fs : List WireEvent} (mode : Bool) (s : State) (next : State → TpRes)
    (hn : ∀ t, t.cfg = s.cfg → t.fb = s.fb → Plays t fs (next t)) :
    Plays s ([.bl .cs true, .bl .dc mode, .bl .cs false] ++ fs) (next (openBracket mode s)) := by
  have h1 := plays_line .cs true s
  have h2 := h1.andThen (fs := [.bl .dc mode])
    (next := fun t => ⟨some .ok, setLine .dc mode t⟩) (fun t _ _ => plays_line .dc mode t)
  have h3 := h2.andThen (fs := [.bl .cs false])
    (next := fun t => ⟨some .ok, setLine .cs false t⟩) (fun t _ _ => plays_line .cs false t)
  exact h3.andThen hn

theorem plays_busBCmd (b : Byte) (s : State) :
    Plays s [.bl .cs true, .bl .dc false, .bl .cs false, .bw [b] (some .ok), .bl .cs true]
      (busBCmd b s) :=
  plays_openBracket false s (fun t => (xfer (.bw [b]) t).andThen closeBracket) (fun t _ _ =>
    (plays_xfer t (fun a => .bw [b] a) rfl (fun _ => rfl)).andThen
      (fun u _ _ => plays_line .cs true u))

theorem plays_busBData (l : List Byte) (s : State) :
    Plays s ([.bl .cs true, .bl .dc true, .bl .cs false] ++
      (chunks l s.cfg.chunkB).map (fun d => .bw d (some .ok)) ++ [.bl .cs true]) (busBData l s) := by
  rw [List.append_assoc]
  exact plays_openBracket true s
    (fun t => (xferAll ((chunks l s.cfg.chunkB).map .bw) t).andThen closeBracket) (fun t _ _ =>
      (plays_xferAll t (chunks l s.cfg.chunkB) (fun d a => .bw d a) (fun _ => rfl)
        (fun _ _ => rfl)).andThen (fun u _ _ => plays_line .cs true u))

/-- What TP_CMD can do (R226, R230). -/
theorem plays_tpCmd (b : Byte) (s : State) : Plays s (okCmd s.cfg b) (tpCmd b s) := by
  refine plays_portCall _ _ _ (fun t ht => ?_)
  unfold okCmd
  split
  next h =>
    rw [← ht] at h ⊢
    simp only [h]
    exact plays_busACmd b t
  next h =>
    simp only [h]
    exact plays_busBCmd b t

/-- What TP_DATA can do (R227, R231). -/
theorem plays_tpData (l : List Byte) (s : State) : Plays s (okData s.cfg l) (tpData l s) := by
  refine plays_portCall _ _ _ (fun t ht => ?_)
  unfold okData
  split
  next h =>
    rw [← ht] at h ⊢
    simp only [h]
    exact plays_busAData l t
  next h =>
    simp only [h]
    rw [← ht]
    exact plays_busBData l t

/-- What consecutive TP_CMDs can do (R181). -/
theorem plays_sendCmds (bs : List Byte) (s : State) : Plays s (okCmds s.cfg bs) (sendCmds bs s) := by
  induction bs generalizing s with
  | nil => exact plays_nil s
  | cons b bs ih =>
    exact (plays_tpCmd b s).andThen (fun t ht _ => by rw [← ht]; exact ih t)

/-- What sending a device command can do (R181). -/
theorem plays_sendDevice (i : Instr) (s : State) :
    Plays s (okCmds s.cfg (encode i)) (sendDevice i s) := plays_sendCmds (encode i) s

/-- What one page of Flush can do (R173). -/
theorem plays_flushPage (p : Nat) (s : State) :
    Plays s (okPage s.cfg (fun p => memRead s.fb (p * s.cfg.w) s.cfg.w) p) (flushPage p s) := by
  have h1 := plays_sendDevice (.devPageAddr (BitVec.ofNat 8 p) (BitVec.ofNat 8 (pages s.cfg - 1))) s
  have h := h1.andThen
    (fs := okCmds s.cfg (encode (.devColAddr 0x00 (BitVec.ofNat 8 (s.cfg.w - 1)))) ++
      okData s.cfg (memRead s.fb (p * s.cfg.w) s.cfg.w))
    (next := fun s => (sendDevice (.devColAddr 0x00 (BitVec.ofNat 8 (s.cfg.w - 1))) s).andThen
        (fun s => tpData (memRead s.fb (p * s.cfg.w) s.cfg.w) s)) (by
      intro t ht hf
      have h2 := plays_sendDevice (.devColAddr 0x00 (BitVec.ofNat 8 (t.cfg.w - 1))) t
      rw [← ht, ← hf]
      refine h2.andThen (fun u hu hg => ?_)
      rw [hu, hg, ← hu]
      exact plays_tpData _ u)
  rw [← List.append_assoc] at h
  have hc : okCmds s.cfg (encode (.devPageAddr (BitVec.ofNat 8 p) (BitVec.ofNat 8 (pages s.cfg - 1)))) ++
      okCmds s.cfg (encode (.devColAddr 0x00 (BitVec.ofNat 8 (s.cfg.w - 1)))) =
      okCmds s.cfg [0x22, BitVec.ofNat 8 p, BitVec.ofNat 8 (s.cfg.h / 8 - 1),
        0x21, 0x00, BitVec.ofNat 8 (s.cfg.w - 1)] := by
    unfold okCmds
    rw [← List.flatMap_append]
    rfl
  rw [hc] at h
  exact h

/-- What Flush can do, for the pages it still has to send (R173). -/
theorem plays_flushPages (ps : List Nat) (s : State) :
    Plays s (ps.flatMap (okPage s.cfg (fun p => memRead s.fb (p * s.cfg.w) s.cfg.w)))
      (flushPages ps s) := by
  induction ps generalizing s with
  | nil => exact plays_nil s
  | cons p ps ih =>
    refine (plays_flushPage p s).andThen (fun t ht hf => ?_)
    rw [← ht, ← hf]
    exact ih t

/-- What Flush can do (R173). -/
theorem plays_flush (s : State) :
    Plays s (okFlush s.cfg (fun p => memRead s.fb (p * s.cfg.w) s.cfg.w)) (flush s) :=
  plays_flushPages _ s

/-- The contents of the frame buffer do not matter to what is moved. -/
theorem Moves.fill {s : State} {es : List WireEvent} {r : TpRes} {v : Byte}
    (h : Moves (fillBytes v s) es r) : Moves s es r :=
  ⟨h.ret, h.wire, h.script, h.asked, h.busy, h.lines, h.cfg, h.life, h.strip, h.inbox,
    h.resp⟩

/-- The page bytes of a frame buffer that has been filled with zeros (R170). -/
theorem memRead_fillBytes (s : State) {p : Nat} (hp : p < pages s.cfg) :
    memRead (fillBytes 0x00 s).fb (p * s.cfg.w) s.cfg.w = List.replicate s.cfg.w 0 := by
  rw [List.eq_replicate_iff]
  refine ⟨by simp [memRead], ?_⟩
  intro b hb
  simp only [memRead, List.mem_map, List.mem_range] at hb
  obtain ⟨k, hk, rfl⟩ := hb
  have hm := Nat.mul_le_mul_right s.cfg.w (Nat.succ_le_of_lt hp)
  rw [Nat.succ_mul] at hm
  simp only [fillBytes_fb, Memory.read_remake, fbSize]
  rw [if_pos (by omega)]

/-- The 25 bytes that INIT sends are those of R171. -/
theorem initSeq_eq (c : Cfg) : initSeq c = initBytes c := by
  unfold initSeq initCommands initBytes
  split <;> split <;> rfl

/-- What INIT can do once its checks have passed (R170). -/
theorem moves_initRun (s : State) : Moves s (okInit s.cfg) (initRun s) := by
  have hp : Moves s (okPulse s.cfg)
      ⟨some .ok, match s.cfg.bus with | .a => s | .b => busBResetPulse s⟩ := by
    cases hb : s.cfg.bus with
    | a =>
      simp only [okPulse, hb]
      exact (plays_nil s).toMoves
    | b =>
      simp only [okPulse, hb]
      exact ((plays_line .res true s).andThen (fs := [.bl .res false, .bl .res true])
        (next := fun t => ⟨some .ok, setLine .res true (setLine .res false t)⟩)
        (fun t _ _ => (plays_line .res false t).andThen (fs := [.bl .res true])
          (next := fun u => ⟨some .ok, setLine .res true u⟩)
          (fun u _ _ => plays_line .res true u))).toMoves
  have hc : (match s.cfg.bus with | .a => s | .b => busBResetPulse s).cfg = s.cfg := hp.cfg
  unfold okInit
  rw [List.append_assoc]
  refine hp.andThen (next := fun t =>
    (sendCmds (initSeq t.cfg) t).andThen (fun s => flush (fillBytes 0x00 s))) (fun _ => ?_)
  dsimp only
  generalize (match s.cfg.bus with | .a => s | .b => busBResetPulse s) = t at hc
  have hs := (plays_sendCmds (initSeq t.cfg) t).toMoves
  rw [initSeq_eq, hc] at hs
  rw [initSeq_eq, hc]
  refine hs.andThen (fun _ => ?_)
  have hf := (plays_flush (fillBytes 0x00 (sendCmds (initBytes s.cfg) t).st)).toMoves.fill
  have hcc : (sendCmds (initBytes s.cfg) t).st.cfg = s.cfg := by rw [hs.cfg, hc]
  have he : okFlush (fillBytes 0x00 (sendCmds (initBytes s.cfg) t).st).cfg
      (fun p => memRead (fillBytes 0x00 (sendCmds (initBytes s.cfg) t).st).fb
        (p * (fillBytes 0x00 (sendCmds (initBytes s.cfg) t).st).cfg.w)
        (fillBytes 0x00 (sendCmds (initBytes s.cfg) t).st).cfg.w) =
      okFlush s.cfg (fun _ => List.replicate s.cfg.w 0) := by
    rw [fillBytes_cfg, hcc]
    unfold okFlush
    refine List.flatMap_congr (fun p hp => ?_)
    have := memRead_fillBytes (sendCmds (initBytes s.cfg) t).st (p := p)
      (by rw [hcc]; simpa [pages] using hp)
    rw [hcc] at this
    unfold okPage
    dsimp only
    rw [this]
  rw [he] at hf
  exact hf

end Sys2Proof.Machine
end

