-- ==== Sys2Proof/Laws/Events.lean ====
section
/-! SUPPORT. What an operation on the bus leaves in the internal port, and how `Moves` gives the wire and
the lines where the bus answers `ok` and where it does not (spec/42_transport.md R222 to R224,
spec/30_encoding.md R100 to R102). -/

namespace Sys2Proof.Machine

/-! ### The events of an operation -/

theorem allOk_append {es fs : List WireEvent} : AllOk (es ++ fs) ↔ AllOk es ∧ AllOk fs := by
  simp only [AllOk, List.mem_append]
  exact ⟨fun h => ⟨fun e he => h e (.inl he), fun e he => h e (.inr he)⟩,
    fun h e he => he.elim (h.1 e) (h.2 e)⟩

theorem allOk_flatMap {α : Type} {l : List α} {f : α → List WireEvent} (h : ∀ a ∈ l, AllOk (f a)) :
    AllOk (l.flatMap f) := by
  intro e he
  obtain ⟨a, ha, he⟩ := List.mem_flatMap.mp he
  exact h a ha e he

theorem allOk_okCmd (c : Cfg) (b : Byte) : AllOk (okCmd c b) := by
  unfold okCmd
  split <;> simp [AllOk, WireEvent.withOut]

theorem allOk_okCmds (c : Cfg) (bs : List Byte) : AllOk (okCmds c bs) :=
  allOk_flatMap (fun b _ => allOk_okCmd c b)

theorem allOk_okData (c : Cfg) (l : List Byte) : AllOk (okData c l) := by
  unfold okData
  split
  · simp [AllOk, WireEvent.withOut]
  · simp only [AllOk, List.mem_append, List.mem_map, List.mem_cons, List.not_mem_nil, or_false]
    rintro e (((rfl | rfl | rfl) | ⟨d, _, rfl⟩) | rfl) <;> rfl

theorem allOk_okPage (c : Cfg) (page : Nat → List Byte) (p : Nat) : AllOk (okPage c page p) :=
  allOk_append.mpr ⟨allOk_okCmds c _, allOk_okData c _⟩

theorem allOk_okFlush (c : Cfg) (page : Nat → List Byte) : AllOk (okFlush c page) :=
  allOk_flatMap (fun p _ => allOk_okPage c page p)

theorem allOk_okPulse (c : Cfg) : AllOk (okPulse c) := by
  unfold okPulse
  split <;> simp [AllOk, WireEvent.withOut]

theorem allOk_okInit (c : Cfg) : AllOk (okInit c) :=
  allOk_append.mpr ⟨allOk_append.mpr ⟨allOk_okPulse c, allOk_okCmds c _⟩, allOk_okFlush c _⟩

theorem transactions_okCmd (c : Cfg) (b : Byte) : transactions (okCmd c b) = 1 := by
  unfold okCmd
  split <;> rfl

theorem transactions_okCmds (c : Cfg) (bs : List Byte) : transactions (okCmds c bs) = bs.length := by
  induction bs with
  | nil => rfl
  | cons b bs ih =>
    show transactions (okCmd c b ++ okCmds c bs) = _
    rw [transactions_append, ih, transactions_okCmd, List.length_cons, Nat.add_comm]

theorem transactions_map {α : Type} (l : List α) (f : α → WireEvent)
    (h : ∀ a, (f a).isTransaction = true) : transactions (l.map f) = l.length := by
  induction l with
  | nil => rfl
  | cons a l ih => rw [List.map_cons, transactions_cons, ih, h a]; rfl

theorem transactions_okData (c : Cfg) (l : List Byte) :
    transactions (okData c l) = (chunks l (chunkSize c)).length := by
  cases h : c.bus with
  | a =>
    simp only [okData, chunkSize, h]
    rw [transactions_map _ _ (fun _ => rfl)]
  | b =>
    simp only [okData, chunkSize, h]
    rw [transactions_append, transactions_append, transactions_map _ _ (fun _ => rfl)]
    show 0 + _ + 0 = _
    omega

/-! ### From `Moves` to what is on the wire -/

/-- On a bus that answers `ok` the operation returns `ok` and makes all its events. -/
theorem Moves.ok {s : State} {es : List WireEvent} {r : TpRes} (h : Moves s es r) (hes : AllOk es)
    (hb : BusOk s (transactions es)) :
    r.ret = some .ok ∧ r.st.wire = s.wire ++ es ∧ r.st.script = s.script.drop (transactions es) ∧
      r.st.asked = s.asked + transactions es ∧ r.st.busy = s.busy ∧
      r.st.lines = s.lines.map (linesAfter es) := by
  have hp := playEvents_ok hes hb
  have hr : r.ret = some .ok := by rw [h.ret, hp]
  refine ⟨hr, ?_, ?_, ?_, ?_, ?_⟩
  · rw [h.wire, hp]
  · rw [h.script, hp]
  · rw [h.asked, hp]
  · rw [h.busy, hr]; simp
  · rw [h.lines, hp]

/-- Where the bus answers the k-th transaction with a failure, or never, the operation returns that
answer and its last event is that transaction. -/
theorem Moves.stop {s : State} {es : List WireEvent} {r : TpRes} {k : Nat} {a : Answer}
    (h : Moves s es r) (hes : AllOk es) (hk : k < transactions es) (hb : BusStops s k a) :
    r.ret = a ∧ r.st.wire = s.wire ++ cutEvents k a es ∧ r.st.script = s.script.drop (k + 1) ∧
      r.st.asked = s.asked + (k + 1) ∧ r.st.busy = (s.busy || a.isNone) ∧
      r.st.lines = s.lines.map (linesAfter (cutEvents k a es)) := by
  have hp := playEvents_stop hes hk hb.1 hb.2.1 hb.2.2
  have hr : r.ret = a := by rw [h.ret, hp]
  refine ⟨hr, ?_, ?_, ?_, ?_, ?_⟩
  · rw [h.wire, hp]
  · rw [h.script, hp]
  · rw [h.asked, hp]
  · rw [h.busy, hr]
  · rw [h.lines, hp]

/-! ### The internal port -/

/-- What a transport operation leaves in the internal port (R100): its return, and no request once it has
returned; a stalled operation never returns and its request stays. On bus-B it does not touch CMDBUF,
which is a register of bus-A (R32). -/
structure PortLeft (c : Cfg) (d : Byte × Byte) (r : TpRes) : Prop where
  ret : r.st.ret = r.ret
  port : r.ret ≠ none → r.st.port = none
  cmdBuf : c.bus = .b → r.st.cmdBuf = d

theorem PortLeft.andThen {c : Cfg} {d : Byte × Byte} {r : TpRes} {next : State → TpRes}
    (h : PortLeft c d r)
    (hn : r.ret = some .ok → PortLeft c d (next r.st)) : PortLeft c d (r.andThen next) := by
  unfold TpRes.andThen
  split
  next hr => exact hn hr
  next => exact h
  next => exact h

theorem andThen_cmdBuf {d : Byte × Byte} {r : TpRes} {next : State → TpRes}
    (h : r.st.cmdBuf = d) (hn : ∀ t : State, t.cmdBuf = d → (next t).st.cmdBuf = d) :
    (r.andThen next).st.cmdBuf = d := by
  unfold TpRes.andThen
  split
  · exact hn _ h
  · exact h
  · exact h

theorem xferAll_cmdBuf (es : List (Answer → WireEvent)) (s : State) :
    (xferAll es s).st.cmdBuf = s.cmdBuf := by
  induction es generalizing s with
  | nil => rfl
  | cons e es ih => exact andThen_cmdBuf rfl (fun t ht => by rw [ih, ht])

theorem portCall_left {c : Cfg} {d : Byte × Byte} (k : Bool) (l : List Byte) {body : State → TpRes}
    {s : State} (hb : ∀ t : State, t.cfg = s.cfg → t.cmdBuf = s.cmdBuf → t.ret = none →
      ((body t).ret = none → (body t).st.ret = none) ∧
      (c.bus = .b → (body t).st.cmdBuf = d)) : PortLeft c d (portCall k l body s) := by
  have h := hb { s with port := some (.tp k l), ret := none } rfl rfl rfl
  unfold portCall
  generalize body { s with port := some (.tp k l), ret := none } = r at h
  obtain ⟨ret, st⟩ := r
  cases ret
  · exact ⟨h.1 rfl, fun e => absurd rfl e, h.2⟩
  · exact ⟨rfl, fun _ => rfl, h.2⟩

theorem andThen_ret {r : TpRes} {next : State → TpRes} (h : r.st.ret = none)
    (hn : ∀ t : State, t.ret = none → (next t).st.ret = none) :
    (r.andThen next).st.ret = none := by
  unfold TpRes.andThen
  split
  · exact hn _ h
  · exact h
  · exact h

theorem xferAll_ret (es : List (Answer → WireEvent)) (s : State) :
    (xferAll es s).st.ret = s.ret := by
  induction es generalizing s with
  | nil => rfl
  | cons e es ih =>
    show ((xfer e s).andThen (xferAll es)).st.ret = s.ret
    unfold TpRes.andThen
    split
    · rw [ih]; rfl
    · rfl
    · rfl

theorem openBracket_ret (m : Bool) (s : State) : (openBracket m s).ret = s.ret := rfl

theorem openBracket_cmdBuf (m : Bool) (s : State) : (openBracket m s).cmdBuf = s.cmdBuf := rfl

theorem tpCmd_left (b : Byte) (s : State) : PortLeft s.cfg s.cmdBuf (tpCmd b s) := by
  refine portCall_left _ _ (fun t ht hc hr => ?_)
  cases hb : s.cfg.bus with
  | a =>
    refine ⟨fun hn => ?_, fun h => by cases h⟩
    simp only [busACmd, releaseCmdBuf] at hn ⊢
    generalize hx : xfer _ _ = r at hn ⊢
    obtain ⟨ret, st⟩ := r
    cases ret
    · rw [show st = (xfer (.ax (busAddr t.cfg) [0x80, b]) { t with cmdBuf := (0x80, b) }).st by
        rw [hx]]
      exact hr
    · cases hn
  | b =>
    refine ⟨fun _ => ?_, fun _ => ?_⟩
    · exact andThen_ret hr (fun u hu => hu)
    · exact andThen_cmdBuf (d := s.cmdBuf) hc (fun u hu => hu)

theorem tpData_left (l : List Byte) (s : State) : PortLeft s.cfg s.cmdBuf (tpData l s) := by
  refine portCall_left _ _ (fun t ht hc hr => ?_)
  cases hb : s.cfg.bus with
  | a =>
    refine ⟨fun _ => ?_, fun h => by cases h⟩
    rw [← hr]
    exact xferAll_ret _ _
  | b =>
    refine ⟨fun _ => ?_, fun _ => ?_⟩
    · exact andThen_ret (by rw [xferAll_ret]; exact hr) (fun u hu => hu)
    · exact andThen_cmdBuf (d := s.cmdBuf) (by rw [xferAll_cmdBuf]; exact hc) (fun u hu => hu)

theorem sendCmds_left (b : Byte) (bs : List Byte) (s : State) :
    PortLeft s.cfg s.cmdBuf (sendCmds (b :: bs) s) := by
  induction bs generalizing b s with
  | nil =>
    refine (tpCmd_left b s).andThen (fun hr => ?_)
    have h := tpCmd_left b s
    exact ⟨h.ret.trans hr, fun _ => h.port (by simp [hr]), h.cmdBuf⟩
  | cons b' bs ih =>
    refine (tpCmd_left b s).andThen (fun hr => ?_)
    have h := ih b' (tpCmd b s).st
    rw [(plays_tpCmd b s).cfg] at h
    exact ⟨h.ret, h.port, fun hb => by rw [h.cmdBuf hb, (tpCmd_left b s).cmdBuf hb]⟩

theorem flushPages_left (p : Nat) (ps : List Nat) (s : State) :
    PortLeft s.cfg s.cmdBuf (flushPages (p :: ps) s) := by
  have hpage : ∀ (p : Nat) (s : State), PortLeft s.cfg s.cmdBuf (flushPage p s) := by
    intro p s
    have h1 := sendCmds_left 0x22
      [BitVec.ofNat 8 p, BitVec.ofNat 8 (pages s.cfg - 1)] s
    have c1 := (plays_sendCmds
      [0x22, BitVec.ofNat 8 p, BitVec.ofNat 8 (pages s.cfg - 1)] s).cfg
    refine PortLeft.andThen (r := sendDevice _ s) h1 (fun _ => ?_)
    have h2 := sendCmds_left 0x21
      [0x00, BitVec.ofNat 8 ((sendDevice (.devPageAddr (BitVec.ofNat 8 p)
        (BitVec.ofNat 8 (pages s.cfg - 1))) s).st.cfg.w - 1)]
      (sendDevice (.devPageAddr (BitVec.ofNat 8 p) (BitVec.ofNat 8 (pages s.cfg - 1))) s).st
    have c2 := (plays_sendCmds _ _ : Plays
      (sendDevice (.devPageAddr (BitVec.ofNat 8 p) (BitVec.ofNat 8 (pages s.cfg - 1))) s).st _
      (sendCmds [0x21, 0x00, BitVec.ofNat 8 ((sendDevice (.devPageAddr (BitVec.ofNat 8 p)
        (BitVec.ofNat 8 (pages s.cfg - 1))) s).st.cfg.w - 1)] _)).cfg
    have e1 : (sendDevice (.devPageAddr (BitVec.ofNat 8 p) (BitVec.ofNat 8 (pages s.cfg - 1))) s).st.cfg
        = s.cfg := c1
    rw [e1] at h2 c2
    refine PortLeft.andThen (r := sendDevice _ _) ?_ (fun _ => ?_)
    · rw [e1]
      exact ⟨h2.ret, h2.port, fun hb => (h2.cmdBuf hb).trans (h1.cmdBuf hb)⟩
    · rw [e1]
      have h3 := fun l => tpData_left l (sendDevice (.devColAddr 0x00 (BitVec.ofNat 8 (s.cfg.w - 1)))
        (sendDevice (.devPageAddr (BitVec.ofNat 8 p) (BitVec.ofNat 8 (pages s.cfg - 1))) s).st).st
      have e2 : (sendDevice (.devColAddr 0x00 (BitVec.ofNat 8 (s.cfg.w - 1)))
        (sendDevice (.devPageAddr (BitVec.ofNat 8 p) (BitVec.ofNat 8 (pages s.cfg - 1))) s).st).st.cfg
          = s.cfg := c2
      rw [e2] at h3
      exact ⟨(h3 _).ret, (h3 _).port,
        fun hb => ((h3 _).cmdBuf hb).trans ((h2.cmdBuf hb).trans (h1.cmdBuf hb))⟩
  induction ps generalizing p s with
  | nil =>
    have h := hpage p s
    refine h.andThen (fun hr => ?_)
    exact ⟨h.ret.trans hr, fun _ => h.port (by simp [hr]), h.cmdBuf⟩
  | cons q ps ih =>
    have h := hpage p s
    refine h.andThen (fun hr => ?_)
    have hq := ih q (flushPage p s).st
    rw [(plays_flushPage p s).cfg] at hq
    exact ⟨hq.ret, hq.port, fun hb => (hq.cmdBuf hb).trans (h.cmdBuf hb)⟩

/-- What Flush leaves in the internal port when there is a page to send. -/
theorem flush_left {s : State} (h : 0 < pages s.cfg) : PortLeft s.cfg s.cmdBuf (flush s) := by
  unfold flush
  obtain ⟨n, hn⟩ : ∃ n, pages s.cfg = n + 1 := ⟨pages s.cfg - 1, by omega⟩
  rw [hn, List.range_succ_eq_map]
  exact flushPages_left 0 _ s

end Sys2Proof.Machine
end

