-- ==== Sys2Proof/Laws/Pixels.lean ====
section
/-! SUPPORT. The frame buffer as pixels: what one pixel write, painting a point set and filling do to
every bit of every byte (spec/20_memory.md R60 to R63). -/

namespace Sys2Proof.Machine

theorem byteOf_getLsbD (f : Nat → Bool) (k : Nat) (hk : k < 8) : (byteOf f).getLsbD k = f k := by
  have h8 : ∀ b0 b1 b2 b3 b4 b5 b6 b7 : Bool,
      let v := BitVec.ofNat 8 (b0.toNat + 2 * b1.toNat + 4 * b2.toNat + 8 * b3.toNat +
        16 * b4.toNat + 32 * b5.toNat + 64 * b6.toNat + 128 * b7.toNat)
      v.getLsbD 0 = b0 ∧ v.getLsbD 1 = b1 ∧ v.getLsbD 2 = b2 ∧ v.getLsbD 3 = b3 ∧
        v.getLsbD 4 = b4 ∧ v.getLsbD 5 = b5 ∧ v.getLsbD 6 = b6 ∧ v.getLsbD 7 = b7 := by decide
  have h := h8 (f 0) (f 1) (f 2) (f 3) (f 4) (f 5) (f 6) (f 7)
  obtain ⟨h0, h1, h2, h3, h4, h5, h6, h7⟩ := h
  match k, hk with
  | 0, _ => exact h0
  | 1, _ => exact h1
  | 2, _ => exact h2
  | 3, _ => exact h3
  | 4, _ => exact h4
  | 5, _ => exact h5
  | 6, _ => exact h6
  | 7, _ => exact h7

/-- `setBit` writes bit k and keeps the other seven (R63). -/
theorem setBit_getLsbD (b : Byte) (k : Nat) (c : Bool) (j : Nat) (hj : j < 8) :
    (setBit b k c).getLsbD j = if j = k then c else b.getLsbD j := by
  unfold setBit flagByte
  by_cases hjk : j = k
  · subst hjk
    cases c <;> simp [hj]
  · by_cases hlt : j < k
    · cases c <;> simp [hj, hjk, hlt]
    · have : j - k ≠ 0 := by omega
      cases c <;> simp [hj, hjk, hlt, this]

theorem inFb_iff (c : Cfg) (x y : Int) :
    inFb c x y = true ↔ 0 ≤ x ∧ x < c.w ∧ 0 ≤ y ∧ y < c.h := by
  simp [inFb, and_assoc]

/-- One pixel write, bit by bit of every byte (R63). -/
theorem fbSet_bit (x y : Int) (c : Bool) (s : State) (i k : Nat) (hk : k < 8) :
    ((fbSet x y c s).fb.read i).getLsbD k =
      if inFb s.cfg x y = true ∧ i = pixelIndex s.cfg x y ∧ k = pixelBit y then c
      else (s.fb.read i).getLsbD k := by
  unfold fbSet
  by_cases h : inFb s.cfg x y = true
  · simp only [h, if_true, true_and, Memory.read_write]
    by_cases hi : i = pixelIndex s.cfg x y
    · simp only [hi, if_true, true_and]
      exact setBit_getLsbD _ _ _ _ hk
    · simp [hi]
  · simp [h]

/-- A pixel write changes the frame buffer only (R132). -/
theorem fbSet_eq (x y : Int) (c : Bool) (s : State) :
    fbSet x y c s = { s with fb := (fbSet x y c s).fb } := by
  unfold fbSet
  split <;> rfl

/-- A pixel write leaves every byte but the pixel's own alone. -/
theorem fbSet_read_other (x y : Int) (c : Bool) (s : State) (i : Nat)
    (hi : i ≠ pixelIndex s.cfg x y) : (fbSet x y c s).fb.read i = s.fb.read i := by
  unfold fbSet
  split <;> simp [hi]

/-- Two in-range pixels in the same bit of the same byte are the same pixel (R60). -/
theorem pixel_injective {c : Cfg} {x y x' y' : Int} (h : inFb c x y = true)
    (h' : inFb c x' y' = true) (hi : pixelIndex c x y = pixelIndex c x' y')
    (hb : pixelBit y = pixelBit y') : x = x' ∧ y = y' := by
  rw [inFb_iff] at h h'
  obtain ⟨a, rfl⟩ := Int.eq_ofNat_of_zero_le h.1
  obtain ⟨b, rfl⟩ := Int.eq_ofNat_of_zero_le h.2.2.1
  obtain ⟨a', rfl⟩ := Int.eq_ofNat_of_zero_le h'.1
  obtain ⟨b', rfl⟩ := Int.eq_ofNat_of_zero_le h'.2.2.1
  simp only [pixelIndex, pixelBit, Int.toNat_natCast] at hi hb
  have ha : a < c.w := by omega
  have ha' : a' < c.w := by omega
  have hw : 0 < c.w := by omega
  have e1 : (b / 8 * c.w + a) / c.w = b / 8 := by
    rw [Nat.mul_comm, Nat.mul_add_div hw, Nat.div_eq_of_lt ha, Nat.add_zero]
  have e2 : (b' / 8 * c.w + a') / c.w = b' / 8 := by
    rw [Nat.mul_comm, Nat.mul_add_div hw, Nat.div_eq_of_lt ha', Nat.add_zero]
  have m1 : (b / 8 * c.w + a) % c.w = a := by
    rw [Nat.mul_comm, Nat.mul_add_mod, Nat.mod_eq_of_lt ha]
  have m2 : (b' / 8 * c.w + a') % c.w = a' := by
    rw [Nat.mul_comm, Nat.mul_add_mod, Nat.mod_eq_of_lt ha']
  have hd : b / 8 = b' / 8 := by rw [← e1, ← e2, hi]
  have hm : a = a' := by rw [← m1, ← m2, hi]
  have hbb : b = b' := by omega
  exact ⟨by rw [hm], by rw [hbb]⟩

/-- What a pixel reads as after one pixel write. -/
theorem fbGet_fbSet (x y : Int) (c : Bool) (s : State) (x' y' : Int)
    (h' : inFb s.cfg x' y' = true) :
    fbGet (fbSet x y c s) x' y' = if x' = x ∧ y' = y then c else fbGet s x' y' := by
  have hk : pixelBit y' < 8 := Nat.mod_lt _ (by decide)
  unfold fbGet
  rw [fbSet_cfg, fbSet_bit _ _ _ _ _ _ hk]
  by_cases he : x' = x ∧ y' = y
  · obtain ⟨rfl, rfl⟩ := he
    simp [h']
  · rw [if_neg he, if_neg]
    rintro ⟨h, hi, hb⟩
    exact he (pixel_injective h' h hi hb)

/-- Painting, bit by bit of every byte of the frame buffer. -/
theorem paint_bit (p : Points) (c : Bool) (s : State) (i k : Nat) (hi : i < fbSize s.cfg)
    (hk : k < 8) :
    ((paint p c s).fb.read i).getLsbD k =
      if p ((i % s.cfg.w : Nat) : Int) ((8 * (i / s.cfg.w) + k : Nat) : Int) then c
      else (s.fb.read i).getLsbD k := by
  unfold paint
  simp only [Memory.read_remake, hi, if_true]
  rw [byteOf_getLsbD _ _ hk]

/-- Painting leaves every byte outside the frame buffer alone (R146). -/
theorem paint_read_out (p : Points) (c : Bool) (s : State) (i : Nat) (hi : ¬ i < fbSize s.cfg) :
    (paint p c s).fb.read i = s.fb.read i := by
  simp [paint, hi]

/-- The byte of an in-range pixel lies in the frame buffer when the height is a multiple of 8 (R61). -/
theorem pixelIndex_lt {c : Cfg} (h8 : c.h % 8 = 0) {x y : Int} (h : inFb c x y = true) :
    pixelIndex c x y < fbSize c := by
  rw [inFb_iff] at h
  obtain ⟨a, rfl⟩ := Int.eq_ofNat_of_zero_le h.1
  obtain ⟨b, rfl⟩ := Int.eq_ofNat_of_zero_le h.2.2.1
  simp only [pixelIndex, fbSize, pages, Int.toNat_natCast]
  have ha : a < c.w := by omega
  have hb : b / 8 + 1 ≤ c.h / 8 := by omega
  have hm := Nat.mul_le_mul_right c.w hb
  rw [Nat.add_mul, Nat.one_mul] at hm
  omega

/-- What a pixel reads as after painting: the colour on the point set, its old value elsewhere (R141). -/
theorem fbGet_paint (p : Points) (c : Bool) (s : State) (h8 : s.cfg.h % 8 = 0) (x y : Int)
    (h : inFb s.cfg x y = true) :
    fbGet (paint p c s) x y = if p x y then c else fbGet s x y := by
  have hk : pixelBit y < 8 := Nat.mod_lt _ (by decide)
  have hlt := pixelIndex_lt h8 h
  have h := (inFb_iff _ _ _).mp h
  unfold fbGet
  rw [paint_cfg, paint_bit p c s _ _ hlt hk]
  obtain ⟨a, rfl⟩ := Int.eq_ofNat_of_zero_le h.1
  obtain ⟨b, rfl⟩ := Int.eq_ofNat_of_zero_le h.2.2.1
  have ha : a < s.cfg.w := by omega
  have hw : 0 < s.cfg.w := by omega
  have m1 : (b / 8 * s.cfg.w + a) % s.cfg.w = a := by
    rw [Nat.mul_comm, Nat.mul_add_mod, Nat.mod_eq_of_lt ha]
  have d1 : (b / 8 * s.cfg.w + a) / s.cfg.w = b / 8 := by
    rw [Nat.mul_comm, Nat.mul_add_div hw, Nat.div_eq_of_lt ha, Nat.add_zero]
  simp only [pixelIndex, pixelBit, Int.toNat_natCast, m1, d1]
  have hb : 8 * (b / 8) + b % 8 = b := by omega
  rw [hb]

/-- Filling writes every byte of the frame buffer and no other (R131). -/
theorem fillBytes_read (v : Byte) (s : State) (i : Nat) :
    (fillBytes v s).fb.read i = if i < fbSize s.cfg then v else s.fb.read i := by
  simp

/-! ### Plotting a list of points -/

/-- Plotting changes the frame buffer only. -/
theorem plot_eq (ps : List (Int × Int)) (c : Bool) (s : State) :
    plot ps c s = { s with fb := (plot ps c s).fb } := by
  induction ps generalizing s with
  | nil => rfl
  | cons p ps ih =>
    show plot ps c (fbSet p.1 p.2 c s) = { s with fb := (plot ps c (fbSet p.1 p.2 c s)).fb }
    rw [ih]
    rw [fbSet_eq]

@[simp] theorem plot_cfg (ps : List (Int × Int)) (c : Bool) (s : State) :
    (plot ps c s).cfg = s.cfg := by rw [plot_eq]

/-- What a pixel reads as after plotting (R136). -/
theorem fbGet_plot (ps : List (Int × Int)) (c : Bool) (s : State) (x y : Int)
    (h : inFb s.cfg x y = true) :
    fbGet (plot ps c s) x y = if (x, y) ∈ ps then c else fbGet s x y := by
  induction ps generalizing s with
  | nil => simp [plot]
  | cons p ps ih =>
    show fbGet (plot ps c (fbSet p.1 p.2 c s)) x y = _
    rw [ih _ (by simpa using h), fbGet_fbSet _ _ _ _ _ _ h]
    obtain ⟨a, b⟩ := p
    by_cases h1 : (x, y) ∈ ps
    · simp [h1]
    · by_cases h2 : x = a ∧ y = b
      · simp [h2.1, h2.2]
      · simp [h1, h2]

/-- Plotting leaves every byte outside the frame buffer alone (R146). -/
theorem plot_read_out (ps : List (Int × Int)) (c : Bool) (s : State) (h8 : s.cfg.h % 8 = 0) (i : Nat)
    (hi : ¬ i < fbSize s.cfg) : (plot ps c s).fb.read i = s.fb.read i := by
  induction ps generalizing s with
  | nil => rfl
  | cons p ps ih =>
    show (plot ps c (fbSet p.1 p.2 c s)).fb.read i = _
    rw [ih _ (by simpa using h8) (by simpa using hi)]
    by_cases hin : inFb s.cfg p.1 p.2 = true
    · exact fbSet_read_other _ _ _ _ _ (fun e => hi (e ▸ pixelIndex_lt h8 hin))
    · simp [fbSet, hin]

/-! ### The canonical form -/

theorem paint_wf (p : Points) (c : Bool) {s : State} (h : s.fb.wf = true) :
    (paint p c s).fb.wf = true := Memory.wf_remake h _ _

theorem fillBytes_wf (v : Byte) {s : State} (h : s.fb.wf = true) :
    (fillBytes v s).fb.wf = true := Memory.wf_remake h _ _

theorem fbSet_wf (x y : Int) (c : Bool) {s : State} (h : s.fb.wf = true) :
    (fbSet x y c s).fb.wf = true := by
  unfold fbSet
  split
  · exact Memory.wf_write h _ _
  · exact h

theorem plot_wf (ps : List (Int × Int)) (c : Bool) {s : State} (h : s.fb.wf = true) :
    (plot ps c s).fb.wf = true := by
  induction ps generalizing s with
  | nil => exact h
  | cons p ps ih => exact ih (fbSet_wf _ _ _ h)

end Sys2Proof.Machine
end

