-- ==== Sys2Proof/Laws/Exec.lean ====
section
/-! SUPPORT. What any operation can do, said once: the events it makes and their format, what it answers,
and what it never changes (spec/30_encoding.md R96, R101, R102, spec/10_state.md R21, R30, R35). -/

namespace Sys2Proof.Machine

/-! ### The format of events -/

/-- An event of the selected variant (R101, R102). -/
def InFormat (c : Cfg) (e : WireEvent) : Prop :=
  match c.bus with
  | .a => ∃ bytes out, e = .ax (busAddr c) bytes out ∧
      ((∃ cmd, bytes = [0x80, cmd]) ∨
        ∃ d, bytes = 0x40 :: d ∧ 1 ≤ d.length ∧ d.length ≤ c.chunkA)
  | .b => (∃ l v, e = .bl l v) ∨
      ∃ bytes out, e = .bw bytes out ∧
        (bytes.length = 1 ∨ (1 ≤ bytes.length ∧ bytes.length ≤ c.chunkB))

theorem chunks_length_mem {l d : List Byte} {c : Nat} (h : d ∈ chunks l c) :
    1 ≤ d.length ∧ d.length ≤ c := by
  simp only [chunks, List.mem_map, List.mem_range] at h
  obtain ⟨k, hk, rfl⟩ := h
  have hc : 0 < c := by
    rcases Nat.eq_zero_or_pos c with h0 | h0
    · subst h0; simp at hk
    · exact h0
  have h1 : (k + 1) * c ≤ l.length + c - 1 := (Nat.le_div_iff_mul_le hc).mp hk
  rw [Nat.add_mul, Nat.one_mul] at h1
  simp only [List.length_take, List.length_drop]
  omega

theorem inFormat_okCmd (c : Cfg) (b : Byte) : ∀ e ∈ okCmd c b, InFormat c e := by
  unfold okCmd InFormat
  cases c.bus with
  | a =>
    simp only [List.mem_singleton]
    rintro e rfl
    exact ⟨_, _, rfl, .inl ⟨b, rfl⟩⟩
  | b =>
    simp only [List.mem_cons, List.not_mem_nil, or_false]
    rintro e (rfl | rfl | rfl | rfl | rfl)
    · exact .inl ⟨_, _, rfl⟩
    · exact .inl ⟨_, _, rfl⟩
    · exact .inl ⟨_, _, rfl⟩
    · exact .inr ⟨_, _, rfl, .inl rfl⟩
    · exact .inl ⟨_, _, rfl⟩

theorem inFormat_okCmds (c : Cfg) (bs : List Byte) : ∀ e ∈ okCmds c bs, InFormat c e := by
  intro e he
  obtain ⟨b, _, he⟩ := List.mem_flatMap.mp he
  exact inFormat_okCmd c b e he

theorem inFormat_okData (c : Cfg) (l : List Byte) : ∀ e ∈ okData c l, InFormat c e := by
  unfold okData InFormat
  cases c.bus with
  | a =>
    simp only [List.mem_map]
    rintro e ⟨d, hd, rfl⟩
    exact ⟨_, _, rfl, .inr ⟨d, rfl, chunks_length_mem hd⟩⟩
  | b =>
    simp only [List.mem_append, List.mem_map, List.mem_cons, List.not_mem_nil, or_false]
    rintro e (((rfl | rfl | rfl) | ⟨d, hd, rfl⟩) | rfl)
    · exact .inl ⟨_, _, rfl⟩
    · exact .inl ⟨_, _, rfl⟩
    · exact .inl ⟨_, _, rfl⟩
    · exact .inr ⟨_, _, rfl, .inr (chunks_length_mem hd)⟩
    · exact .inl ⟨_, _, rfl⟩

theorem inFormat_okFlush (c : Cfg) (page : Nat → List Byte) :
    ∀ e ∈ okFlush c page, InFormat c e := by
  intro e he
  obtain ⟨p, _, he⟩ := List.mem_flatMap.mp he
  rcases List.mem_append.mp he with he | he
  · exact inFormat_okCmds c _ e he
  · exact inFormat_okData c _ e he

theorem inFormat_okInit (c : Cfg) : ∀ e ∈ okInit c, InFormat c e := by
  intro e he
  rcases List.mem_append.mp he with he | he
  · rcases List.mem_append.mp he with he | he
    · unfold okPulse at he
      unfold InFormat
      cases hb : c.bus with
      | a => simp [hb] at he
      | b =>
        simp only [hb, List.mem_cons, List.not_mem_nil, or_false] at he
        rcases he with rfl | rfl | rfl <;> exact .inl ⟨_, _, rfl⟩
    · exact inFormat_okCmds c _ e he
  · exact inFormat_okFlush c _ e he

theorem inFormat_withOut {c : Cfg} {e : WireEvent} (h : InFormat c e) (a : Answer) :
    InFormat c (e.withOut a) := by
  revert h
  unfold InFormat
  cases c.bus with
  | a =>
    rintro ⟨bytes, out, rfl, hb⟩
    exact ⟨bytes, a, rfl, hb⟩
  | b =>
    rintro (⟨l, v, rfl⟩ | ⟨bytes, out, rfl, hb⟩)
    · exact .inl ⟨l, v, rfl⟩
    · exact .inr ⟨bytes, a, rfl, hb⟩

/-- What is played keeps the format. -/
theorem inFormat_play {c : Cfg} {es : List WireEvent} (f : Nat → Answer)
    (h : ∀ e ∈ es, InFormat c e) : ∀ e ∈ (playEvents f es).2.1, InFormat c e := by
  induction es generalizing f with
  | nil => simp [playEvents]
  | cons e es ih =>
    have he := h e (by simp)
    have hes : ∀ e ∈ es, InFormat c e := fun e' h' => h e' (by simp [h'])
    intro e' he'
    cases ht : e.isTransaction with
    | false =>
      rw [playEvents_line ht] at he'
      rcases List.mem_cons.mp he' with rfl | he'
      · exact he
      · exact ih f hes e' he'
    | true =>
      by_cases h0 : f 0 = some .ok
      · rw [playEvents_next ht h0] at he'
        rcases List.mem_cons.mp he' with rfl | he'
        · exact inFormat_withOut he _
        · exact ih _ hes e' he'
      · rw [playEvents_last ht h0] at he'
        rcases List.mem_singleton.mp he' with rfl
        exact inFormat_withOut he _

/-- An event an operation makes: a line change or a transaction. -/
abbrev Busy (es : List WireEvent) : Prop := ∀ e ∈ es, e ≠ .rst

/-- What is played: either no event lacks its outcome, or the last one does and the operation never
returns (R31, R75, R223). -/
theorem playEvents_settled (f : Nat → Answer) {es : List WireEvent} (hes : AllOk es) :
    (∀ e ∈ (playEvents f es).2.1, e.pending = false) ∨
      ((playEvents f es).1 = none ∧ ∃ fs e, (playEvents f es).2.1 = fs ++ [e] ∧
        ∀ e ∈ fs, e.pending = false) := by
  have hpend : ∀ (e : WireEvent) (a : Ack), (e.withOut (some a)).pending = false := by
    intro e a; cases e <;> rfl
  induction es generalizing f with
  | nil => exact .inl (by simp [playEvents])
  | cons e es ih =>
    have he : e.pending = false := by
      rw [← hes e (by simp)]; exact hpend e .ok
    have hes' : AllOk es := fun e' h' => hes e' (by simp [h'])
    cases ht : e.isTransaction with
    | false =>
      rw [playEvents_line ht]
      rcases ih f hes' with h | ⟨h1, fs, e', h2, h3⟩
      · left
        intro e' he'
        rcases List.mem_cons.mp he' with rfl | he'
        · exact he
        · exact h e' he'
      · right
        refine ⟨h1, e :: fs, e', by simp [h2], ?_⟩
        intro e'' he''
        rcases List.mem_cons.mp he'' with rfl | he''
        · exact he
        · exact h3 e'' he''
    | true =>
      by_cases h0 : f 0 = some .ok
      · rw [playEvents_next ht h0]
        rcases ih (fun j => f (j + 1)) hes' with h | ⟨h1, fs, e', h2, h3⟩
        · left
          intro e' he'
          rcases List.mem_cons.mp he' with rfl | he'
          · exact hpend e .ok
          · exact h e' he'
        · right
          refine ⟨h1, e.withOut (some .ok) :: fs, e', by simp [h2], ?_⟩
          intro e'' he''
          rcases List.mem_cons.mp he'' with rfl | he''
          · exact hpend e .ok
          · exact h3 e'' he''
      · rw [playEvents_last ht h0]
        cases ha : f 0 with
        | some a => exact .inl (by simp [hpend])
        | none => exact .inr ⟨rfl, [], _, rfl, by simp⟩

/-! ### Every operation -/

/-- What an operation that leads from `s` to `t` can do. It plays the events `es`, and the lines, where
they exist, follow them (R225); it keeps the configuration and what the host does next, and leaves no
STRIP where there was none; where it is stalled it leaves the block busy (R223). -/
structure Effect (s t : State) (es : List WireEvent) : Prop where
  allOk : AllOk es
  format : ∀ e ∈ es, InFormat s.cfg e
  wire : t.wire = s.wire ++ (playEvents (busAnswer s) es).2.1
  lines : t.lines = s.lines.map (linesAfter (playEvents (busAnswer s) es).2.1)
  cfg : t.cfg = s.cfg
  inbox : t.inbox = s.inbox
  strip : s.strip = none → t.strip = none
  stalled : (playEvents (busAnswer s) es).1 = none → t.busy = true

/-- What a host operation answers (R96, R223). -/
inductive Answers (s t : State) : Prop where
  | response (st : Status) (result : List Byte) (busy : t.busy = false)
      (resp : t.resp = s.resp ++ [statusByte st :: result]) (ok : st ≠ .ok → result = [])
  | stall (busy : t.busy = true) (resp : t.resp = s.resp)

theorem effect_of_moves {s : State} {es : List WireEvent} {r : TpRes} (h : Moves s es r)
    (hes : AllOk es) (hf : ∀ e ∈ es, InFormat s.cfg e) : Effect s r.st es := by
  refine ⟨hes, hf, h.wire, h.lines, h.cfg, h.inbox, fun hs => by rw [h.strip, hs], fun hn => ?_⟩
  rw [h.busy, h.ret, hn]
  simp

theorem effect_finish {s : State} {es : List WireEvent} {r : TpRes} (h : Moves s es r)
    (hes : AllOk es) (hf : ∀ e ∈ es, InFormat s.cfg e) : Effect s (finish r) es := by
  have he := effect_of_moves h hes hf
  unfold finish
  split
  next hr =>
    exact ⟨hes, hf, he.wire, he.lines, he.cfg, he.inbox, he.strip, fun hn => by
      rw [← h.ret, hr] at hn; cases hn⟩
  next hr =>
    exact ⟨hes, hf, he.wire, he.lines, he.cfg, he.inbox, he.strip, fun hn => by
      rw [← h.ret, hr] at hn; cases hn⟩
  next => exact he

theorem answers_finish {s : State} {es : List WireEvent} {r : TpRes} (h : Moves s es r) :
    Answers s (finish r) := by
  unfold finish
  split
  next => exact .response .ok [] rfl (by simp [h.resp]) (fun e => absurd rfl e)
  next => exact .response .busFail [] rfl (by simp [h.resp]) (fun _ => rfl)
  next hr => exact .stall (by rw [h.busy, hr]; simp) h.resp

theorem effect_finishInit {s : State} {es : List WireEvent} {r : TpRes} (h : Moves s es r)
    (hes : AllOk es) (hf : ∀ e ∈ es, InFormat s.cfg e) : Effect s (finishInit r) es := by
  have he := effect_of_moves h hes hf
  unfold finishInit
  split
  next hr =>
    exact ⟨hes, hf, he.wire, he.lines, he.cfg, he.inbox, he.strip, fun hn => by
      rw [← h.ret, hr] at hn; cases hn⟩
  next hr =>
    exact ⟨hes, hf, he.wire, he.lines, he.cfg, he.inbox, he.strip, fun hn => by
      rw [← h.ret, hr] at hn; cases hn⟩
  next => exact he

theorem answers_finishInit {s : State} {es : List WireEvent} {r : TpRes} (h : Moves s es r) :
    Answers s (finishInit r) := by
  unfold finishInit
  split
  next => exact .response .ok [] rfl (by simp [h.resp]) (fun e => absurd rfl e)
  next => exact .response .busFail [] rfl (by simp [h.resp]) (fun _ => rfl)
  next hr => exact .stall (by rw [h.busy, hr]; simp) h.resp

/-- An operation that only answers plays no event. -/
theorem effect_quiet {s t : State} (hw : t.wire = s.wire) (hl : t.lines = s.lines)
    (hc : t.cfg = s.cfg) (hi : t.inbox = s.inbox) (hs : s.strip = none → t.strip = none) :
    Effect s t [] :=
  ⟨by simp [AllOk], by simp, by simp [playEvents, hw],
    by simp [playEvents, hl, show linesAfter [] = id from rfl], hc, hi, hs, by simp [playEvents]⟩

theorem effect_gated {op : State → State} {s : State} {es : List WireEvent}
    (h : s.life = .ready → Effect s (op s) es) : ∃ es, Effect s (gated op s) es := by
  unfold gated
  split
  next hl => exact ⟨es, h hl⟩
  next => exact ⟨[], effect_quiet rfl rfl rfl rfl id⟩

theorem answers_gated {op : State → State} {s : State} (h : Answers s (op s)) :
    Answers s (gated op s) := by
  unfold gated
  split
  · exact h
  · exact .response .notReady [] rfl rfl (fun _ => rfl)

/-- Sending the bytes of a device command has the effect of its events. -/
theorem moves_sendDevice (i : Instr) (s : State) :
    Moves s (okCmds s.cfg (encode i)) (sendDevice i s) := (plays_sendDevice i s).toMoves

/-- The two device commands of ROTATE, one after the other (R180). -/
theorem plays_rotate (f : Bool) (s : State) :
    Plays s (okCmds s.cfg (encode (.devComDir f) ++ encode (.devSegRemap f)))
      ((sendDevice (.devComDir f) s).andThen (sendDevice (.devSegRemap f))) := by
  have h := (plays_sendDevice (.devComDir f) s).andThen
    (fs := okCmds s.cfg (encode (.devSegRemap f)))
    (next := sendDevice (.devSegRemap f)) (fun t ht _ => by
      rw [← ht]; exact plays_sendDevice _ t)
  rw [show okCmds s.cfg (encode (.devComDir f) ++ encode (.devSegRemap f)) =
    okCmds s.cfg (encode (.devComDir f)) ++ okCmds s.cfg (encode (.devSegRemap f)) from
      List.flatMap_append]
  exact h

/-- What every operation can do. -/
theorem exec_effect {i : Instr} {s t : State} (h : exec i s = .next t) : ∃ es, Effect s t es := by
  have quiet : ∀ {op : State → State},
      Host.Outcome.next (gated op s) = (.next t : Host.Outcome State Fault Refusal) →
      (∀ s, (op s).wire = s.wire) → (∀ s, (op s).lines = s.lines) → (∀ s, (op s).cfg = s.cfg) →
      (∀ s, (op s).inbox = s.inbox) → (∀ s, s.strip = none → (op s).strip = none) →
      ∃ es, Effect s t es := by
    intro op h hw hl hc hi hs
    rw [← Host.Outcome.next.inj h]
    exact effect_gated (fun _ => effect_quiet (hw s) (hl s) (hc s) (hi s) (hs s))
  have device : ∀ {i : Instr}, Host.Outcome.next (sendDevice i s).st =
      (.next t : Host.Outcome State Fault Refusal) → ∃ es, Effect s t es := by
    intro i h
    rw [← Host.Outcome.next.inj h]
    exact ⟨_, effect_of_moves (moves_sendDevice i s) (allOk_okCmds _ _) (inFormat_okCmds _ _)⟩
  have toggle : ∀ {i : Instr}, Host.Outcome.next (gated (fun s => finish (sendDevice i s)) s) =
      (.next t : Host.Outcome State Fault Refusal) → ∃ es, Effect s t es := by
    intro i h
    rw [← Host.Outcome.next.inj h]
    exact effect_gated (fun _ =>
      effect_finish (moves_sendDevice i s) (allOk_okCmds _ _) (inFormat_okCmds _ _))
  cases i
  case fill => exact quiet h (fun _ => rfl) (fun _ => rfl) (fun _ => rfl) (fun _ => rfl) (fun _ => id)
  case setPixel x y c =>
    exact quiet h (fun s => by simp) (fun s => by simp) (fun s => by simp) (fun s => by simp)
      (fun s => by simp)
  case getPixel => exact quiet h (fun _ => rfl) (fun _ => rfl) (fun _ => rfl) (fun _ => rfl) (fun _ => id)
  case hline => exact quiet h (fun _ => rfl) (fun _ => rfl) (fun _ => rfl) (fun _ => rfl) (fun _ => id)
  case vline => exact quiet h (fun _ => rfl) (fun _ => rfl) (fun _ => rfl) (fun _ => rfl) (fun _ => id)
  case line =>
    exact quiet h (fun s => by simp only [respond_wire]; rw [plot_eq])
      (fun s => by simp only [respond_lines]; rw [plot_eq])
      (fun s => by simp only [respond_cfg]; rw [plot_eq])
      (fun s => by simp only [respond_inbox]; rw [plot_eq])
      (fun s => by simp only [respond_strip]; rw [plot_eq]; exact id)
  case rect => exact quiet h (fun _ => rfl) (fun _ => rfl) (fun _ => rfl) (fun _ => rfl) (fun _ => id)
  case fillRect => exact quiet h (fun _ => rfl) (fun _ => rfl) (fun _ => rfl) (fun _ => rfl) (fun _ => id)
  case drawText x y c text =>
    rw [← Host.Outcome.next.inj h]
    exact effect_gated (fun _ => effect_quiet rfl rfl rfl rfl id)
  case blit => exact quiet h (fun _ => rfl) (fun _ => rfl) (fun _ => rfl) (fun _ => rfl) (fun _ => id)
  case init =>
    rw [← Host.Outcome.next.inj h]
    unfold initOp
    split
    · exact ⟨[], effect_quiet rfl rfl rfl rfl id⟩
    · exact ⟨[], effect_quiet rfl rfl rfl rfl id⟩
    · split
      · exact ⟨_, effect_finishInit (moves_initRun s) (allOk_okInit _) (inFormat_okInit _)⟩
      · exact ⟨[], effect_quiet rfl rfl rfl rfl id⟩
  case showBuffer =>
    rw [← Host.Outcome.next.inj h]
    exact effect_gated (fun _ =>
      effect_finish (plays_flush s).toMoves (allOk_okFlush _ _) (inFormat_okFlush _ _))
  case powerOff => exact toggle h
  case powerOn => exact toggle h
  case contrast => exact toggle h
  case invert => exact toggle h
  case rotate f =>
    rw [← Host.Outcome.next.inj h]
    exact effect_gated (fun _ =>
      effect_finish ((plays_rotate f s).toMoves) (allOk_okCmds _ _) (inFormat_okCmds _ _))
  case drawScaledText =>
    exact quiet h (fun _ => rfl) (fun _ => rfl) (fun _ => rfl) (fun _ => rfl) (fun _ _ => rfl)
  case drawTextMax text =>
    refine quiet h (fun s => ?_) (fun s => ?_) (fun s => ?_) (fun s => ?_) (fun s hs => ?_)
    · split <;> rfl
    · split <;> rfl
    · split <;> rfl
    · split <;> rfl
    · split
      · exact hs
      · rfl
  case decodeFrame =>
    rw [← Host.Outcome.next.inj h]
    exact ⟨[], effect_quiet rfl rfl rfl rfl id⟩
  case tpCmd b =>
    rw [← Host.Outcome.next.inj h]
    exact ⟨_, effect_of_moves (plays_tpCmd b s).toMoves (allOk_okCmd _ _) (inFormat_okCmd _ _)⟩
  case tpData l =>
    simp only [exec, execTpData] at h
    split at h
    · cases h
    · rw [← Host.Outcome.next.inj h]
      exact ⟨_, effect_of_moves (plays_tpData l s).toMoves (allOk_okData _ _) (inFormat_okData _ _)⟩
  all_goals exact device h

/-- What every host operation answers: one response, or nothing for ever (R96, R223). -/
theorem exec_answers {i : Instr} {s t : State} (hp : i.port = .host) (h : exec i s = .next t) :
    Answers s t := by
  have draw : ∀ {op : State → State}, Host.Outcome.next (gated op s) =
        (.next t : Host.Outcome State Fault Refusal) →
      (∀ s, (op s).busy = false) → (∀ s, (op s).resp = s.resp ++ [statusByte .ok :: []]) →
      Answers s t := by
    intro op h hb hr
    rw [← Host.Outcome.next.inj h]
    exact answers_gated (.response .ok [] (hb s) (hr s) (fun _ => rfl))
  have toggle : ∀ {i : Instr}, Host.Outcome.next (gated (fun s => finish (sendDevice i s)) s) =
      (.next t : Host.Outcome State Fault Refusal) → Answers s t := by
    intro i h
    rw [← Host.Outcome.next.inj h]
    exact answers_gated (answers_finish (moves_sendDevice i s))
  cases i
  case fill => exact draw h (fun _ => rfl) (fun _ => rfl)
  case setPixel => exact draw h (fun _ => rfl) (fun _ => by simp)
  case getPixel =>
    rw [← Host.Outcome.next.inj h]
    exact answers_gated (.response .ok _ rfl rfl (fun e => absurd rfl e))
  case hline => exact draw h (fun _ => rfl) (fun _ => rfl)
  case vline => exact draw h (fun _ => rfl) (fun _ => rfl)
  case line => exact draw h (fun _ => rfl) (fun _ => by simp only [respond_resp]; rw [plot_eq])
  case rect => exact draw h (fun _ => rfl) (fun _ => rfl)
  case fillRect => exact draw h (fun _ => rfl) (fun _ => rfl)
  case drawText =>
    rw [← Host.Outcome.next.inj h]
    exact answers_gated (.response .ok [] rfl rfl (fun _ => rfl))
  case blit => exact draw h (fun _ => rfl) (fun _ => rfl)
  case init =>
    rw [← Host.Outcome.next.inj h]
    unfold initOp
    split
    · exact .response .alreadyInit [] rfl rfl (fun _ => rfl)
    · exact .response .notReady [] rfl rfl (fun _ => rfl)
    · split
      · exact answers_finishInit (moves_initRun s)
      · exact .response .badConfig [] rfl rfl (fun _ => rfl)
  case showBuffer =>
    rw [← Host.Outcome.next.inj h]
    exact answers_gated (answers_finish (plays_flush s).toMoves)
  case powerOff => exact toggle h
  case powerOn => exact toggle h
  case contrast => exact toggle h
  case invert => exact toggle h
  case rotate f =>
    rw [← Host.Outcome.next.inj h]
    exact answers_gated (answers_finish ((plays_rotate f s).toMoves))
  case drawScaledText => exact draw h (fun _ => rfl) (fun _ => rfl)
  case drawTextMax text =>
    rw [← Host.Outcome.next.inj h]
    refine answers_gated ?_
    split
    · exact .response .badArg [] rfl rfl (fun _ => rfl)
    · exact .response .ok [] rfl rfl (fun _ => rfl)
  case decodeFrame =>
    rw [← Host.Outcome.next.inj h]
    exact .response .ok _ rfl rfl (fun e => absurd rfl e)
  all_goals cases hp

/-! ### The frame buffer and LIFE -/

theorem finish_fb (r : TpRes) : (finish r).fb = r.st.fb := by
  unfold finish; split <;> rfl

theorem finish_life (r : TpRes) : (finish r).life = r.st.life := by
  unfold finish; split <;> rfl

theorem finishInit_fb (r : TpRes) : (finishInit r).fb = r.st.fb := by
  unfold finishInit; split <;> rfl

/-- What an operation can do to the frame buffer: nothing, rewrite the bytes of [0, P × W), or plot a list
of points when the block is READY (R146). -/
inductive FbChange (s t : State) : Prop where
  | same (h : t.fb = s.fb)
  | remade (g : Nat → Byte) (h : t.fb = s.fb.remake (fbSize s.cfg) g)
  | plotted (ps : List (Int × Int)) (c : Bool) (life : s.life = .ready) (h : t.fb = (plot ps c s).fb)

theorem fbChange_gated {op : State → State} {s : State} (h : s.life = .ready → FbChange s (op s)) :
    FbChange s (gated op s) := by
  unfold gated
  split
  next hl => exact h hl
  next => exact .same rfl

theorem fbChange_initRun (s : State) : FbChange s (initRun s).st := by
  have key : ∀ u : State, u.cfg = s.cfg → u.fb = s.fb →
      FbChange s ((sendCmds (initSeq u.cfg) u).andThen (fun s => flush (fillBytes 0x00 s))).st := by
    intro u hu hf
    have hm := plays_sendCmds (initSeq u.cfg) u
    unfold TpRes.andThen
    split
    · refine .remade (fun _ => 0) ?_
      rw [(plays_flush _).fb, fillBytes_fb, hm.cfg, hm.fb, hu, hf]
    · exact .same (by rw [hm.fb, hf])
    · exact .same (by rw [hm.fb, hf])
  unfold initRun
  cases s.cfg.bus with
  | a => exact key s rfl rfl
  | b => exact key (busBResetPulse s) rfl rfl

/-- What every operation can do to the frame buffer. -/
theorem exec_fb {i : Instr} {s t : State} (h : exec i s = .next t) : FbChange s t := by
  have gate : ∀ {op : State → State}, Host.Outcome.next (gated op s) =
      (.next t : Host.Outcome State Fault Refusal) → (s.life = .ready → FbChange s (op s)) →
      FbChange s t := by
    intro op h ho
    rw [← Host.Outcome.next.inj h]
    exact fbChange_gated ho
  have device : ∀ {i : Instr}, Host.Outcome.next (sendDevice i s).st =
      (.next t : Host.Outcome State Fault Refusal) → FbChange s t := by
    intro i h
    rw [← Host.Outcome.next.inj h]
    exact .same (plays_sendDevice i s).fb
  have toggle : ∀ {i : Instr}, Host.Outcome.next (gated (fun s => finish (sendDevice i s)) s) =
      (.next t : Host.Outcome State Fault Refusal) → FbChange s t := by
    intro i h
    exact gate h (fun _ => .same ((finish_fb _).trans (plays_sendDevice i s).fb))
  cases i
  case fill => exact gate h (fun _ => .remade _ rfl)
  case setPixel x y c => exact gate h (fun hl => .plotted [(s16 x, s16 y)] c hl rfl)
  case getPixel => exact gate h (fun _ => .same rfl)
  case hline => exact gate h (fun _ => .remade _ rfl)
  case vline => exact gate h (fun _ => .remade _ rfl)
  case line => exact gate h (fun hl => .plotted _ _ hl rfl)
  case rect => exact gate h (fun _ => .remade _ rfl)
  case fillRect => exact gate h (fun _ => .remade _ rfl)
  case drawText => exact gate h (fun _ => .remade _ rfl)
  case blit => exact gate h (fun _ => .remade _ rfl)
  case init =>
    rw [← Host.Outcome.next.inj h]
    unfold initOp
    split
    · exact .same rfl
    · exact .same rfl
    · split
      · cases fbChange_initRun s with
        | same h => exact .same (by rw [finishInit_fb, h])
        | remade g h => exact .remade g (by rw [finishInit_fb, h])
        | plotted ps c hl h => exact .plotted ps c hl (by rw [finishInit_fb, h])
      · exact .same rfl
  case showBuffer => exact gate h (fun _ => .same ((finish_fb _).trans (plays_flush s).fb))
  case powerOff => exact toggle h
  case powerOn => exact toggle h
  case contrast => exact toggle h
  case invert => exact toggle h
  case rotate f => exact gate h (fun _ => .same ((finish_fb _).trans (plays_rotate f s).fb))
  case drawScaledText => exact gate h (fun _ => .remade _ rfl)
  case drawTextMax text =>
    refine gate h (fun _ => ?_)
    split
    · exact .same rfl
    · exact .remade _ rfl
  case decodeFrame => rw [← Host.Outcome.next.inj h]; exact .same rfl
  case tpCmd b => rw [← Host.Outcome.next.inj h]; exact .same (plays_tpCmd b s).fb
  case tpData l =>
    simp only [exec, execTpData] at h
    split at h
    · cases h
    · rw [← Host.Outcome.next.inj h]; exact .same (plays_tpData l s).fb
  all_goals exact device h

/-- Plotting lists no byte outside the frame buffer (R146). -/
theorem plot_bounded (ps : List (Int × Int)) (c : Bool) {s : State} (h8 : s.cfg.h % 8 = 0)
    (hb : ∀ e ∈ s.fb, e.1 < fbSize s.cfg) : ∀ e ∈ (plot ps c s).fb, e.1 < fbSize s.cfg := by
  induction ps generalizing s with
  | nil => exact hb
  | cons p ps ih =>
    have := ih (s := fbSet p.1 p.2 c s) (by simpa using h8)
    simp only [fbSet_cfg] at this
    refine this (fun e he => ?_)
    unfold fbSet at he
    split at he
    next hin =>
      rcases Memory.mem_write he with h | h
      · exact hb e h
      · rw [h]; exact pixelIndex_lt h8 hin
    next => exact hb e he

/-- Every change of the frame buffer keeps its canonical form and lists no byte outside [0, P × W). -/
theorem FbChange.keeps {s t : State} (h : FbChange s t) (hw : s.fb.wf = true)
    (hb : ∀ c ∈ s.fb, c.1 < fbSize s.cfg) (h8 : s.life = .ready → s.cfg.h % 8 = 0) :
    t.fb.wf = true ∧ ∀ c ∈ t.fb, c.1 < fbSize s.cfg := by
  cases h with
  | same h => rw [h]; exact ⟨hw, hb⟩
  | remade g h =>
    rw [h]
    refine ⟨Memory.wf_remake hw _ _, fun c hc => ?_⟩
    rcases Memory.mem_remake.mp hc with h | h
    · exact h.1
    · exact hb c h.1
  | plotted ps c hl h => rw [h]; exact ⟨plot_wf _ _ hw, plot_bounded _ _ (h8 hl) hb⟩

/-- The only operation that can change LIFE is INIT in UNINIT, which leaves READY only if the
configuration is legal (R27, R170). -/
theorem exec_life {i : Instr} {s t : State} (h : exec i s = .next t) :
    t.life = s.life ∨
      (i = .init ∧ s.life = .uninit ∧ (t.life = .ready → configLegal s.cfg = true)) := by
  have gate : ∀ {op : State → State}, Host.Outcome.next (gated op s) =
      (.next t : Host.Outcome State Fault Refusal) → (op s).life = s.life → t.life = s.life := by
    intro op h ho
    rw [← Host.Outcome.next.inj h]
    unfold gated
    split
    · exact ho
    · rfl
  have device : ∀ {i : Instr}, Host.Outcome.next (sendDevice i s).st =
      (.next t : Host.Outcome State Fault Refusal) → t.life = s.life := by
    intro i h
    rw [← Host.Outcome.next.inj h]
    exact (plays_sendDevice i s).life
  have toggle : ∀ {i : Instr}, Host.Outcome.next (gated (fun s => finish (sendDevice i s)) s) =
      (.next t : Host.Outcome State Fault Refusal) → t.life = s.life := by
    intro i h
    exact gate h ((finish_life _).trans (plays_sendDevice i s).life)
  cases i
  case init =>
    rw [← Host.Outcome.next.inj h]
    unfold initOp
    split
    · exact .inl rfl
    · exact .inl rfl
    next hu =>
      refine .inr ⟨rfl, hu, ?_⟩
      split
      next hc => exact fun _ => hc
      next => intro h; cases h
  case setPixel => exact .inl (gate h (by simp))
  case line => exact .inl (gate h (by simp only [respond_life]; rw [plot_eq]))
  case drawTextMax => exact .inl (gate h (by split <;> rfl))
  case showBuffer => exact .inl (gate h ((finish_life _).trans (plays_flush s).life))
  case powerOff => exact .inl (toggle h)
  case powerOn => exact .inl (toggle h)
  case contrast => exact .inl (toggle h)
  case invert => exact .inl (toggle h)
  case rotate f => exact .inl (gate h ((finish_life _).trans (plays_rotate f s).life))
  case decodeFrame => rw [← Host.Outcome.next.inj h]; exact .inl rfl
  case tpCmd b => rw [← Host.Outcome.next.inj h]; exact .inl (plays_tpCmd b s).life
  case tpData l =>
    simp only [exec, execTpData] at h
    split at h
    · cases h
    · rw [← Host.Outcome.next.inj h]; exact .inl (plays_tpData l s).life
  all_goals first | exact .inl (device h) | exact .inl (gate h rfl)

end Sys2Proof.Machine
end

