-- ==== Sys2Proof/Laws/PerInstr.lean ====
section
/-! SUPPORT. For every operation: it is as many bytes long as the table of its code space says
(spec/30_encoding.md R93, R100, R103). -/

namespace Sys2Proof.Laws.EncodedSize

/-- The bytes of the operation are `Instr.size` many. -/
def Statement (i : Instr) : Prop := (encode i).length = i.size

theorem fill (c : Bool) : Statement (.fill c) := rfl

theorem setPixel (x y : Half) (c : Bool) : Statement (.setPixel x y c) := rfl

theorem getPixel (x y : Half) : Statement (.getPixel x y) := rfl

theorem hline (x y w : Half) (c : Bool) : Statement (.hline x y w c) := rfl

theorem vline (x y h : Half) (c : Bool) : Statement (.vline x y h c) := rfl

theorem line (x1 y1 x2 y2 : Half) (c : Bool) : Statement (.line x1 y1 x2 y2 c) := rfl

theorem rect (x y w h : Half) (c : Bool) : Statement (.rect x y w h c) := rfl

theorem fillRect (x y w h : Half) (c : Bool) : Statement (.fillRect x y w h c) := rfl

theorem drawText (x y : Half) (c : Bool) (text : List Byte) : Statement (.drawText x y c text) := by
  simp [Statement, encode, halfBytes, Instr.size]
  omega

theorem blit (x y sw sh : Half) (src : List Byte) : Statement (.blit x y sw sh src) := by
  simp [Statement, encode, halfBytes, Instr.size]
  omega

theorem init : Statement .init := rfl

theorem showBuffer : Statement .showBuffer := rfl

theorem powerOff : Statement .powerOff := rfl

theorem powerOn : Statement .powerOn := rfl

theorem contrast (v : Half) : Statement (.contrast v) := rfl

theorem invert (f : Bool) : Statement (.invert f) := rfl

theorem rotate (f : Bool) : Statement (.rotate f) := rfl

theorem drawScaledText (x y scale : Half) (c : Bool) (text : List Byte) : Statement (.drawScaledText x y scale c text) := by
  simp [Statement, encode, halfBytes, Instr.size]
  omega

theorem drawTextMax (text : List Byte) : Statement (.drawTextMax text) := by
  simp [Statement, encode, Instr.size]
  omega

theorem decodeFrame (frame : List Byte) : Statement (.decodeFrame frame) := by
  simp [Statement, encode, halfBytes, Instr.size]
  omega

theorem tpCmd (b : Byte) : Statement (.tpCmd b) := rfl

theorem tpData (l : List Byte) : Statement (.tpData l) := by
  simp [Statement, encode, Instr.size]
  omega

theorem devContrast (v : Byte) : Statement (.devContrast v) := rfl

theorem devEntireOn : Statement .devEntireOn := rfl

theorem devNormInv (i : Bool) : Statement (.devNormInv i) := rfl

theorem devDisplay (d : Bool) : Statement (.devDisplay d) := rfl

theorem devMemAddrMode (mode : Byte) : Statement (.devMemAddrMode mode) := rfl

theorem devColAddr (first last : Byte) : Statement (.devColAddr first last) := rfl

theorem devPageAddr (first last : Byte) : Statement (.devPageAddr first last) := rfl

theorem devStartLine (line : BitVec 6) : Statement (.devStartLine line) := rfl

theorem devSegRemap (r : Bool) : Statement (.devSegRemap r) := rfl

theorem devMuxRatio (ratio : Byte) : Statement (.devMuxRatio ratio) := rfl

theorem devComDir (d : Bool) : Statement (.devComDir d) := rfl

theorem devDispOffset (offset : Byte) : Statement (.devDispOffset offset) := rfl

theorem devComPins (pins : Byte) : Statement (.devComPins pins) := rfl

theorem devClkDiv (divide : Byte) : Statement (.devClkDiv divide) := rfl

theorem devPrecharge (period : Byte) : Statement (.devPrecharge period) := rfl

theorem devVcomDesel (level : Byte) : Statement (.devVcomDesel level) := rfl

theorem devChargePump (setting : Byte) : Statement (.devChargePump setting) := rfl

end Sys2Proof.Laws.EncodedSize
end

