-- ==== Sys2Proof/Laws/Step.lean ====
section
/-! SUPPORT. What a step can do, said once, and small facts about the fetch, reset and the configuration
(spec/10_state.md R35, spec/30_encoding.md R90, R100, spec/70_reset_and_hazards.md R310). -/

namespace Sys2Proof.Machine

/-- What a step that leads from `s` to `t` did. -/
inductive Stepped (s t : State) : Prop where
  /-- Nothing: the block waits (R311, R223). -/
  | waited (idle : s.busy = true ∨ (s.port = none ∧ s.inbox = [])) (h : t = s)
  /-- It ran the operation in the internal port (R100). -/
  | port (r : PortReq) (i : Instr) (idle : s.busy = false) (held : s.port = some r)
      (dec : decode (portBytes r).1 s.cfg.maxReq (portBytes r).2 = .ok i)
      (run : exec i { s with port := none } = .next t)
  /-- It served the host's next request (R90). -/
  | request (op : Byte) (args : List Byte) (rest : List HostEvent) (i : Instr) (idle : s.busy = false)
      (held : s.port = none) (next : s.inbox = .request op args :: rest)
      (dec : decode .host s.cfg.maxReq (op :: args) = .ok i)
      (run : exec i { s with inbox := rest, busy := true } = .next t)
  /-- It answered a request that does not decode (R281). -/
  | rejected (op : Byte) (args : List Byte) (rest : List HostEvent) (e : DecodeError)
      (idle : s.busy = false) (held : s.port = none) (next : s.inbox = .request op args :: rest)
      (dec : decode .host s.cfg.maxReq (op :: args) = .error e)
      (h : t = raiseStatus (decodeStatus e) { s with inbox := rest, busy := true })
  /-- It was reset (R310). -/
  | reset (inputs : Cfg) (inbox : List HostEvent)
      (asked : s.busy = true ∨ s.inbox.head? = some (.reset inputs) ∨
        ∃ op args n, s.inbox.head? = some (.resetDuring op args n inputs))
      (h : t = resetBlock inputs { s with inbox := inbox })
  /-- It was reset while it served the host's next request (R310). -/
  | cut (op : Byte) (args : List Byte) (n : Nat) (inputs : Cfg) (rest : List HostEvent) (i : Instr)
      (u : State) (idle : s.busy = false) (held : s.port = none)
      (next : s.inbox = .resetDuring op args n inputs :: rest)
      (dec : decode .host s.cfg.maxReq (op :: args) = .ok i)
      (run : exec i { s with inbox := rest, busy := true } = .next u)
      (h : t = abandon n inputs { s with inbox := rest, busy := true } u)

/-- What every step can do. -/
theorem step_cases {s t : State} (h : step s = .next t) : Stepped s t := by
  unfold step fetch at h
  by_cases hb : s.busy = true
  · rw [if_pos hb] at h
    cases hr : takeReset s.inbox with
    | none =>
      rw [hr] at h
      exact .waited (.inl hb) (Host.Outcome.next.inj h).symm
    | some r =>
      obtain ⟨inputs, rest⟩ := r
      rw [hr] at h
      exact .reset inputs rest (.inl hb) (Host.Outcome.next.inj h).symm
  · rw [if_neg hb] at h
    have hb : s.busy = false := by simpa using hb
    cases hp : s.port with
    | some r =>
      rw [hp] at h
      simp only [fetchPort] at h
      cases hd : decode (portBytes r).1 s.cfg.maxReq (portBytes r).2 with
      | ok i => rw [hd] at h; exact .port r i hb hp hd h
      | error e => rw [hd] at h; cases h
    | none =>
      rw [hp] at h
      cases hi : s.inbox with
      | nil =>
        rw [hi] at h
        exact .waited (.inr ⟨hp, hi⟩) (Host.Outcome.next.inj h).symm
      | cons e rest =>
        rw [hi] at h
        cases e with
        | request op args =>
          simp only [fetchRequest] at h
          cases hd : decode .host s.cfg.maxReq (op :: args) with
          | ok i =>
            rw [hd] at h
            exact .request op args rest i hb hp hi hd (by rw [hp]; exact h)
          | error e =>
            rw [hd] at h
            refine .rejected op args rest e hb hp hi hd ?_
            rw [hp]
            exact (Host.Outcome.next.inj h).symm
        | reset inputs =>
          exact .reset inputs rest (.inr (.inl (by rw [hi]; rfl))) (Host.Outcome.next.inj h).symm
        | resetDuring op args n inputs =>
          simp only [fetchCut] at h
          cases hd : decode .host s.cfg.maxReq (op :: args) with
          | ok i =>
            rw [hd] at h
            simp only [cutShort] at h
            split at h
            next u hu =>
              refine .cut op args n inputs rest i u hb hp hi hd (by rw [hp]; exact hu) ?_
              rw [hp]
              exact (Host.Outcome.next.inj h).symm
            next => cases h
            next => cases h
          | error e =>
            rw [hd] at h
            exact .reset inputs rest (.inr (.inr ⟨op, args, n, by rw [hi]; rfl⟩))
              (Host.Outcome.next.inj h).symm

/-! ### Fetch -/

/-- A busy block with only requests before it finds no reset (R35). -/
theorem takeReset_requests {l : List HostEvent} (h : ∀ e ∈ l, ∃ op args, e = .request op args) :
    takeReset l = none := by
  induction l with
  | nil => rfl
  | cons e l ih =>
    obtain ⟨op, args, rfl⟩ := h e (by simp)
    simp [takeReset, ih (fun e he => h e (by simp [he]))]

/-- The first reset after some requests, which wait on (R35, R310). -/
theorem takeReset_append {l : List HostEvent} (h : ∀ e ∈ l, ∃ op args, e = .request op args)
    (inputs : Cfg) (rest : List HostEvent) :
    takeReset (l ++ .reset inputs :: rest) = some (inputs, l ++ rest) := by
  induction l with
  | nil => rfl
  | cons e l ih =>
    obtain ⟨op, args, rfl⟩ := h e (by simp)
    simp [takeReset, ih (fun e he => h e (by simp [he]))]

/-! ### The configuration -/

/-- The check of INIT is the condition of R172. -/
theorem configLegal_iff (c : Cfg) : configLegal c = true ↔ LegalConfig c := by
  unfold configLegal LegalConfig
  cases c.bus <;> simp [and_assoc]

/-- A legal height is a whole number of pages (R61, R172). -/
theorem LegalConfig.height {c : Cfg} (h : LegalConfig c) : c.h % 8 = 0 := by
  rcases h.2.2.1 with h | h <;> omega

/-- A legal configuration has a page to send (R172, R173). -/
theorem LegalConfig.pages_pos {c : Cfg} (h : LegalConfig c) : 0 < pages c := by
  rcases h.2.2.1 with h | h <;> simp [pages, h]

/-! ### Reset -/

theorem reset_fb_wf : State.reset.fb.wf = true := rfl

theorem reset_lines : State.reset.lines = resetLines State.reset.cfg := rfl

/-- After a reset the lines exist exactly on bus-B (R29). -/
theorem resetLines_isSome (inputs : Cfg) :
    (resetLines inputs).isSome = true ↔ inputs.bus = .b := by
  unfold resetLines
  cases inputs.bus <;> simp

@[simp] theorem abandon_wire (n : Nat) (inputs : Cfg) (s t : State) :
    (abandon n inputs s t).wire = s.wire ++ (t.wire.drop s.wire.length).take n ++ [.rst] := rfl

end Sys2Proof.Machine
end

