-- ==== Sys2Proof/Text.lean ====
section
/-! DEFINITION. The textual form of a request (spec/30_encoding.md R105): the mnemonic in upper case, then
the operands in the order of R93 separated by commas. Of the forms R105 allows this writes one:
integers in decimal, bytes in hexadecimal, printable text bytes as themselves. DESIGN CHOICE
(log entry 23). Nothing in the machine reads it. -/

namespace Sys2Proof

/-- A digit 0 to 15. -/
def digitChar (n : Nat) : Char :=
  ['0', '1', '2', '3', '4', '5', '6', '7', '8', '9', 'A', 'B', 'C', 'D', 'E', 'F'].getD n '0'

/-- Decimal digits, with fuel above the number of digits. -/
def decimalDigits : Nat → Nat → List Char
  | 0, _ => []
  | k + 1, n => if n < 10 then [digitChar n] else decimalDigits k (n / 10) ++ [digitChar (n % 10)]

/-- A number in decimal. -/
def natText (n : Nat) : List Char := decimalDigits 6 n

/-- An integer in decimal. -/
def intText (v : Int) : List Char :=
  if 0 ≤ v then natText v.toNat else '-' :: natText (-v).toNat

/-- Two hexadecimal digits. -/
def hexDigits (b : Byte) : List Char := [digitChar (b.toNat / 16), digitChar (b.toNat % 16)]

/-- A byte as `0xHH`. -/
def byteText (b : Byte) : List Char := ['0', 'x'] ++ hexDigits b

/-- Operands separated by a comma and a space. -/
def commaText : List (List Char) → List Char
  | [] => []
  | [a] => a
  | a :: b :: rest => a ++ [',', ' '] ++ commaText (b :: rest)

/-- A byte list in brackets. -/
def bytesText (l : List Byte) : List Char := ['['] ++ commaText (l.map byteText) ++ [']']

/-- A character of a text operand: printable codes but the quote and the backslash as themselves, every
other byte as an escape. -/
def charText (b : Byte) : List Char :=
  if 0x20 ≤ b.toNat ∧ b.toNat ≤ 0x7E ∧ b ≠ 0x22 ∧ b ≠ 0x5C then [Char.ofNat b.toNat]
  else [Char.ofNat 92, 'x'] ++ hexDigits b

/-- A text operand in double quotes. -/
def quotedText (l : List Byte) : List Char := [Char.ofNat 34] ++ l.flatMap charText ++ [Char.ofNat 34]

/-- A colour or flag operand. -/
def flagText (c : Bool) : List Char := [if c then '1' else '0']

/-- An `s16` operand. -/
def s16Text (v : Half) : List Char := intText v.toInt

/-- A `u16` operand. -/
def u16Text (v : Half) : List Char := natText v.toNat

/-- A mnemonic and its operands. -/
def lineText (mnemonic : String) (operands : List (List Char)) : List Char :=
  match operands with
  | [] => mnemonic.toList
  | _ => mnemonic.toList ++ [' '] ++ commaText operands

/-- The textual form of an operation; R105 gives none for a device command. -/
def textForm : Instr → Option (List Char)
  | .fill c => some (lineText "FILL" [flagText c])
  | .setPixel x y c =>
    some (lineText "SET_PIXEL" [s16Text x, s16Text y, flagText c])
  | .getPixel x y =>
    some (lineText "GET_PIXEL" [s16Text x, s16Text y])
  | .hline x y w c =>
    some (lineText "HLINE" [s16Text x, s16Text y, s16Text w, flagText c])
  | .vline x y h c =>
    some (lineText "VLINE" [s16Text x, s16Text y, s16Text h, flagText c])
  | .line x1 y1 x2 y2 c =>
    some (lineText "LINE"
      [s16Text x1, s16Text y1, s16Text x2, s16Text y2, flagText c])
  | .rect x y w h c =>
    some (lineText "RECT" [s16Text x, s16Text y, s16Text w, s16Text h, flagText c])
  | .fillRect x y w h c =>
    some (lineText "FILL_RECT"
      [s16Text x, s16Text y, s16Text w, s16Text h, flagText c])
  | .drawText x y c text =>
    some (lineText "DRAW_TEXT"
      [s16Text x, s16Text y, flagText c, quotedText text])
  | .blit x y sw sh src =>
    some (lineText "BLIT"
      [s16Text x, s16Text y, u16Text sw, u16Text sh, bytesText src])
  | .init => some (lineText "INIT" [])
  | .showBuffer => some (lineText "SHOW" [])
  | .powerOff => some (lineText "POWEROFF" [])
  | .powerOn => some (lineText "POWERON" [])
  | .contrast v => some (lineText "CONTRAST" [u16Text v])
  | .invert f => some (lineText "INVERT" [flagText f])
  | .rotate f => some (lineText "ROTATE" [flagText f])
  | .drawScaledText x y scale c text =>
    some (lineText "DRAW_SCALED_TEXT"
      [s16Text x, s16Text y, u16Text scale, flagText c, quotedText text])
  | .drawTextMax text =>
    some (lineText "DRAW_TEXT_MAX"
      [quotedText text])
  | .decodeFrame frame =>
    some (lineText "DECODE_FRAME" [bytesText frame])
  | .tpCmd b => some (lineText "TP_CMD" [byteText b])
  | .tpData l => some (lineText "TP_DATA" [bytesText l])
  | .devContrast _ | .devEntireOn | .devNormInv _ | .devDisplay _ | .devMemAddrMode _
  | .devColAddr _ _ | .devPageAddr _ _ | .devStartLine _ | .devSegRemap _ | .devMuxRatio _
  | .devComDir _ | .devDispOffset _ | .devComPins _ | .devClkDiv _ | .devPrecharge _
  | .devVcomDesel _ | .devChargePump _ => none

end Sys2Proof
end

