-- ==== Sys2Proof/Tests/Slice0.lean ====
section
/-! SUPPORT. Tests of the model on small states. Expected values come from spec/95_test_vectors.md (the
vector is named) or from the encoding tables of spec/30_encoding.md, written out by hand. The last part
shows, for each statement with hypotheses, a state and operands that meet them. -/

set_option maxRecDepth 100000

namespace Sys2Proof.Machine.Tests

/-! ### Helpers -/

/-- The test font of section 0 of spec/95_test_vectors.md, for the codes the tests use. -/
def testFont : List (Byte × BitVec 64) := [(0x23, BitVec.allOnes 64), (0x2E, 1), (0x20, 0)]

/-- READY under the configuration of section 0 of spec/95_test_vectors.md. -/
def ready : State :=
  { State.reset with
    cfg := { Config.default with font := testFont }
    life := .ready
    wire := []
    script := List.replicate 60 (some .ok) }

/-- READY with one column, 32 rows: the smallest legal display. -/
def slim : State := { ready with cfg := { ready.cfg with w := 1 } }

/-- READY with 16 columns: byte 128 + k of a vector of section 2.2 is byte 16 + k here. -/
def small : State := { ready with cfg := { ready.cfg with w := 16 } }

/-- The same on bus-B, its lines at their reset levels (R29). -/
def onB (s : State) : State :=
  { s with
    cfg := { s.cfg with bus := .b }
    lines := some { cs := true, dc := false, res := true } }

/-- UNINIT. -/
def uninit (s : State) : State := { s with life := .uninit }

/-- With these answers lined up. -/
def answered (l : List Answer) (s : State) : State := { s with script := l }

/-- A frame buffer of all ones. -/
def lit (s : State) : State := fillBytes 0xFF s

/-- The state an operation leads to. -/
def after (i : Instr) (s : State) : State :=
  match exec i s with
  | .next t => t
  | .fault _ => s
  | .refused _ => s

/-- The state a host request leads to, through the host port. -/
def serve (q : List Byte) (s : State) : State :=
  match q with
  | [] => s
  | op :: args =>
    match step { s with inbox := [.request op args] } with
    | .next t => t
    | .fault _ => s
    | .refused _ => s

/-- The last response. -/
def answer (s : State) : Option (List Byte) := s.resp.getLast?

/-- Frame-buffer bytes. -/
def bytes (s : State) (l : List Nat) : List Byte := l.map s.fb.read

/-- A bus-A command event (R101). -/
def cmdA (b : Byte) (out : Ack) : WireEvent := .ax 0x3C [0x80, b] (some out)

/-! ### Well-formedness: an ill-formed operation for each check -/

theorem test_wf_text_too_long : (Instr.drawTextMax (List.replicate 256 0x23)).wf 1000 = false := by
  decide

theorem test_wf_text_too_long_draw :
    (Instr.drawText 0 0 true (List.replicate 256 0x23)).wf 1000 = false := by decide

theorem test_wf_text_too_long_scaled :
    (Instr.drawScaledText 0 0 1 true (List.replicate 256 0x23)).wf 1000 = false := by decide

theorem test_wf_blit_height : (Instr.blit 0 0 1 3 []).wf 64 = false := by decide

theorem test_wf_blit_source : (Instr.blit 0 0 2 8 [0x00]).wf 64 = false := by decide

theorem test_wf_frame_too_long (frame : List Byte) (h : frame.length = 65536) :
    (Instr.decodeFrame frame).wf 100000 = false := by
  simp [Instr.wf, Instr.operandsOk, h]

theorem test_wf_request_too_long : (Instr.drawTextMax [0x23, 0x23, 0x23]).wf 4 = false := by decide

theorem test_wf_device_not_limited : (Instr.devPageAddr 0 3).wf 0 = true := by decide

/-! ### Decoding: the words of R92, R93, R100 and R103, written out -/

theorem test_decode_fill : decode .host 64 [0x01, 0x01] = .ok (.fill true) := by decide

theorem test_decode_set_pixel : decode .host 64 [0x02, 0x05, 0x00, 0x0A, 0x80, 0x01] =
    .ok (.setPixel 0x0005 0x800A true) := by decide

theorem test_decode_get_pixel : decode .host 64 [0x03, 0xFF, 0xFF, 0x34, 0x12] =
    .ok (.getPixel 0xFFFF 0x1234) := by decide

theorem test_decode_hline : decode .host 64 [0x04, 0x7C, 0x00, 0x01, 0x00, 0x0A, 0x02, 0x00] =
    .ok (.hline 0x007C 0x0001 0x020A false) := by decide

theorem test_decode_vline : decode .host 64 [0x05, 0x03, 0x00, 0xFC, 0xFF, 0x08, 0x00, 0x01] =
    .ok (.vline 0x0003 0xFFFC 0x0008 true) := by decide

theorem test_decode_line : decode .host 64 [0x06, 0x01, 0, 0x02, 0, 0x03, 0, 0x04, 0, 0x01] =
    .ok (.line 1 2 3 4 true) := by decide

theorem test_decode_rect : decode .host 64 [0x07, 0x01, 0, 0x02, 0, 0x03, 0, 0x04, 0, 0x00] =
    .ok (.rect 1 2 3 4 false) := by decide

theorem test_decode_fill_rect : decode .host 64 [0x08, 0x7E, 0, 0x1E, 0, 0x04, 0, 0x05, 0, 0x01] =
    .ok (.fillRect 0x7E 0x1E 4 5 true) := by decide

theorem test_decode_draw_text : decode .host 64 [0x09, 0x01, 0, 0x02, 0, 0x01, 0x02, 0x41, 0x42] =
    .ok (.drawText 1 2 true [0x41, 0x42]) := by decide

theorem test_decode_blit : decode .host 64 [0x0A, 3, 0, 4, 0, 2, 0, 16, 0, 0x01, 0x80, 0x02, 0x40] =
    .ok (.blit 3 4 2 16 [0x01, 0x80, 0x02, 0x40]) := by decide

theorem test_decode_init : decode .host 64 [0x10] = .ok .init := by decide

theorem test_decode_show : decode .host 64 [0x11] = .ok .showBuffer := by decide

theorem test_decode_poweroff : decode .host 64 [0x12] = .ok .powerOff := by decide

theorem test_decode_poweron : decode .host 64 [0x13] = .ok .powerOn := by decide

theorem test_decode_contrast : decode .host 64 [0x14, 0x34, 0x12] = .ok (.contrast 0x1234) := by
  decide

theorem test_decode_invert : decode .host 64 [0x15, 0x01] = .ok (.invert true) := by decide

theorem test_decode_rotate : decode .host 64 [0x16, 0x00] = .ok (.rotate false) := by decide

theorem test_decode_draw_scaled_text :
    decode .host 64 [0x30, 1, 0, 2, 0, 0x40, 0x9C, 0x01, 0x01, 0x23] =
      .ok (.drawScaledText 1 2 40000 true [0x23]) := by decide

theorem test_decode_draw_text_max : decode .host 64 [0x31, 0x02, 0x41, 0x42] =
    .ok (.drawTextMax [0x41, 0x42]) := by decide

theorem test_decode_decode_frame : decode .host 64 [0x40, 0x03, 0x00, 0x0A, 0x0B, 0x0C] =
    .ok (.decodeFrame [0x0A, 0x0B, 0x0C]) := by decide

theorem test_decode_tp_cmd : decode .tp 0 [0x00, 0xAE] = .ok (.tpCmd 0xAE) := by decide

theorem test_decode_tp_data : decode .tp 0 [0x01, 0x05, 0x06] = .ok (.tpData [0x05, 0x06]) := by decide

theorem test_decode_dev_contrast : decode .dev 0 [0x81, 0x34] = .ok (.devContrast 0x34) := by decide

theorem test_decode_dev_entire_on : decode .dev 0 [0xA4] = .ok .devEntireOn := by decide

theorem test_decode_dev_norm_inv : decode .dev 0 [0xA7] = .ok (.devNormInv true) := by decide

theorem test_decode_dev_display : decode .dev 0 [0xAE] = .ok (.devDisplay false) := by decide

theorem test_decode_dev_mem_addr_mode : decode .dev 0 [0x20, 0x00] = .ok (.devMemAddrMode 0) := by
  decide

theorem test_decode_dev_col_addr : decode .dev 0 [0x21, 0x00, 0x7F] = .ok (.devColAddr 0 0x7F) := by
  decide

theorem test_decode_dev_page_addr : decode .dev 0 [0x22, 0x01, 0x03] = .ok (.devPageAddr 1 3) := by
  decide

theorem test_decode_dev_start_line : decode .dev 0 [0x7F] = .ok (.devStartLine 0x3F) := by decide

theorem test_decode_dev_seg_remap : decode .dev 0 [0xA1] = .ok (.devSegRemap true) := by decide

theorem test_decode_dev_mux_ratio : decode .dev 0 [0xA8, 0x1F] = .ok (.devMuxRatio 0x1F) := by decide

theorem test_decode_dev_com_dir : decode .dev 0 [0xC8] = .ok (.devComDir true) := by decide

theorem test_decode_dev_disp_offset : decode .dev 0 [0xD3, 0x01] = .ok (.devDispOffset 1) := by decide

theorem test_decode_dev_com_pins : decode .dev 0 [0xDA, 0x12] = .ok (.devComPins 0x12) := by decide

theorem test_decode_dev_clk_div : decode .dev 0 [0xD5, 0x80] = .ok (.devClkDiv 0x80) := by decide

theorem test_decode_dev_precharge : decode .dev 0 [0xD9, 0xF1] = .ok (.devPrecharge 0xF1) := by decide

theorem test_decode_dev_vcom_desel : decode .dev 0 [0xDB, 0x30] = .ok (.devVcomDesel 0x30) := by decide

theorem test_decode_dev_charge_pump : decode .dev 0 [0x8D, 0x14] = .ok (.devChargePump 0x14) := by
  decide

/-! ### Decoding: what is refused, by name -/

/-- The edges of the reserved ranges of R99. -/
theorem test_reserved_opcodes : ∀ op ∈ [0x00#8, 0x0B#8, 0x0F#8, 0x17#8, 0x2F#8, 0x32#8, 0x3F#8, 0x41#8,
    0xFF#8], decode .host 64 [op] = .error .illegalOp := by decide

theorem test_refuse_flag : decode .host 64 [0x01, 0x02] = .error .badFlag := by decide

theorem test_refuse_short : decode .host 64 [0x02, 0x05, 0x00, 0x0A] = .error .badLength := by decide

theorem test_refuse_long : decode .host 64 [0x11, 0x00] = .error .badLength := by decide

theorem test_refuse_blit_height : decode .host 64 [0x0A, 0, 0, 0, 0, 1, 0, 3, 0] =
    .error .badBlitHeight := by decide

theorem test_refuse_text_length : decode .host 64 [0x09, 0, 0, 0, 0, 1, 2, 0x23] =
    .error .badLength := by decide

theorem test_refuse_too_long : decode .host 4 [0x31, 0x03, 0x23, 0x23, 0x23] = .error .tooLong := by
  decide

theorem test_refuse_kind : decode .tp 64 [0x02, 0x00] = .error .badTransport := by decide

theorem test_refuse_tp_cmd_length : decode .tp 64 [0x00, 0x01, 0x02] = .error .badTransport := by decide

theorem test_refuse_device_command : decode .dev 64 [0xA5] = .error .noDeviceCommand := by decide

theorem test_refuse_device_operands : decode .dev 64 [0x22, 0x00] = .error .noDeviceCommand := by decide

theorem test_refuse_empty : decode .host 64 [] = .error .empty := by decide

/-! ### Opcode-table words -/

theorem test_word_fill : decodeTableWord 16 0x0101 = some (.fill true) := by decide

theorem test_word_set_pixel : decodeTableWord 48 0x01000A000502 = some (.setPixel 5 10 true) := by decide

theorem test_word_dev_page_addr : decodeTableWord 24 0x030122 = some (.devPageAddr 1 3) := by decide

theorem test_word_tp_cmd : decodeTableWord 16 0xAE00 = some (.tpCmd 0xAE) := by decide

/-- The word is the first operation to run after reset. -/
theorem test_word_runs_first :
    (match step ((answered (List.replicate 3 (some .ok)) State.reset).withFetchWord 24 0x030122) with
      | .next t => t.wire
      | .fault _ => []
      | .refused _ => []) = [.rst, cmdA 0x22 .ok, cmdA 0x01 .ok, cmdA 0x03 .ok] := by decide

/-! ### The textual form (R105's examples) -/

theorem test_text_set_pixel : textForm (.setPixel 5 10 true) = some "SET_PIXEL 5, 10, 1".toList := by
  decide

theorem test_text_draw_text : textForm (.drawText 0 0 true [0x41, 0x42]) =
    some "DRAW_TEXT 0, 0, 1, \"AB\"".toList := by decide

theorem test_text_blit : textForm (.blit 3 4 2 8 [0x01, 0x80]) =
    some "BLIT 3, 4, 2, 8, [0x01, 0x80]".toList := by decide

theorem test_text_scaled : textForm (.drawScaledText 0 0 4 true [0x31, 0x32, 0x33]) =
    some "DRAW_SCALED_TEXT 0, 0, 4, 1, \"123\"".toList := by decide

theorem test_text_tp_cmd : textForm (.tpCmd 0xAE) = some "TP_CMD 0xAE".toList := by decide

/-! ### Requests that run no operation (95 section 2.1) -/

/-- E1. -/
theorem test_illegal_op : answer (serve [0x00] ready) = some [0x01] := by decide

/-- E5: the operand check comes before the lifecycle gate. -/
theorem test_bad_arg_before_gate : answer (serve [0x01, 0x02] (uninit ready)) = some [0x02] := by decide

/-- E8. -/
theorem test_blit_bad_arg : answer (serve [0x0A, 0, 0, 0, 0, 1, 0, 3, 0] ready) = some [0x02] := by
  decide

/-- E10. -/
theorem test_not_ready : answer (serve [0x03, 0, 0, 0, 0] (uninit ready)) = some [0x03] := by decide

/-! ### Frame-buffer operations (95 section 2.2) -/

/-- S1, F1. -/
theorem test_set_pixel : bytes (serve [0x02, 0x05, 0, 0x0A, 0, 0x01] ready) [132, 133, 134] =
    [0x00, 0x04, 0x00] := by decide

/-- F4: x = -1 changes nothing. -/
theorem test_set_pixel_out : (serve [0x02, 0xFF, 0xFF, 0, 0, 0x01] ready).fb = [] := by decide

/-- F6, F7: after clearing (5, 10) of a full byte, (5, 11) is still on. -/
theorem test_get_pixel : answer (serve [0x03, 0x05, 0, 0x0B, 0]
    { ready with fb := [(133, 0xFB)] }) = some [0x00, 0x01, 0x01] := by decide

/-- F9: (0, 32) is out of range. -/
theorem test_get_pixel_out : answer (serve [0x03, 0, 0, 0x20, 0] ready) = some [0x00, 0x00, 0x00] := by
  decide

/-- F10, on four bytes. -/
theorem test_fill : (serve [0x01, 0x01] slim).fb = [(0, 0xFF), (1, 0xFF), (2, 0xFF), (3, 0xFF)] := by
  decide

/-- S2. -/
theorem test_fill_zero : (serve [0x01, 0x00] (lit slim)).fb = [] := by decide

/-- F11. -/
theorem test_hline : bytes (serve [0x04, 0, 0, 0, 0, 8, 0, 1] small) [0, 7, 8] = [1, 1, 0] := by decide

/-- F14: w = -3. -/
theorem test_hline_negative : bytes (serve [0x04, 5, 0, 0, 0, 0xFD, 0xFF, 1] small) [2, 3, 4, 5, 6] =
    [0, 0, 0, 0, 0] := by decide

/-- F15. -/
theorem test_vline : bytes (serve [0x05, 3, 0, 4, 0, 8, 0, 1] small) [2, 3, 4, 19] =
    [0, 0xF0, 0, 0x0F] := by decide

/-- F16: rows -4 to 3. -/
theorem test_vline_clipped : bytes (serve [0x05, 0, 0, 0xFC, 0xFF, 8, 0, 1] small) [0, 1] =
    [0x0F, 0] := by decide

/-- F18. -/
theorem test_line : bytes (after (.line 0 0 4 1 true) ready) [0, 1, 2, 3, 4, 5] =
    [1, 1, 2, 2, 2, 0] := by decide

/-- F20: from (2, 1) to (0, 0). -/
theorem test_line_back : bytes (after (.line 2 1 0 0 true) ready) [0, 1, 2, 3] = [1, 1, 2, 0] := by
  decide

/-- R142 by hand, steep: e starts at -1 and the minor coordinate moves after the second and the fourth
point. -/
theorem test_line_steep : linePixels 0 0 2 5 =
    [(0, 0), (0, 1), (1, 2), (1, 3), (2, 4), (2, 5)] := by decide

/-- R142 by hand, backwards, with e = 0 at the first and the third point. -/
theorem test_line_tie : linePixels 0 0 (-4) 2 = [(0, 0), (-1, 1), (-2, 1), (-3, 2), (-4, 2)] := by
  decide

/-- F26. -/
theorem test_rect : bytes (serve [0x07, 0, 0, 0, 0, 3, 0, 3, 0, 1] small) [0, 1, 2, 3] =
    [7, 5, 7, 0] := by decide

/-- F28. -/
theorem test_rect_clear : bytes (after (.rect 0 0 4 4 false) (lit small)) [0, 1, 2, 3, 4] =
    [0xF0, 0xF6, 0xF6, 0xF0, 0xFF] := by decide

/-- F29 at the corner of 16 columns: clipped at the lower right corner. -/
theorem test_fill_rect : bytes (serve [0x08, 0x0E, 0, 0x1E, 0, 4, 0, 4, 0, 1] small) [61, 62, 63] =
    [0, 0xC0, 0xC0] := by decide

/-- F30. -/
theorem test_fill_rect_out : (after (.fillRect (-10) (-10) 5 5 true) slim).fb = [] := by decide

/-- F34: colour 0, "off" pixels left. -/
theorem test_draw_text : bytes (after (.drawText 0 0 false [0x2E]) (lit small)) [0, 1] =
    [0xFE, 0xFF] := by decide

/-- F35. -/
theorem test_draw_text_rows : bytes (after (.drawText 0 4 true [0x20, 0x23]) small) [7, 8, 15, 16, 24] =
    [0, 0xF0, 0xF0, 0, 0x0F] := by decide

/-- F36. -/
theorem test_blit : bytes (serve [0x0A, 3, 0, 4, 0, 2, 0, 8, 0, 0x01, 0x80] small) [3, 4, 19, 20] =
    [0x10, 0, 0, 0x08] := by decide

/-- F37: "off" bits of the source leave the destination. -/
theorem test_blit_or : bytes (after (.blit 0 0 1 8 [0x00]) (lit small)) [0, 1] = [0xFF, 0xFF] := by decide

/-! ### Glyph operations (95 section 2.5) -/

/-- G2. -/
theorem test_scaled : bytes (after (.drawScaledText 10 3 3 true [0x2E]) small) [9, 10, 11, 12, 13] =
    [0, 0x38, 0x38, 0x38, 0] := by decide

/-- G7: colour 0. -/
theorem test_scaled_clear : bytes (after (.drawScaledText 0 0 2 false [0x2E]) (lit small)) [0, 1, 2] =
    [0xFC, 0xFC, 0xFF] := by decide

/-- G14 with W = 40: scale min(5, 4) = 4, so columns 0 to 31. -/
theorem test_max : bytes (after (.drawTextMax [0x23])
    { ready with cfg := { ready.cfg with w := 40 } }) [0, 31, 32] = [0xFF, 0xFF, 0] := by decide

/-- E11, E12. -/
theorem test_max_empty : answer (serve [0x31, 0x00] ready) = some [0x02] ∧
    answer (serve [0x31, 0x00] (uninit ready)) = some [0x03] := by decide

/-- STRIP of `.`: one pixel on, and it is gone after the request (R33, R250). -/
theorem test_strip : renderStrip ready.cfg [0x2E] = [1, 0, 0, 0, 0, 0, 0, 0] ∧
    (after (.drawScaledText 0 0 1 true [0x2E]) slim).strip = none := by decide

/-! ### The sensor frame (95 section 2.6) -/

/-- S7, in UNINIT. -/
theorem test_frame : answer (serve [0x40, 0x0A, 0, 0, 0, 0, 0, 0, 0x01, 0x2C, 0, 0, 0] (uninit ready)) =
    some [0x00, 0x01, 0x2C, 0x01] := by decide

/-- S8. -/
theorem test_frame_short : answer (serve [0x40, 0x09, 0, 0, 0, 0, 0, 0, 0x01, 0x2C, 0, 0] ready) =
    some [0x00, 0x00, 0x00, 0x00] := by decide

/-! ### Controller operations (95 section 2.3) -/

/-- S10, the first list. -/
theorem test_init_seq : initSeq ready.cfg =
    [0xAE, 0x20, 0x00, 0x40, 0xA1, 0xA8, 0x1F, 0xC8, 0xD3, 0x00, 0xDA, 0x02, 0xD5, 0x80, 0xD9, 0xF1,
      0xDB, 0x30, 0x81, 0xFF, 0xA4, 0xA6, 0x8D, 0x14, 0xAF] := by decide

/-- S10, the second list. -/
theorem test_init_seq_tall : initSeq { ready.cfg with h := 64, extVcc := true } =
    [0xAE, 0x20, 0x00, 0x40, 0xA1, 0xA8, 0x3F, 0xC8, 0xD3, 0x00, 0xDA, 0x12, 0xD5, 0x80, 0xD9, 0x22,
      0xDB, 0x30, 0x81, 0xFF, 0xA4, 0xA6, 0x8D, 0x10, 0xAF] := by decide

/-- K1 with W = 1: 25 commands, then 4 pages of 6 commands and one data chunk. -/
theorem test_init : (serve [0x10] (uninit slim)).wire.length = 53 ∧
    (serve [0x10] (uninit slim)).life = .ready ∧ answer (serve [0x10] (uninit slim)) = some [0x00] := by
  decide

/-- K3 (H = 48), E13, E14. -/
theorem test_init_checks :
    answer (serve [0x10] (uninit { ready with cfg := { ready.cfg with h := 48 } })) = some [0x06] ∧
      answer (serve [0x10] ready) = some [0x05] ∧
      answer (serve [0x10] { ready with life := .failed }) = some [0x03] := by decide

/-- K5: the first transaction fails. -/
theorem test_init_fails : (serve [0x10] (answered [some .fail] (uninit ready))).wire = [cmdA 0xAE .fail] ∧
    (serve [0x10] (answered [some .fail] (uninit ready))).life = .failed := by decide

/-- K8: the third transaction fails. -/
theorem test_show_fails :
    (serve [0x11] (answered [some .ok, some .ok, some .fail] ready)).wire =
      [cmdA 0x22 .ok, cmdA 0x00 .ok, cmdA 0x03 .fail] ∧
    answer (serve [0x11] (answered [some .ok, some .ok, some .fail] ready)) = some [0x04] := by decide

/-- S3 and R183 with W = 1: per page six commands and one data chunk. -/
theorem test_show : ((serve [0x11] (lit slim)).wire.drop 7).take 7 =
    [cmdA 0x22 .ok, cmdA 0x01 .ok, cmdA 0x03 .ok, cmdA 0x21 .ok, cmdA 0x00 .ok, cmdA 0x00 .ok,
      .ax 0x3C [0x40, 0xFF] (some .ok)] := by decide

/-- K9. -/
theorem test_poweroff : (serve [0x12] ready).wire = [cmdA 0xAE .ok] := by decide

/-- K10. -/
theorem test_poweron : (serve [0x13] ready).wire = [cmdA 0xAF .ok] := by decide

/-- K11. -/
theorem test_contrast : (serve [0x14, 0x34, 0x12] ready).wire = [cmdA 0x81 .ok, cmdA 0x34 .ok] := by
  decide

/-- K14, K15. -/
theorem test_invert : (serve [0x15, 0x01] ready).wire = [cmdA 0xA7 .ok] ∧
    (serve [0x15, 0x00] ready).wire = [cmdA 0xA6 .ok] := by decide

/-- K17, K18. -/
theorem test_rotate : (serve [0x16, 0x00] ready).wire = [cmdA 0xC0 .ok, cmdA 0xA0 .ok] ∧
    (serve [0x16, 0x01] ready).wire = [cmdA 0xC8 .ok, cmdA 0xA1 .ok] := by decide

/-- K19: the first of the two commands fails. -/
theorem test_rotate_fails : (serve [0x16, 0x01] (answered [some .fail] ready)).wire =
    [cmdA 0xC8 .fail] := by decide

/-! ### Transport operations and device commands (95 section 2.4) -/

/-- T9: the bracket stays open. -/
theorem test_tp_cmd_b_fails : (after (.tpCmd 0xAF) (answered [some .fail] (onB ready))).wire =
      [.bl .cs true, .bl .dc false, .bl .cs false, .bw [0xAF] (some .fail)] ∧
    (after (.tpCmd 0xAF) (answered [some .fail] (onB ready))).lines =
      some { cs := false, dc := false, res := true } := by decide

/-- T7. -/
theorem test_tp_cmd_a : (after (.tpCmd 0xAF)
    { ready with cfg := { ready.cfg with addrA := 0x3D } }).wire =
      [.ax 0x3D [0x80, 0xAF] (some .ok)] := by decide

/-- T3. -/
theorem test_tp_data_a : (after (.tpData [0, 1, 2, 3, 4, 5, 6, 7, 8, 9, 10, 11, 12, 13, 14, 15, 16])
    ready).wire = [.ax 0x3C [0x40, 0, 1, 2, 3, 4, 5, 6, 7, 8, 9, 10, 11, 12, 13, 14, 15] (some .ok),
      .ax 0x3C [0x40, 16] (some .ok)] := by decide

/-- T12, with chunks of 2 on 3 bytes. -/
theorem test_tp_data_b : (after (.tpData [7, 8, 9])
    (onB { ready with cfg := { ready.cfg with chunkB := 2 } })).wire =
      [.bl .cs true, .bl .dc true, .bl .cs false, .bw [7, 8] (some .ok), .bw [9] (some .ok),
        .bl .cs true] := by decide

theorem test_dev_contrast : (after (.devContrast 0x34) ready).wire = [cmdA 0x81 .ok, cmdA 0x34 .ok] := by
  decide

theorem test_dev_entire_on : (after .devEntireOn ready).wire = [cmdA 0xA4 .ok] := by decide

theorem test_dev_norm_inv : (after (.devNormInv true) ready).wire = [cmdA 0xA7 .ok] := by decide

theorem test_dev_display : (after (.devDisplay true) ready).wire = [cmdA 0xAF .ok] := by decide

theorem test_dev_mem_addr_mode : (after (.devMemAddrMode 0) ready).wire =
    [cmdA 0x20 .ok, cmdA 0x00 .ok] := by decide

theorem test_dev_col_addr : (after (.devColAddr 0 0x7F) ready).wire =
    [cmdA 0x21 .ok, cmdA 0x00 .ok, cmdA 0x7F .ok] := by decide

theorem test_dev_page_addr : (after (.devPageAddr 1 3) ready).wire =
    [cmdA 0x22 .ok, cmdA 0x01 .ok, cmdA 0x03 .ok] := by decide

theorem test_dev_start_line : (after (.devStartLine 0x2A) ready).wire = [cmdA 0x6A .ok] := by decide

theorem test_dev_seg_remap : (after (.devSegRemap true) ready).wire = [cmdA 0xA1 .ok] := by decide

theorem test_dev_mux_ratio : (after (.devMuxRatio 0x1F) ready).wire =
    [cmdA 0xA8 .ok, cmdA 0x1F .ok] := by decide

theorem test_dev_com_dir : (after (.devComDir true) ready).wire = [cmdA 0xC8 .ok] := by decide

theorem test_dev_disp_offset : (after (.devDispOffset 5) ready).wire =
    [cmdA 0xD3 .ok, cmdA 0x05 .ok] := by decide

theorem test_dev_com_pins : (after (.devComPins 0x12) ready).wire =
    [cmdA 0xDA .ok, cmdA 0x12 .ok] := by decide

theorem test_dev_clk_div : (after (.devClkDiv 0x80) ready).wire =
    [cmdA 0xD5 .ok, cmdA 0x80 .ok] := by decide

theorem test_dev_precharge : (after (.devPrecharge 0xF1) ready).wire =
    [cmdA 0xD9 .ok, cmdA 0xF1 .ok] := by decide

theorem test_dev_vcom_desel : (after (.devVcomDesel 0x30) ready).wire =
    [cmdA 0xDB .ok, cmdA 0x30 .ok] := by decide

theorem test_dev_charge_pump : (after (.devChargePump 0x14) ready).wire =
    [cmdA 0x8D .ok, cmdA 0x14 .ok] := by decide

/-! ### Stall and reset (95 section 2.7) -/

/-- L4: a stall answers nothing, and the block stays busy. -/
theorem test_stall : (serve [0x12] (answered [none] ready)).busy = true ∧
    (serve [0x12] (answered [none] ready)).resp = [] ∧
    (serve [0x12] (answered [none] ready)).wire = [.ax 0x3C [0x80, 0xAE] none] := by decide

/-- Power-up and reset give the reset state: WIRE is `[RST]` (R310, R323). -/
theorem test_reset : resetBlock Config.default { State.reset with wire := [] } = State.reset := by decide

/-- On bus-B after a failed data write, chip select still asserted. -/
def openB : State :=
  { onB ready with
    lines := some { cs := false, dc := true, res := true }
    wire := [.bw [7] (some .fail)] }

/-- L6: reset sets the bus-B lines with no BL event. -/
theorem test_reset_lines :
    (resetBlock openB.cfg openB).wire = [.bw [7] (some .fail), .rst] ∧
    (resetBlock openB.cfg openB).lines = some { cs := true, dc := false, res := true } := by decide

/-- The lines do not exist on bus-A (R29). -/
theorem test_no_lines_on_bus_a : State.reset.lines = none ∧
    (resetBlock Config.default openB).lines = none := by decide

/-- A waiting host request stays when the reset comes (R35, log entry 10). -/
theorem test_take_reset :
    takeReset [.request 0x12 [], .resetDuring 0x13 [] 0 Config.default] =
      some (Config.default, [.request 0x12 [], .request 0x13 []]) := by decide

/-! ### The hypotheses of the statements can be met

One theorem for each statement with hypotheses, under its name; each clause of a statement has its own
witness, at a boundary value where the clause has a range. -/

theorem witness_DecodeOfEncodeIsTheInstruction :
    (Instr.drawTextMax (List.replicate 255 0x23)).wf 257 = true ∧ (Instr.blit 0 0 2 8 [1, 2]).wf 11 = true ∧
      (Instr.tpCmd 0xAE).wf 0 = true ∧ (Instr.devStartLine 0x3F).wf 0 = true := by decide

theorem witness_DecodedBytesAreTheEncoding :
    decode .host 2 [0x31, 0x00] = .ok (.drawTextMax []) ∧ decode .tp 0 [0x01] = .ok (.tpData []) ∧
      decode .dev 0 [0x40] = .ok (.devStartLine 0) := by decide

/-- READY, with this request next. -/
def asking (op : Byte) (args : List Byte) : State := { ready with inbox := [.request op args] }

theorem witness_ReservedOpcodesAnswerIllegalOp :
    (∀ op ∈ [0x00#8, 0x0B#8, 0x0F#8, 0x17#8, 0x2F#8, 0x32#8, 0x3F#8, 0x41#8, 0xFF#8],
      Idle (asking op []) ∧ (asking op []).inbox = .request op [] :: [] ∧ ReservedOpcode op) ∧
    (∀ op ∈ [0x01#8, 0x0A#8, 0x10#8, 0x16#8, 0x30#8, 0x31#8, 0x40#8],
      Idle (asking op []) ∧ (asking op []).inbox = .request op [] :: [] ∧ ¬ ReservedOpcode op) := by
  decide

theorem witness_MalformedRequestsAnswerBadArg :
    (Idle (asking 0x01 [2]) ∧ (asking 0x01 [2]).inbox = .request 0x01 [2] :: [] ∧
      ((0x01#8, HostOp.fill) ∈ hostOpcodes) ∧
      Malformed (asking 0x01 [2]).cfg.maxReq .fill (0x01 :: [2])) ∧
    (Idle (asking 0x01 [1]) ∧ (asking 0x01 [1]).inbox = .request 0x01 [1] :: [] ∧
      ¬ Malformed (asking 0x01 [1]).cfg.maxReq .fill (0x01 :: [1])) := by
  refine ⟨⟨by decide, rfl, by decide, .inr (.inr (.inr ⟨1, rfl, by decide, by decide⟩))⟩,
    by decide, rfl, ?_⟩
  rintro (h | h | ⟨h, _⟩ | ⟨k, h, h0, h1⟩)
  · exact h rfl
  · exact absurd h (by decide)
  · cases h
  · cases h
    exact h1 rfl

/-- The four ways to be malformed (R94). -/
theorem witness_Malformed_each :
    Malformed 64 .drawTextMax [0x31, 0x02, 0x41] ∧ Malformed 4 .drawTextMax [0x31, 0x03, 1, 2, 3] ∧
      Malformed 64 .blit [0x0A, 0, 0, 0, 0, 1, 0, 3, 0] ∧ Malformed 64 .invert [0x15, 0x02] :=
  ⟨.inl (by decide), .inr (.inl (by decide)), .inr (.inr (.inl (by decide))),
    .inr (.inr (.inr ⟨1, rfl, by decide, by decide⟩))⟩

theorem witness_StepRunsTheDecodedRequest :
    Idle (asking 0x12 []) ∧ (asking 0x12 []).inbox = .request 0x12 [] :: [] ∧
      decode .host (asking 0x12 []).cfg.maxReq (0x12 :: []) = .ok .powerOff := by decide

/-- READY, with this request in the internal port. -/
def porting (r : PortReq) : State := { ready with port := some r }

theorem witness_StepRunsTheDecodedPortRequest :
    ((porting (.tp false [0xAE])).busy = false ∧
      (porting (.tp false [0xAE])).port = some (.tp false [0xAE]) ∧
      decode .tp (porting (.tp false [0xAE])).cfg.maxReq
        ((if false then 0x01 else 0x00) :: [0xAE]) = .ok (.tpCmd 0xAE)) ∧
    ((porting (.dev [0x22, 1, 3])).port = some (.dev [0x22, 1, 3]) ∧
      decode .dev (porting (.dev [0x22, 1, 3])).cfg.maxReq [0x22, 1, 3] = .ok (.devPageAddr 1 3)) := by
  decide

theorem witness_BadPortRequestsFault :
    ((porting (.tp false [])).busy = false ∧ (porting (.tp false [])).port = some (.tp false []) ∧
      ([] : List Byte).length ≠ 1) ∧
    ((porting (.tp false [1, 2])).port = some (.tp false [1, 2]) ∧ [1#8, 2#8].length ≠ 1) ∧
    ((porting (.dev [])).port = some (.dev []) ∧ ∀ i, deviceBytes i ≠ some []) := by
  refine ⟨by decide, by decide, rfl, fun i => ?_⟩
  cases i <;> simp [deviceBytes]

theorem witness_BusyBlockConsumesNoRequest :
    ({ asking 0x12 [] with busy := true }).busy = true ∧
      ∀ e ∈ (asking 0x12 []).inbox, ∃ op args, e = .request op args := by
  simp [asking]

theorem witness_ResetSetsTheResetValues :
    (∃ s : State, s.inbox = [.request 0x12 []] ++ .reset Config.default :: [] ∧
      (∀ e ∈ [HostEvent.request 0x12 []], ∃ op args, e = .request op args) ∧ s.busy = true) ∧
    (∃ s : State, s.inbox = [] ++ .reset Config.default :: [] ∧ Idle s) :=
  ⟨⟨{ ready with inbox := [.request 0x12 [], .reset Config.default], busy := true }, rfl,
    by simp, rfl⟩,
    ⟨{ ready with inbox := [.reset Config.default] }, rfl, rfl, rfl⟩⟩

/-- READY, with a POWEROFF next during which reset is applied. -/
def cutting (n : Nat) : State :=
  { ready with inbox := [.resetDuring 0x12 [] n Config.default] }

theorem witness_ResetDuringARequestAbandonsIt (n : Nat) :
    Idle (cutting n) ∧ (cutting n).inbox = .resetDuring 0x12 [] n Config.default :: [] ∧
      decode .host (cutting n).cfg.maxReq (0x12 :: []) = .ok .powerOff ∧
      exec .powerOff { cutting n with inbox := [], busy := true } =
        .next (after .powerOff { cutting n with inbox := [], busy := true }) ∧
      (after .powerOff { cutting n with inbox := [], busy := true }).wire =
        (cutting n).wire ++ [cmdA 0xAE .ok] :=
  ⟨⟨rfl, rfl⟩, rfl, rfl, rfl, rfl⟩

theorem witness_GatedOperationsAnswerNotReady :
    (Instr.showBuffer).port = .host ∧ Instr.showBuffer ≠ .init ∧
      (∀ f, Instr.showBuffer ≠ .decodeFrame f) ∧ (uninit ready).life ≠ .ready ∧
      ({ ready with life := .failed }).life ≠ .ready := by
  refine ⟨rfl, by decide, fun f => by simp, by decide, by decide⟩

theorem witness_InitChecksBeforeItRuns :
    ready.life = .ready ∧ ({ ready with life := .failed }).life = .failed ∧
      (uninit { ready with cfg := { ready.cfg with w := 257 } }).life = .uninit ∧
      ¬ LegalConfig ({ ready.cfg with w := 257 }) ∧ ¬ LegalConfig ({ ready.cfg with w := 0 }) ∧
      ¬ LegalConfig ({ ready.cfg with h := 48 }) ∧ ¬ LegalConfig ({ ready.cfg with chunkA := 0 }) ∧
      ¬ LegalConfig ({ ready.cfg with addrA := 0x80 }) := by decide

/-- What the statements about drawing ask of the state: READY, a legal configuration, no STRIP. -/
theorem witness_drawing : ready.life = .ready ∧ LegalConfig ready.cfg ∧ ready.strip = none ∧
    LegalConfig slim.cfg ∧ LegalConfig ({ ready.cfg with w := 256, h := 64 }) ∧
    LegalConfig (onB ready).cfg := by decide

theorem witness_FillSetsEveryByte : ready.life = .ready := rfl

theorem witness_SetPixelWritesOneBit : ready.life = .ready ∧
    InRange ready.cfg ((0 : Half)).toInt ((0 : Half)).toInt ∧
    InRange ready.cfg ((127 : Half)).toInt ((31 : Half)).toInt ∧
    ¬ InRange ready.cfg ((128 : Half)).toInt ((0 : Half)).toInt ∧
    ¬ InRange ready.cfg ((0 : Half)).toInt ((0xFFFF : Half)).toInt := by decide

theorem witness_GetPixelReadsOneBit : ready.life = .ready ∧
    InRange ready.cfg ((127 : Half)).toInt ((31 : Half)).toInt ∧
    ¬ InRange ready.cfg ((0 : Half)).toInt ((32 : Half)).toInt := by decide

theorem witness_HlineAndVlineColourTheirLine : ready.life = .ready ∧ LegalConfig ready.cfg := by decide

theorem witness_RectAndFillRectColourTheirPoints : ready.life = .ready ∧ LegalConfig ready.cfg := by
  decide

theorem witness_LineColoursLinePixels : slim.life = .ready ∧ LegalConfig slim.cfg := by decide

/-- The clauses of LinePixels: a shallow line with its ends (0, 0) and (-4, 2), a diagonal, and a steep
line from (0, 0) to (2, 5). -/
theorem witness_LinePixelsJoinTheEndPoints :
    ((4 : Int) = (if (0 : Int) < -4 - 0 then -4 - 0 else -(-4 - 0)) ∧
      (-1 : Int) = (if (0 : Int) < -4 - 0 then 1 else -1) ∧ (2 : Int) ≤ 4 ∧ (0 : Int) < 4 ∧
      (-2, 1) ∈ linePixels 0 0 (-4) 2 ∧ (-2, 2) ∉ linePixels 0 0 (-4) 2) ∧
    ((3 : Int) ≤ 3 ∧ (2, 2) ∈ linePixels 0 0 3 3 ∧ (3, 3) ∈ linePixels 0 0 3 3) ∧
    ((2 : Int) < 5 ∧ (1, 3) ∈ linePixels 0 0 2 5 ∧ (2, 3) ∉ linePixels 0 0 2 5) := by decide

theorem witness_DrawTextColoursItsGlyphs : ready.life = .ready ∧ LegalConfig ready.cfg := by decide

theorem witness_BlitOrsItsSource : ready.life = .ready ∧ LegalConfig ready.cfg := by decide

theorem witness_GetPixelReadsWhatWasWritten : ready.life = .ready ∧ LegalConfig ready.cfg ∧
    InRange ready.cfg ((5 : Half)).toInt ((10 : Half)).toInt ∧
    exec (.setPixel 5 10 true) ready = .next (after (.setPixel 5 10 true) ready) ∧
    exec (.getPixel 5 10) (after (.setPixel 5 10 true) ready) =
      .next (after (.getPixel 5 10) (after (.setPixel 5 10 true) ready)) ∧
    exec (.fill true) ready = .next (after (.fill true) ready) ∧
    exec (.getPixel 5 10) (after (.fill true) ready) =
      .next (after (.getPixel 5 10) (after (.fill true) ready)) ∧
    ((0xFFFF : Half), (0 : Half)) ≠ (5, 10) ∧
    exec (.setPixel 0xFFFF 0 true) ready = .next (after (.setPixel 0xFFFF 0 true) ready) :=
  ⟨rfl, by decide, by decide, rfl, rfl, rfl, rfl, by decide, rfl⟩

theorem ready_inv : ready.Inv :=
  ⟨rfl, by simp [ready, State.reset], by decide, rfl, fun _ => by decide, trivial⟩

theorem witness_StepKeepsTheInvariant_onB : (onB ready).Inv :=
  ⟨rfl, by simp [onB, ready, State.reset], by decide, rfl, fun _ => by decide, trivial⟩

theorem witness_FillForgetsTheOldContents : ready.life = .ready ∧ ready.Inv ∧
    Memory.wf [(511, 0x80)] = true ∧
    (∀ e ∈ [((511, 0x80) : Host.Cell)], e.1 < ready.cfg.h / 8 * ready.cfg.w) ∧
    exec (.fill true) ready = .next (after (.fill true) ready) ∧
    exec (.fill false) (after (.fill true) ready) =
      .next (after (.fill false) (after (.fill true) ready)) ∧
    exec (.fill true) { ready with fb := [(511, 0x80)] } =
      .next (after (.fill true) { ready with fb := [(511, 0x80)] }) :=
  ⟨rfl, ready_inv, by decide, by decide, rfl, rfl, rfl⟩

theorem witness_DrawingKeepsEverythingElse : (Instr.getPixel 0 0).port = .host ∧
    Instr.getPixel 0 0 ≠ .init ∧ Instr.getPixel 0 0 ≠ .showBuffer ∧
    toggleBytes (.getPixel 0 0) = none ∧ Instr.getPixel 0 0 ≠ .drawTextMax [] ∧
    ready.life = .ready ∧ ready.Inv :=
  ⟨rfl, by decide, by decide, rfl, by decide, rfl, ready_inv⟩

theorem witness_DrawScaledTextColoursBlocks : ready.life = .ready ∧ LegalConfig ready.cfg ∧
    ready.strip = none := by decide

/-- 16 characters are scale 1 on 128 columns, 17 are scale 0 (G11, G12). -/
theorem witness_DrawTextMaxDrawsAtTheLargestScale : ready.life = .ready ∧ LegalConfig ready.cfg ∧
    ready.strip = none ∧ List.replicate 16 0x23#8 ≠ [] ∧
    1 = min (ready.cfg.w / (8 * (List.replicate 16 0x23#8).length)) (ready.cfg.h / 8) ∧
    0 = min (ready.cfg.w / (8 * (List.replicate 17 0x23#8).length)) (ready.cfg.h / 8) := by decide

theorem witness_ScaleOneIsDrawText : ready.strip = none ∧ (uninit ready).strip = none := by decide

theorem witness_ScaleZeroDrawsNothing : ready.life = .ready ∧ ready.Inv ∧
    List.replicate 17 0x23#8 ≠ [] ∧ ready.cfg.w < 8 * (List.replicate 17 0x23#8).length :=
  ⟨rfl, ready_inv, by decide, by decide⟩

theorem witness_StripHoldsTheGlyphs : [0x23#8][7 / 8]? = some 0x23 ∧ 7 < 8 ∧
    [0x23#8, 0x2E#8][8 / 8]? = some 0x2E := by decide

theorem witness_DecodeFrameExtractsTheVelocity : (List.replicate 9 0#8).length ≠ 10 ∧
    (List.replicate 11 0#8).length ≠ 10 := by decide

theorem witness_ChunksSliceThePayload : 1 ≤ 2 ∧ (chunks [1, 2, 3] 2)[0]? = some [1, 2] ∧
    0 + 1 < (chunks [1, 2, 3] 2).length ∧ (chunks [1, 2, 3] 2)[1]? = some [3] ∧
    chunks [] 2 = [] := by decide

theorem witness_TpCmdOnBusA : ready.cfg.bus = .a ∧ busAnswer ready 0 = some .ok ∧
    busAnswer (answered [none] ready) 0 = none := by decide

theorem witness_TpCmdOnBusB : (onB ready).cfg.bus = .b ∧ busAnswer (onB ready) 0 = some .ok ∧
    busAnswer (answered [some .fail] (onB ready)) 0 = some .fail ∧
    busAnswer (answered [none] (onB ready)) 0 = none := by decide

theorem witness_TpDataSendsTheChunks :
    (ready.cfg.bus = .a ∧ 1 ≤ ready.cfg.chunkA ∧
      BusOk ready (chunks (List.replicate 17 0#8) ready.cfg.chunkA).length) ∧
    ((onB ready).cfg.bus = .b ∧ 1 ≤ (onB ready).cfg.chunkB ∧
      BusOk (onB ready) (chunks (List.replicate 33 0#8) (onB ready).cfg.chunkB).length) := by decide

theorem witness_TpDataStopsAtTheFailedChunk :
    (1 ≤ chunkSize ready.cfg ∧ 0 < (chunks (List.replicate 17 0#8) (chunkSize ready.cfg)).length ∧
      BusStops (answered [some .fail] ready) 0 (some .fail)) ∧
    (1 ≤ chunkSize (onB ready).cfg ∧
      1 < (chunks (List.replicate 33 0#8) (chunkSize (onB ready).cfg)).length ∧
      BusStops (answered [some .ok, none] (onB ready)) 1 none) := by decide

theorem witness_TpDataWithoutChunkSizeFaults :
    (({ ready.cfg with chunkA := 0 }).bus = .a ∧ ({ ready.cfg with chunkA := 0 }).chunkA = 0) ∧
    (({ (onB ready).cfg with chunkB := 0 }).bus = .b ∧
      ({ (onB ready).cfg with chunkB := 0 }).chunkB = 0) := by decide

theorem witness_PageOf128BytesIsChunked : (List.replicate 128 0#8).length = 128 ∧
    exec (.tpData (List.replicate 128 0)) ready =
      .next (after (.tpData (List.replicate 128 0)) ready) ∧
    ready.cfg.bus = .a ∧ ready.cfg.chunkA = 16 ∧ BusOk ready 8 ∧
    exec (.tpData (List.replicate 128 0)) (onB ready) =
      .next (after (.tpData (List.replicate 128 0)) (onB ready)) ∧
    (onB ready).cfg.bus = .b ∧ (onB ready).cfg.chunkB = 32 ∧ BusOk (onB ready) 4 :=
  ⟨by decide, rfl, rfl, rfl, by decide, rfl, rfl, rfl, by decide⟩

theorem witness_FailedBracketIsClosedNext :
    (Instr.tpData [7, 8, 9]).port = .tp ∧ (Instr.tpCmd 0xAE).port = .tp ∧
    (answered [some .fail] (onB ready)).cfg.bus = .b ∧
    (answered [some .fail] (onB ready)).lines.isSome = true ∧
    exec (.tpData [7, 8, 9]) (answered [some .fail] (onB ready)) =
      .next (after (.tpData [7, 8, 9]) (answered [some .fail] (onB ready))) ∧
    (after (.tpData [7, 8, 9]) (answered [some .fail] (onB ready))).ret = some .fail ∧
    exec (.tpCmd 0xAE) (after (.tpData [7, 8, 9]) (answered [some .fail] (onB ready))) =
      .next (after (.tpCmd 0xAE) (after (.tpData [7, 8, 9]) (answered [some .fail] (onB ready)))) :=
  ⟨rfl, rfl, rfl, rfl, rfl, rfl, rfl⟩

theorem witness_DeviceCommandsSendTheirBytes :
    deviceBytes (.devPageAddr 1 3) = some [0x22, 1, 3] ∧ BusOk ready ([0x22#8, 1#8, 3#8]).length := by
  decide

theorem witness_DeviceCommandsStopAtAFailedByte :
    deviceBytes (.devPageAddr 1 3) = some [0x22, 1, 3] ∧ 2 < ([0x22#8, 1#8, 3#8]).length ∧
      BusStops (answered [some .ok, some .ok, some .fail] ready) 2 (some .fail) ∧
      BusStops (answered [none] ready) 0 none := by decide

theorem witness_TogglesSendTheirBytes : toggleBytes (.rotate true) = some [0xC8, 0xA1] ∧
    ready.life = .ready ∧ BusOk ready ([0xC8#8, 0xA1#8]).length := by decide

theorem witness_TogglesStopAtAFailedByte : toggleBytes (.rotate true) = some [0xC8, 0xA1] ∧
    ready.life = .ready ∧ 1 < ([0xC8#8, 0xA1#8]).length ∧
    BusStops (answered [some .ok, some .fail] ready) 1 (some .fail) ∧
    BusStops (answered [none] ready) 0 none := by decide

theorem witness_ShowFlushesEveryPage : slim.life = .ready ∧ LegalConfig slim.cfg ∧
    BusOk slim (transactions (okFlush slim.cfg (fun p =>
      (List.range slim.cfg.w).map (fun k => slim.fb.read (p * slim.cfg.w + k))))) := by decide

theorem witness_ShowStopsAtAFailedTransaction : slim.life = .ready ∧ LegalConfig slim.cfg ∧
    2 < transactions (okFlush slim.cfg (fun p =>
      (List.range slim.cfg.w).map (fun k => slim.fb.read (p * slim.cfg.w + k)))) ∧
    BusStops (answered [some .ok, some .ok, some .fail] slim) 2 (some .fail) ∧
    BusStops (answered [none] slim) 0 none := by decide

theorem witness_InitBringsTheBlockUp : (uninit slim).life = .uninit ∧ LegalConfig (uninit slim).cfg ∧
    BusOk (uninit slim) (transactions (okInit (uninit slim).cfg)) := by decide

theorem witness_InitStopsAtAFailedTransaction : (uninit slim).life = .uninit ∧
    LegalConfig (uninit slim).cfg ∧ 0 < transactions (okInit (uninit slim).cfg) ∧
    BusStops (answered [some .fail] (uninit slim)) 0 (some .fail) ∧
    25 < transactions (okInit (uninit slim).cfg) ∧
    BusStops (answered (List.replicate 25 (some .ok) ++ [none]) (uninit slim)) 25 none := by decide

theorem witness_ShowOfTheDefaultDisplayCounts : ready.life = .ready ∧ ready.cfg.w = 128 ∧
    ready.cfg.h = 32 ∧ exec .showBuffer ready = .next (after .showBuffer ready) ∧
    ready.cfg.bus = .a ∧ ready.cfg.chunkA = 16 ∧ BusOk ready 56 ∧
    exec .showBuffer (onB ready) = .next (after .showBuffer (onB ready)) ∧
    (onB ready).cfg.bus = .b ∧ (onB ready).cfg.chunkB = 32 ∧ BusOk (onB ready) 40 :=
  ⟨rfl, rfl, rfl, rfl, rfl, rfl, by decide, rfl, rfl, rfl, by decide⟩

theorem witness_BusOperationsKeepFrameBufferAndLife :
    toggleBytes .powerOff ≠ none ∧ exec .powerOff ready = .next (after .powerOff ready) ∧
    (Instr.tpCmd 0xAE).port ≠ .host ∧ exec (.tpCmd 0xAE) ready = .next (after (.tpCmd 0xAE) ready) :=
  ⟨by decide, rfl, by decide, rfl⟩

theorem witness_StepKeepsTheInvariant : (asking 0x01 [1]).Inv ∧
    step (asking 0x01 [1]) = .next (after (.fill true) { asking 0x01 [1] with inbox := [], busy := true }) :=
  ⟨⟨rfl, by simp [asking, ready, State.reset], by decide, rfl, fun _ => by decide, trivial⟩, rfl⟩

theorem witness_WireOnlyGrows : step State.reset = .next State.reset := rfl

theorem witness_OnlyInitAndResetChangeLife :
    (∃ t, step { ready with inbox := [.reset slim.cfg] } = .next t ∧ t.life ≠ .ready ∧
      t.cfg ≠ ready.cfg) ∧
    (∃ t, step { uninit slim with inbox := [.request 0x10 []] } = .next t ∧ t.life ≠ .uninit) :=
  ⟨⟨_, rfl, by decide, by decide⟩, ⟨_, rfl, by decide⟩⟩

theorem witness_BusAWireFormat : (asking 0x12 []).cfg.bus = .a ∧
    step (asking 0x12 []) = .next (after .powerOff { asking 0x12 [] with inbox := [], busy := true }) :=
  ⟨rfl, rfl⟩

theorem witness_BusBWireFormat : (onB (asking 0x12 [])).cfg.bus = .b ∧
    step (onB (asking 0x12 [])) =
      .next (after .powerOff { onB (asking 0x12 []) with inbox := [], busy := true }) :=
  ⟨rfl, rfl⟩

theorem witness_OneResponsePerRequest :
    (Idle (asking 0x12 []) ∧ (asking 0x12 []).inbox = .request 0x12 [] :: [] ∧
      ∃ t, step (asking 0x12 []) = .next t ∧ t.busy = false) ∧
    (Idle (answered [none] (asking 0x12 [])) ∧
      (answered [none] (asking 0x12 [])).inbox = .request 0x12 [] :: [] ∧
      ∃ t, step (answered [none] (asking 0x12 [])) = .next t ∧ t.busy = true) :=
  ⟨⟨by decide, rfl, _, rfl, rfl⟩, by decide, rfl, _, rfl, rfl⟩

theorem witness_FrameBufferIsUnobservableBeforeInit :
    ({ uninit slim with inbox := [.request 0x10 []] }).life ≠ .ready ∧
      ∃ t, step { uninit slim with inbox := [.request 0x10 []] } = .next t ∧ t.life = .ready ∧
        0 < t.cfg.h / 8 * t.cfg.w :=
  ⟨by decide, _, rfl, by decide, by decide⟩

/-- The frame buffer of the FILL clause, and a write at its last byte. -/
theorem witness_MemReadReadsWhatMemWriteWrote : ready.life = .ready ∧ ready.fb.wf = true ∧
    exec (.fill true) ready = .next (after (.fill true) ready) ∧
    Memory.wf [(511, 0x80)] = true ∧ memWrite [(511, 0x80)] 510 [1, 0] = [(510, 1)] ∧
    memRead [(511, 0x80)] 510 2 = [0, 0x80] :=
  ⟨rfl, rfl, rfl, by decide, by decide, by decide⟩

end Sys2Proof.Machine.Tests
end

section
/-! PROOFS. The invariant of the block, and what a step fetches (spec/10_state.md R25, R28 to R35). -/

namespace Sys2Proof.Machine

/-! ### The wire holds at most one transaction in flight (R31, R75) -/

/-- A wire without a pending last event is settled whether the block is busy or not. -/
theorem SettledWire.anyBusy {w : List WireEvent} (h : SettledWire w false) (b : Bool) :
    SettledWire w b := by
  induction w with
  | nil => trivial
  | cons e w ih =>
    cases w with
    | nil => exact fun hp => absurd (h hp) Bool.false_ne_true
    | cons e' w => exact ⟨h.1, ih h.2⟩

/-- Settled events after a wire without a pending last event. -/
theorem SettledWire.append {w es : List WireEvent} {b : Bool} (hw : SettledWire w false)
    (hes : SettledWire es b) : SettledWire (w ++ es) b := by
  induction w with
  | nil => exact hes
  | cons e w ih =>
    cases w with
    | nil =>
      have he : ¬ e.pending = true := fun hp => absurd (hw hp) Bool.false_ne_true
      cases es with
      | nil => exact fun hp => absurd hp he
      | cons e' es => exact ⟨fun hp => absurd hp he, hes⟩
    | cons e' w => exact ⟨hw.1, ih hw.2⟩

/-- RST settles the transaction in flight (R310). -/
theorem SettledWire.append_rst {w : List WireEvent} {b : Bool} (h : SettledWire w b) :
    SettledWire (w ++ [.rst]) false := by
  induction w with
  | nil => exact fun hp => hp
  | cons e w ih =>
    cases w with
    | nil => exact ⟨fun _ => rfl, fun hp => hp⟩
    | cons e' w => exact ⟨h.1, ih h.2⟩

/-- The first events of a settled wire, where the block may still be busy with the last of them. -/
theorem SettledWire.of_append {w es : List WireEvent} {b : Bool} (h : SettledWire (w ++ es) b) :
    SettledWire w true := by
  induction w with
  | nil => trivial
  | cons e w ih =>
    cases w with
    | nil => exact fun _ => rfl
    | cons e' w => exact ⟨h.1, ih h.2⟩

/-- Events that all have their outcome are settled. -/
theorem settledWire_of_not_pending {es : List WireEvent} (h : ∀ e ∈ es, e.pending = false) (b : Bool) :
    SettledWire es b := by
  induction es with
  | nil => trivial
  | cons e es ih =>
    have he : ¬ e.pending = true := by simp [h e]
    cases es with
    | nil => exact fun hp => absurd hp he
    | cons e' es => exact ⟨fun hp => absurd hp he, ih (fun e he => h e (List.mem_cons_of_mem _ he))⟩

/-- What an operation plays is settled: only its last event can lack its outcome, and the block is then
busy (R223). -/
theorem Effect.settled {s t : State} {es : List WireEvent} (h : Effect s t es) :
    SettledWire (playEvents (busAnswer s) es).2.1 t.busy := by
  rcases playEvents_settled (busAnswer s) h.allOk with hp | ⟨hstall, fs, e, hplay, hfs⟩
  · exact settledWire_of_not_pending hp _
  · rw [hplay, h.stalled hstall]
    exact (settledWire_of_not_pending hfs false).append (b := true) (fun _ => rfl)

/-! ### The invariant -/

/-- While the block is not busy no transaction is in flight. -/
theorem State.Inv.settled_of_not_busy {s : State} (h : s.Inv) (hb : s.busy = false) :
    SettledWire s.wire false :=
  hb ▸ h.settled

/-- The invariant does not speak of the port, the inbox and the responses, nor of BUSY where no
transaction is in flight. -/
theorem State.Inv.withRequest {s : State} (h : s.Inv) (hw : SettledWire s.wire false) (busy : Bool)
    (port : Option PortReq) (inbox : List HostEvent) (resp : List (List Byte)) :
    { s with busy := busy, port := port, inbox := inbox, resp := resp }.Inv :=
  ⟨h.canonical, h.bounded, h.lines, h.noStrip, h.legal, hw.anyBusy _⟩

/-- Every operation keeps the invariant, when it starts with no transaction in flight. -/
theorem exec_keeps_inv {i : Instr} {s t : State} (h : s.Inv) (hw : SettledWire s.wire false)
    (hrun : exec i s = .next t) : t.Inv := by
  obtain ⟨es, he⟩ := exec_effect hrun
  obtain ⟨hwf, hbound⟩ := (exec_fb hrun).keeps h.canonical h.bounded
    (fun hl => LegalConfig.height (h.legal hl))
  refine ⟨hwf, ?_, ?_, he.strip h.noStrip, fun hready => ?_, ?_⟩
  · rw [he.cfg]
    exact hbound
  · rw [he.lines, he.cfg, Option.isSome_map]
    exact h.lines
  · rw [he.cfg]
    rcases exec_life hrun with hl | ⟨_, _, hlegal⟩
    · exact h.legal (hl ▸ hready)
    · exact (configLegal_iff _).mp (hlegal hready)
  · rw [he.wire]
    exact hw.append he.settled

/-- A reset leads to the invariant from any wire with at most one transaction in flight. -/
theorem resetBlock_inv (inputs : Cfg) {s : State} {b : Bool} (h : SettledWire s.wire b) :
    (resetBlock inputs s).Inv :=
  ⟨reset_fb_wf, fun _ hc => absurd hc List.not_mem_nil, resetLines_isSome inputs, rfl,
    (by intro h; cases h), h.append_rst⟩

/-- The state in which a request was cut short had at most one transaction in flight. -/
theorem abandon_inv (n : Nat) (inputs : Cfg) {s u : State} {es : List WireEvent}
    (hw : SettledWire s.wire false) (he : Effect s u es) : (abandon n inputs s u).Inv := by
  refine resetBlock_inv inputs (b := true) ?_
  have hes : SettledWire (u.wire.drop s.wire.length) u.busy := by
    rw [he.wire, List.drop_left]
    exact he.settled
  rw [← List.take_append_drop n (u.wire.drop s.wire.length)] at hes
  exact hw.append hes.of_append

/-- Settles O51, by the cases of a step: an operation keeps the invariant whatever the bus answers, and a
reset leads to it from any wire with at most one transaction in flight. -/
theorem stepKeepsTheInvariant : Obligations.StepKeepsTheInvariant := by
  intro s t h hstep
  cases step_cases hstep with
  | waited _ ht => exact ht ▸ h
  | port r i hb _ _ hrun =>
    have hw := h.settled_of_not_busy hb
    exact exec_keeps_inv (h.withRequest hw s.busy none s.inbox s.resp) hw hrun
  | request op args rest i hb _ _ _ hrun =>
    have hw := h.settled_of_not_busy hb
    exact exec_keeps_inv (h.withRequest hw true s.port rest s.resp) hw hrun
  | rejected op args rest e hb _ _ _ ht =>
    exact ht ▸ h.withRequest (h.settled_of_not_busy hb) false s.port rest _
  | reset inputs inbox _ ht => exact ht ▸ resetBlock_inv inputs h.settled
  | cut op args n inputs rest i u hb _ _ _ hrun ht =>
    obtain ⟨es, he⟩ := exec_effect hrun
    exact ht ▸ abandon_inv n inputs (h.settled_of_not_busy hb) he

/-- Settles O50: after reset the frame buffer lists nothing and the configuration is bus-A, which has no
lines. -/
theorem resetStateMeetsTheInvariant : Obligations.ResetStateMeetsTheInvariant :=
  resetBlock_inv Config.default (s := { State.reset with wire := [] }) (b := false) trivial

/-! ### The fetch -/

/-- Settles O6: an idle block fetches the request at the head of the inbox. -/
theorem stepRunsTheDecodedRequest : Obligations.StepRunsTheDecodedRequest := by
  rintro s op args rest i ⟨hb, hp⟩ hin hdec
  have hfetch : fetch s = .run i { s with inbox := rest, busy := true } := by
    simp [fetch, fetchRequest, hb, hp, hin, hdec]
  simp only [step, hfetch]

/-- Settles O9: among requests alone a busy block finds no reset. -/
theorem busyBlockConsumesNoRequest : Obligations.BusyBlockConsumesNoRequest := by
  intro s hb hin
  have hfetch : fetch s = .wait := by
    simp [fetch, hb, takeReset_requests hin]
  simp only [step, hfetch]

end Sys2Proof.Machine
end

section
/-! PROOFS. What a step does to WIRE, LIFE and the configuration (spec/10_state.md R21, R27, R30). -/

namespace Sys2Proof.Machine

/-! ### WIRE and the configuration -/

/-- Settles O52: every step appends the events of an operation, RST, both or nothing. -/
theorem wireOnlyGrows : Obligations.WireOnlyGrows := by
  intro s t hstep
  cases step_cases hstep with
  | waited _ ht => exact ⟨[], by simp [ht]⟩
  | port r i _ _ _ hrun =>
    obtain ⟨es, he⟩ := exec_effect hrun
    exact ⟨_, he.wire⟩
  | request op args rest i _ _ _ _ hrun =>
    obtain ⟨es, he⟩ := exec_effect hrun
    exact ⟨_, he.wire⟩
  | rejected op args rest e _ _ _ _ ht => exact ⟨[], by simp [ht]⟩
  | reset inputs inbox _ ht => exact ⟨[.rst], by simp [ht]⟩
  | cut op args n inputs rest i u _ _ _ _ _ ht =>
    exact ⟨(u.wire.drop s.wire.length).take n ++ [.rst], by simp [ht]⟩

/-! ### Which bytes decode to INIT -/

/-- Reading a `c1` field gives no operation but its own (R94). -/
theorem readFlag_ne_ok {b : Byte} {k : Bool → Instr} {i : Instr} (h : ∀ c, k c ≠ i) :
    readFlag b k ≠ .ok i := fun hr =>
  have ⟨c, _, hc⟩ := readFlag_eq_ok hr
  h c hc

/-- No row but that of INIT gives INIT (R93). -/
theorem decodeArgs_ne_init {o : HostOp} (args : List Byte) (ho : o ≠ .init) :
    decodeArgs o args ≠ .ok .init := by
  intro h
  cases o <;> simp only [decodeArgs] at h
  case init => exact ho rfl
  all_goals split at h
  all_goals simp [readFlag_ne_ok, ite_eq_iff] at h

/-- INIT has no operands (R93). -/
theorem decodeArgs_init_operands {args : List Byte} (h : decodeArgs .init args = .ok .init) :
    args = [] := by
  simp only [decodeArgs] at h
  split at h
  · rfl
  · cases h

/-- Only the opcode of INIT, with nothing after it, decodes to INIT (R92, R93). -/
theorem decodeHost_init {maxReq : Nat} {op : Byte} {args : List Byte}
    (h : decodeHost maxReq (op :: args) = .ok .init) : op = 0x10 ∧ args = [] := by
  simp only [decodeHost] at h
  split at h
  · cases h
  next o hop =>
    split at h
    · cases h
    · have ho : o = .init := by_contra fun ho => decodeArgs_ne_init args ho h
      subst ho
      exact ⟨by simpa [hostOpcodes] using hostOp_eq_some.mp hop, decodeArgs_init_operands h⟩

/-- The transport port holds transport operations (R100). -/
theorem decodeTp_port {bytes : List Byte} {i : Instr} (h : decodeTp bytes = .ok i) : i.port = .tp := by
  unfold decodeTp at h
  split at h
  · cases h
  · split at h
    · split at h <;> cases h
      rfl
    · split at h <;> cases h
      rfl

/-- The bytes of a device command are read as a device command (R103). -/
theorem decodeDev_port {bytes : List Byte} {i : Instr} (h : decodeDev bytes = .ok i) :
    i.port = .dev := by
  unfold decodeDev at h
  split at h
  · cases h
  · split at h
    · cases h
    next o _ =>
      cases o <;> simp only [decodeDevArgs] at h
      all_goals
        split at h <;> cases h
        rfl

/-- No request of the internal port is a host operation (R100, R103). -/
theorem decode_portBytes_port {r : PortReq} {maxReq : Nat} {i : Instr}
    (h : decode (portBytes r).1 maxReq (portBytes r).2 = .ok i) : i.port ≠ .host := by
  cases r with
  | tp k l => simp [decodeTp_port (bytes := flagByte k :: l) h]
  | dev bytes => simp [decodeDev_port (bytes := bytes) h]

/-! ### LIFE and the configuration -/

/-- A reset in the middle of a request leaves UNINIT and appends RST last (R310). -/
theorem abandon_uninit_rst (n : Nat) (inputs : Cfg) (s u : State) :
    (abandon n inputs s u).life = .uninit ∧
      ∃ es, (abandon n inputs s u).wire = s.wire ++ es ++ [.rst] :=
  ⟨rfl, (u.wire.drop s.wire.length).take n, rfl⟩

/-- Settles O53, by the cases of a step: of the operations only INIT changes LIFE, none changes the
configuration, and no bytes of the internal port decode to INIT. -/
theorem onlyInitAndResetChangeLife : Obligations.OnlyInitAndResetChangeLife := by
  intro s t hstep
  cases step_cases hstep with
  | waited _ ht => exact ⟨fun h => absurd (ht ▸ rfl) h, fun h => absurd (ht ▸ rfl) h⟩
  | port r i _ _ hdec hrun =>
    obtain ⟨es, he⟩ := exec_effect hrun
    refine ⟨fun h => ?_, fun h => absurd he.cfg h⟩
    rcases exec_life hrun with hlife | ⟨rfl, _⟩
    · exact absurd hlife h
    · exact absurd rfl (decode_portBytes_port hdec)
  | request op args rest i _ _ hin hdec hrun =>
    obtain ⟨es, he⟩ := exec_effect hrun
    refine ⟨fun h => ?_, fun h => absurd he.cfg h⟩
    rcases exec_life hrun with hlife | ⟨rfl, huninit, _⟩
    · exact absurd hlife h
    · obtain ⟨rfl, rfl⟩ := decodeHost_init hdec
      exact .inr ⟨huninit, rest, hin⟩
  | rejected op args rest e _ _ _ _ ht =>
    exact ⟨fun h => absurd (by simp [ht]) h, fun h => absurd (by simp [ht]) h⟩
  | reset inputs inbox _ ht =>
    have hreset : t.life = .uninit ∧ ∃ es, t.wire = s.wire ++ es ++ [.rst] :=
      ht ▸ ⟨rfl, [], by simp⟩
    exact ⟨fun _ => .inl hreset, fun _ => hreset⟩
  | cut op args n inputs rest i u _ _ _ _ _ ht =>
    have hreset := ht ▸ abandon_uninit_rst n inputs _ u
    exact ⟨fun _ => .inl hreset, fun _ => hreset⟩

end Sys2Proof.Machine
end

section
/-! PROOFS. Where TP_DATA stops (spec/42_transport.md R223, R224, R227, R231). -/

namespace Sys2Proof.Machine

/-! ### The events before the transaction that is not answered `ok` -/

/-- An operation that stops at one of some transactions makes none of the events after them. -/
theorem cutEvents_append {k : Nat} (a : Answer) {es : List WireEvent} (fs : List WireEvent)
    (hes : ∀ e ∈ es, e.isTransaction = true) (hk : k < es.length) :
    cutEvents k a (es ++ fs) = cutEvents k a es := by
  induction es generalizing k with
  | nil => simp at hk
  | cons e es ih =>
    have he := hes e List.mem_cons_self
    cases k with
    | zero => simp [cutEvents, he]
    | succ k =>
      have hk : k < es.length := by simpa using hk
      simp [cutEvents, he, ih (fun e h => hes e (List.mem_cons_of_mem _ h)) hk]

/-- Transactions drive no line, up to wherever they are cut (R222). -/
theorem linesAfter_cutEvents (k : Nat) (a : Answer) {es : List WireEvent}
    (hes : ∀ e ∈ es, e.isTransaction = true) (ls : Lines) : linesAfter (cutEvents k a es) ls = ls := by
  induction es generalizing k with
  | nil => rfl
  | cons e es ih =>
    have he := hes e List.mem_cons_self
    have hes := fun e h => hes e (List.mem_cons_of_mem _ h)
    simp only [cutEvents, he, if_true]
    cases k with
    | zero => exact linesAfter_transaction ((withOut_isTransaction e a).trans he) ls
    | succ k =>
      show linesAfter ([e] ++ cutEvents k a es) ls = ls
      rw [linesAfter_append, linesAfter_transaction he, ih k hes]

/-- A bus-B TP_DATA that stops at one of its chunks leaves CS asserted and DC at 1 (R231). -/
theorem linesAfter_cut_okData {c : Cfg} (hb : c.bus = .b) {l : List Byte} {k : Nat} (a : Answer)
    (hk : k < (chunks l (chunkSize c)).length) (ls : Lines) :
    linesAfter (cutEvents k a (okData c l)) ls = { ls with cs := false, dc := true } := by
  have hwrites : ∀ e ∈ (chunks l c.chunkB).map (fun d => WireEvent.bw d (some .ok)),
      e.isTransaction = true := by simp [WireEvent.isTransaction]
  simp only [chunkSize, hb] at hk
  have hcut : cutEvents k a (okData c l) =
      [.bl .cs true, .bl .dc true, .bl .cs false] ++
        cutEvents k a ((chunks l c.chunkB).map (fun d => WireEvent.bw d (some .ok))) := by
    rw [← cutEvents_append a [.bl .cs true] hwrites (by simpa using hk)]
    simp [okData, hb, cutEvents, WireEvent.isTransaction]
  rw [hcut, linesAfter_append, linesAfter_cutEvents k a hwrites]
  rfl

/-! ### CMDBUF and the port -/

/-- What both operations keep is kept by one after the other. -/
theorem andThen_keeps {P : State → Prop} {r : TpRes} {next : State → TpRes} (h : P r.st)
    (hn : ∀ t, P t → P (next t).st) : P (r.andThen next).st := by
  unfold TpRes.andThen
  split
  · exact hn _ h
  · exact h
  · exact h

theorem xferAll_port (es : List (Answer → WireEvent)) (s : State) :
    (xferAll es s).st.port = s.port := by
  induction es generalizing s with
  | nil => rfl
  | cons e es ih =>
    exact andThen_keeps (P := fun t => t.port = s.port) (r := xfer e s) rfl
      (fun t ht => (ih t).trans ht)

/-- Sending the chunks touches neither the port nor CMDBUF, on bus-A (R227) or on bus-B (R231). -/
theorem busData_port_cmdBuf (l : List Byte) (s : State) :
    ((busAData l s).st.port = s.port ∧ (busAData l s).st.cmdBuf = s.cmdBuf) ∧
      ((busBData l s).st.port = s.port ∧ (busBData l s).st.cmdBuf = s.cmdBuf) := by
  refine ⟨⟨xferAll_port _ _, xferAll_cmdBuf _ _⟩, ?_⟩
  exact andThen_keeps (P := fun t => t.port = s.port ∧ t.cmdBuf = s.cmdBuf)
    ⟨xferAll_port _ (openBracket true s), xferAll_cmdBuf _ (openBracket true s)⟩ (fun _ ht => ht)

/-- A port call whose operation touches neither the port nor CMDBUF keeps CMDBUF, and where the operation
never returns the port still holds the request (R100, R223). -/
theorem portCall_port_cmdBuf {k : Bool} {l : List Byte} {body : State → TpRes} (s : State)
    (hbody : ∀ t, (body t).st.port = t.port ∧ (body t).st.cmdBuf = t.cmdBuf) :
    (portCall k l body s).st.cmdBuf = s.cmdBuf ∧
      ((portCall k l body s).ret = none → (portCall k l body s).st.port = some (.tp k l)) := by
  obtain ⟨hport, hcmd⟩ := hbody { s with port := some (.tp k l), ret := none }
  unfold portCall
  generalize body { s with port := some (.tp k l), ret := none } = r at hport hcmd
  obtain ⟨ret, st⟩ := r
  cases ret
  · exact ⟨hcmd, fun _ => hport⟩
  · exact ⟨hcmd, fun h => by cases h⟩

/-- TP_DATA keeps CMDBUF, and the port holds its request where it never returns. -/
theorem tpData_port_cmdBuf (l : List Byte) (s : State) :
    (tpData l s).st.cmdBuf = s.cmdBuf ∧
      ((tpData l s).ret = none → (tpData l s).st.port = some (.tp true l)) := by
  refine portCall_port_cmdBuf s (fun t => ?_)
  obtain ⟨ha, hb⟩ := busData_port_cmdBuf l t
  cases s.cfg.bus with
  | a => exact ha
  | b => exact hb

/-! ### TP_DATA -/

/-- Settles O36: TP_DATA plays the events of its chunks, and the k-th transaction among them is the k-th
chunk. -/
theorem tpDataStopsAtTheFailedChunk : Obligations.TpDataStopsAtTheFailedChunk := by
  intro l s k a hsize hk hstops
  have hplays := plays_tpData l s
  obtain ⟨hret, hwire, hscript, hasked, hbusy, hlines⟩ :=
    hplays.stop (allOk_okData _ _) (transactions_okData s.cfg l ▸ hk) hstops
  have hleft := tpData_left l s
  obtain ⟨hcmd, hport⟩ := tpData_port_cmdBuf l s
  refine ⟨(tpData l s).st, if_neg (by omega), ?_, hplays.life, hplays.fb, hplays.resp, hbusy, hcmd,
    fun hb => ?_, fun ha => hport (hret.trans ha)⟩
  · exact { wire := hwire, script := hscript, asked := hasked, lines := hlines
            ret := hleft.ret.trans hret, port := fun ha => hleft.port (hret ▸ ha)
            cmdBuf := fun _ => hcmd, cfg := hplays.cfg, strip := hplays.strip
            inbox := hplays.inbox }
  · rw [hlines, funext (linesAfter_cut_okData hb a hk)]

end Sys2Proof.Machine
end

section
/-! PROOFS. What an operation that uses the bus keeps, and what does not depend on the contents of the
frame buffer (spec/10_state.md R26, R28, spec/41_controller.md R170, R174, R182). -/

namespace Sys2Proof.Machine

/-! ### Operations that do not look at the frame buffer -/

/-- The state with these contents of the frame buffer. -/
def State.withFb (m : Memory) (s : State) : State := { s with fb := m }

@[simp] theorem State.withFb_cfg (m : Memory) (s : State) : (s.withFb m).cfg = s.cfg := rfl

@[simp] theorem State.withFb_life (m : Memory) (s : State) : (s.withFb m).life = s.life := rfl

@[simp] theorem State.withFb_busy (m : Memory) (s : State) : (s.withFb m).busy = s.busy := rfl

@[simp] theorem State.withFb_port (m : Memory) (s : State) : (s.withFb m).port = s.port := rfl

@[simp] theorem State.withFb_inbox (m : Memory) (s : State) : (s.withFb m).inbox = s.inbox := rfl

/-- The result with these contents of the frame buffer. -/
def TpRes.withFb (m : Memory) (r : TpRes) : TpRes := ⟨r.ret, r.st.withFb m⟩

/-- The contents of the frame buffer make no difference to the operation, which keeps them. -/
def FbBlind (op : State → TpRes) : Prop := ∀ m s, op (s.withFb m) = (op s).withFb m

theorem andThen_of_ok {r : TpRes} (next : State → TpRes) (h : r.ret = some .ok) :
    r.andThen next = next r.st := by
  simp [TpRes.andThen, h]

theorem andThen_of_not_ok {r : TpRes} (next : State → TpRes) (h : r.ret ≠ some .ok) :
    r.andThen next = r := by
  unfold TpRes.andThen
  split
  next hok => exact absurd hok h
  next => rfl
  next => rfl

theorem andThen_withFb (m : Memory) {r : TpRes} {next : State → TpRes}
    (hn : next (r.st.withFb m) = (next r.st).withFb m) :
    (r.withFb m).andThen next = (r.andThen next).withFb m := by
  by_cases hok : r.ret = some .ok
  · rw [andThen_of_ok next hok, andThen_of_ok next (r := r.withFb m) hok]
    exact hn
  · rw [andThen_of_not_ok next hok, andThen_of_not_ok next (r := r.withFb m) hok]

theorem FbBlind.andThen {op next : State → TpRes} (h : FbBlind op) (hn : FbBlind next) :
    FbBlind (fun s => (op s).andThen next) := fun m s => by
  simp only [h m s, andThen_withFb m (hn m _)]

theorem fbBlind_xferAll (es : List (Answer → WireEvent)) : FbBlind (xferAll es) := by
  induction es with
  | nil => exact fun _ _ => rfl
  | cons e es ih => exact FbBlind.andThen (op := xfer e) (fun _ _ => rfl) ih

theorem fbBlind_portCall {body : State → TpRes} (k : Bool) (l : List Byte) (h : FbBlind body) :
    FbBlind (portCall k l body) := by
  intro m s
  have hbody := h m { s with port := some (.tp k l), ret := none }
  show portCall k l body (s.withFb m) = _
  unfold portCall
  rw [show { s.withFb m with port := some (.tp k l), ret := none } =
    State.withFb m { s with port := some (.tp k l), ret := none } from rfl, hbody]
  generalize body { s with port := some (.tp k l), ret := none } = r
  obtain ⟨ret, st⟩ := r
  cases ret <;> rfl

theorem releaseCmdBuf_withFb (m : Memory) (r : TpRes) :
    releaseCmdBuf (r.withFb m) = (releaseCmdBuf r).withFb m := by
  obtain ⟨ret, st⟩ := r
  cases ret <;> rfl

theorem fbBlind_tpCmd (b : Byte) : FbBlind (tpCmd b) := by
  intro m s
  refine fbBlind_portCall false [b] (body := match s.cfg.bus with | .a => busACmd b | .b => busBCmd b)
    ?_ m s
  cases s.cfg.bus with
  | a =>
    exact fun m s => releaseCmdBuf_withFb m
      (xfer (.ax (busAddr s.cfg) [0x80, b]) { s with cmdBuf := (0x80, b) })
  | b =>
    exact FbBlind.andThen (op := fun s => xfer (.bw [b]) (openBracket false s)) (fun _ _ => rfl)
      (fun _ _ => rfl)

theorem fbBlind_tpData (l : List Byte) : FbBlind (tpData l) := by
  intro m s
  refine fbBlind_portCall true l (body := match s.cfg.bus with | .a => busAData l | .b => busBData l)
    ?_ m s
  cases s.cfg.bus with
  | a => exact fun m s => fbBlind_xferAll _ m s
  | b =>
    intro m s
    have hsend := fbBlind_xferAll ((chunks l s.cfg.chunkB).map .bw) m (openBracket true s)
    exact (congrArg (·.andThen closeBracket) hsend).trans (andThen_withFb m rfl)

theorem fbBlind_sendCmds (bs : List Byte) : FbBlind (sendCmds bs) := by
  induction bs with
  | nil => exact fun _ _ => rfl
  | cons b bs ih => exact (fbBlind_tpCmd b).andThen ih

/-! ### What an operation that uses the bus keeps -/

/-- From `s` to `t` the frame buffer, LIFE, the configuration, STRIP and what the host does next are as
before: what a transport operation keeps (R26, R182). -/
structure BusKept (s t : State) : Prop where
  fb : t.fb = s.fb
  life : t.life = s.life
  cfg : t.cfg = s.cfg
  strip : t.strip = s.strip
  inbox : t.inbox = s.inbox

theorem Plays.kept {s : State} {es : List WireEvent} {r : TpRes} (h : Plays s es r) :
    BusKept s r.st :=
  ⟨h.fb, h.life, h.cfg, h.strip, h.inbox⟩

/-- Answering after a transport operation keeps what the operation kept (R174). -/
theorem BusKept.finish {s : State} {r : TpRes} (h : BusKept s r.st) : BusKept s (finish r) := by
  unfold Machine.finish
  split
  · exact ⟨h.fb, h.life, h.cfg, h.strip, h.inbox⟩
  · exact ⟨h.fb, h.life, h.cfg, h.strip, h.inbox⟩
  · exact h

/-- So does the lifecycle gate (R281). -/
theorem BusKept.gated {s : State} {op : State → State} (h : BusKept s (op s)) :
    BusKept s (gated op s) := by
  unfold Machine.gated
  split
  · exact h
  · exact ⟨rfl, rfl, rfl, rfl, rfl⟩

/-- A toggle is behind the lifecycle gate and sends device commands (R176 to R180). -/
theorem exec_toggle {i : Instr} {bytes : List Byte} (s : State) (hi : toggleBytes i = some bytes) :
    ∃ op : State → TpRes, exec i s = .next (gated (fun s => finish (op s)) s) ∧
      ∃ es, Plays s es (op s) := by
  cases i <;> simp only [toggleBytes, reduceCtorEq] at hi
  case rotate f => exact ⟨_, rfl, _, plays_rotate f s⟩
  all_goals exact ⟨_, rfl, _, plays_sendDevice _ s⟩

/-- An operation of the internal port plays its events and does not look at the frame buffer; whether it
stops the block depends on the configuration only (R100, R181, R221). -/
theorem exec_internal {i : Instr} {s t : State} (hi : i.port ≠ .host) (h : exec i s = .next t) :
    ∃ op : State → TpRes, FbBlind op ∧ (∃ es, Plays s es (op s)) ∧
      ∀ s' : State, s'.cfg = s.cfg → exec i s' = .next (op s').st := by
  cases i <;> simp only [Instr.port, ne_eq, not_true_eq_false] at hi
  case tpCmd b => exact ⟨tpCmd b, fbBlind_tpCmd b, ⟨_, plays_tpCmd b s⟩, fun _ _ => rfl⟩
  case tpData l =>
    refine ⟨tpData l, fbBlind_tpData l, ⟨_, plays_tpData l s⟩, fun s' hs => ?_⟩
    simp only [exec, execTpData] at h ⊢
    split at h
    · cases h
    next hsize => rw [hs, if_neg hsize]
  all_goals exact ⟨sendDevice _, fbBlind_sendCmds _, ⟨_, plays_sendDevice _ s⟩, fun _ _ => rfl⟩

/-- Settles O49: SHOW, the toggles and the operations of the internal port only play events, and an answer
after them changes nothing of what these keep. -/
theorem busOperationsKeepFrameBufferAndLife : Obligations.BusOperationsKeepFrameBufferAndLife := by
  intro i s t hi hrun
  have hkept : BusKept s t := by
    rcases hi with rfl | htoggle | hinternal
    · rw [← Host.Outcome.next.inj hrun]
      exact (plays_flush s).kept.finish.gated
    · obtain ⟨bytes, hbytes⟩ := Option.ne_none_iff_exists'.mp htoggle
      obtain ⟨op, hexec, es, hplays⟩ := exec_toggle s hbytes
      rw [← Host.Outcome.next.inj (hexec.symm.trans hrun)]
      exact hplays.kept.finish.gated (op := fun s => finish (op s))
    · obtain ⟨op, _, ⟨es, hplays⟩, hexec⟩ := exec_internal hinternal hrun
      rw [← Host.Outcome.next.inj ((hexec s rfl).symm.trans hrun)]
      exact hplays.kept
  exact ⟨hkept.fb, hkept.life, hkept.cfg, hkept.strip, hkept.inbox⟩

/-! ### INIT forgets the contents of the frame buffer -/

theorem andThen_congr {r : TpRes} {next next' : State → TpRes} (h : next r.st = next' r.st) :
    r.andThen next = r.andThen next' := by
  unfold TpRes.andThen
  split
  · exact h
  · rfl
  · rfl

/-- What the flush does for a page, with the page's bytes and the configuration given (R173). -/
def sendPage (c : Cfg) (p : Nat) (page : List Byte) : State → TpRes := fun s =>
  (sendDevice (.devPageAddr (BitVec.ofNat 8 p) (BitVec.ofNat 8 (pages c - 1))) s).andThen
    (fun s => (sendDevice (.devColAddr 0x00 (BitVec.ofNat 8 (c.w - 1))) s).andThen (tpData page))

theorem fbBlind_sendPage (c : Cfg) (p : Nat) (page : List Byte) : FbBlind (sendPage c p page) :=
  (fbBlind_sendCmds _).andThen ((fbBlind_sendCmds _).andThen (fbBlind_tpData page))

/-- The device commands before a page's bytes change neither the configuration nor the frame buffer. -/
theorem flushPage_eq_sendPage (p : Nat) (s : State) :
    flushPage p s = sendPage s.cfg p (memRead s.fb (p * s.cfg.w) s.cfg.w) s := by
  refine andThen_congr ?_
  have hpage := plays_sendDevice
    (.devPageAddr (BitVec.ofNat 8 p) (BitVec.ofNat 8 (pages s.cfg - 1))) s
  rw [hpage.cfg]
  refine andThen_congr ?_
  have hcol := plays_sendDevice (.devColAddr 0x00 (BitVec.ofNat 8 (s.cfg.w - 1))) (sendDevice
    (.devPageAddr (BitVec.ofNat 8 p) (BitVec.ofNat 8 (pages s.cfg - 1))) s).st
  rw [hcol.cfg, hcol.fb, hpage.cfg, hpage.fb]

/-- Two frame buffers with the same bytes in the pages to send make no difference to the flush (R173). -/
theorem flushPages_withFb {m : Memory} {s : State} {ps : List Nat}
    (hm : ∀ p ∈ ps, memRead m (p * s.cfg.w) s.cfg.w = memRead s.fb (p * s.cfg.w) s.cfg.w) :
    flushPages ps (s.withFb m) = (flushPages ps s).withFb m := by
  induction ps generalizing s with
  | nil => rfl
  | cons p ps ih =>
    have hpage : flushPage p (s.withFb m) = (flushPage p s).withFb m := by
      rw [flushPage_eq_sendPage, flushPage_eq_sendPage, ← hm p List.mem_cons_self]
      exact fbBlind_sendPage s.cfg p _ m s
    have hkept := (plays_flushPage p s).kept
    simp only [flushPages, hpage]
    refine andThen_withFb m (ih ?_)
    rw [hkept.cfg, hkept.fb]
    exact fun q hq => hm q (List.mem_cons_of_mem _ hq)

/-- Once the frame buffer is filled, its old contents make no difference to the flush (R170). -/
theorem flush_fillBytes_withFb (m : Memory) (s : State) :
    flush (fillBytes 0x00 (s.withFb m)) =
      (flush (fillBytes 0x00 s)).withFb (m.remake (fbSize s.cfg) (fun _ => 0x00)) := by
  refine flushPages_withFb (s := fillBytes 0x00 s) (fun p hp => ?_)
  have hp : p < pages s.cfg := List.mem_range.mp hp
  exact (memRead_fillBytes (s.withFb m) hp).trans (memRead_fillBytes s hp).symm

/-- The two frame buffers have the same bytes in [0, P × W). -/
def SameBytes (c : Cfg) (m n : Memory) : Prop := ∀ a, a < fbSize c → m.read a = n.read a

/-- INIT after its checks and its reset pulse: the initialization sequence, the clearing of the frame
buffer, the first flush (R170). -/
def initSend (s : State) : TpRes :=
  (sendCmds (initSeq s.cfg) s).andThen (fun s => flush (fillBytes 0x00 s))

/-- Where INIT comes to its end it has filled the frame buffer with zeros; where it does not, it may have
left the old contents. -/
theorem initSend_withFb (m : Memory) (s : State) :
    ∃ m', initSend (s.withFb m) = (initSend s).withFb m' ∧
      ((initSend s).ret = some .ok → SameBytes s.cfg m' (initSend s).st.fb) := by
  unfold initSend
  rw [State.withFb_cfg, fbBlind_sendCmds (initSeq s.cfg) m s]
  have hcfg := (plays_sendCmds (initSeq s.cfg) s).cfg
  generalize sendCmds (initSeq s.cfg) s = r at hcfg
  by_cases hok : r.ret = some .ok
  · rw [andThen_of_ok _ hok, andThen_of_ok (r := r.withFb m) _ hok]
    refine ⟨_, flush_fillBytes_withFb m r.st, fun _ a ha => ?_⟩
    rw [← hcfg] at ha
    rw [(plays_flush _).fb, fillBytes_fb, Memory.read_remake, Memory.read_remake, if_pos ha,
      if_pos ha]
  · rw [andThen_of_not_ok _ hok, andThen_of_not_ok (r := r.withFb m) _ hok]
    exact ⟨m, rfl, fun h => absurd h hok⟩

theorem initRun_withFb (m : Memory) (s : State) :
    ∃ m', initRun (s.withFb m) = (initRun s).withFb m' ∧
      ((initRun s).ret = some .ok → SameBytes s.cfg m' (initRun s).st.fb) := by
  unfold initRun
  rw [State.withFb_cfg]
  cases s.cfg.bus with
  | a => exact initSend_withFb m s
  | b => exact initSend_withFb m (busBResetPulse s)

theorem finishInit_withFb (m : Memory) (r : TpRes) :
    finishInit (r.withFb m) = (finishInit r).withFb m := by
  obtain ⟨ret, st⟩ := r
  rcases ret with _ | ⟨_ | _⟩ <;> rfl

/-- INIT leaves READY only where every transaction was answered `ok` (R170, R174). -/
theorem finishInit_ready {r : TpRes} (h : r.st.life ≠ .ready) (hready : (finishInit r).life = .ready) :
    r.ret = some .ok := by
  unfold finishInit at hready
  split at hready
  next hok => exact hok
  next => cases hready
  next => exact absurd hready h

/-- `o'` is `o` but for the contents of the frame buffer, which agree in [0, P × W) where the outcome is
a READY block. -/
def FbUnobserved (o o' : Host.Outcome State Fault Refusal) : Prop :=
  ∀ t, o = .next t → ∃ m, o' = .next (t.withFb m) ∧ (t.life = .ready → SameBytes t.cfg m t.fb)

/-- An outcome that is not READY. -/
theorem fbUnobserved_next {t : State} (m : Memory) (h : t.life ≠ .ready) :
    FbUnobserved (.next t) (.next (t.withFb m)) := by
  rintro _ ⟨⟩
  exact ⟨m, rfl, fun hready => absurd hready h⟩

theorem execInit_unobserved (m : Memory) {s : State} (h : s.life ≠ .ready) :
    FbUnobserved (exec .init s) (exec .init (s.withFb m)) := by
  show FbUnobserved (.next (initOp s)) (.next (initOp (s.withFb m)))
  unfold initOp
  rw [State.withFb_life]
  cases hl : s.life with
  | ready => exact absurd hl h
  | failed => exact fbUnobserved_next m h
  | uninit =>
    by_cases hc : configLegal s.cfg = true
    · simp only [if_pos hc, if_pos (c := configLegal (s.withFb m).cfg = true) hc]
      obtain ⟨m', hrun, hsame⟩ := initRun_withFb m s
      have hmoves := moves_initRun s
      rintro _ ⟨⟩
      refine ⟨m', by rw [hrun, finishInit_withFb], fun hready => ?_⟩
      have hok := finishInit_ready (hmoves.life ▸ h) hready
      rw [finishInit_fb, (effect_finishInit hmoves (allOk_okInit _) (inFormat_okInit _)).cfg]
      exact hsame hok
    · simp only [if_neg hc, if_neg (c := configLegal (s.withFb m).cfg = true) hc]
      exact fbUnobserved_next (t := raiseStatus .badConfig { s with life := .failed }) m (by simp)

/-- The gate of every host operation but INIT and DECODE_FRAME (R130, R281). -/
theorem exec_not_ready {i : Instr} {s : State} (hp : i.port = .host) (hi : i ≠ .init)
    (hd : ∀ frame, i ≠ .decodeFrame frame) (h : s.life ≠ .ready) :
    exec i s = .next (raiseStatus .notReady s) := by
  cases i <;> simp only [Instr.port, reduceCtorEq] at hp
  case init => exact absurd rfl hi
  case decodeFrame frame => exact absurd rfl (hd frame)
  all_goals exact congrArg Host.Outcome.next (if_neg h)

/-- Outside READY no operation lets the contents of the frame buffer be observed (R28). -/
theorem exec_unobserved (i : Instr) (m : Memory) {s : State} (h : s.life ≠ .ready) :
    FbUnobserved (exec i s) (exec i (s.withFb m)) := by
  by_cases hp : i.port = .host
  · by_cases hi : i = .init
    · exact hi ▸ execInit_unobserved m h
    · by_cases hd : ∃ frame, i = .decodeFrame frame
      · obtain ⟨frame, rfl⟩ := hd
        exact fbUnobserved_next m h
      · have hd : ∀ frame, i ≠ .decodeFrame frame := fun frame hf => hd ⟨frame, hf⟩
        rw [exec_not_ready hp hi hd h, exec_not_ready (s := s.withFb m) hp hi hd h]
        exact fbUnobserved_next m h
  · intro t hrun
    obtain ⟨op, hblind, ⟨es, hplays⟩, hexec⟩ := exec_internal hp hrun
    have ht := Host.Outcome.next.inj ((hexec s rfl).symm.trans hrun)
    subst ht
    refine ⟨m, ?_, fun hready => absurd (hplays.life ▸ hready) h⟩
    rw [hexec (s.withFb m) rfl, hblind m s]
    rfl

/-! ### A step outside READY -/

/-- `f'` is `f` but for the contents of the frame buffer, fetched by a block with this LIFE. -/
inductive FetchedAlike (l : Life) : Fetched → Fetched → Prop where
  | wait : FetchedAlike l .wait .wait
  | run (i : Instr) (s : State) (m : Memory) (h : s.life = l) :
      FetchedAlike l (.run i s) (.run i (s.withFb m))
  | settled (s : State) (m : Memory) (h : s.life = l ∨ s.life = .uninit) :
      FetchedAlike l (.settled s) (.settled (s.withFb m))
  | cut (i : Instr) (n : Nat) (inputs : Cfg) (s : State) (m : Memory) (h : s.life = l) :
      FetchedAlike l (.cut i n inputs s) (.cut i n inputs (s.withFb m))
  | bad (f : Fault) : FetchedAlike l (.bad f) (.bad f)

/-- A reset gives the frame buffer contents of its own (R28, R310). -/
theorem fetchedAlike_reset (l : Life) (m : Memory) (inputs : Cfg) (s : State) :
    FetchedAlike l (.settled (resetBlock inputs s)) (.settled (resetBlock inputs (s.withFb m))) :=
  .settled (resetBlock inputs s) [] (.inr rfl)

theorem fetchPort_alike (r : PortReq) (m : Memory) (s : State) :
    FetchedAlike s.life (fetchPort r s) (fetchPort r (s.withFb m)) := by
  unfold fetchPort
  rw [State.withFb_cfg]
  cases decode (portBytes r).1 s.cfg.maxReq (portBytes r).2 with
  | ok i => exact .run i { s with port := none } m rfl
  | error e => exact .bad _

theorem fetchRequest_alike (op : Byte) (args : List Byte) (m : Memory) (s : State) :
    FetchedAlike s.life (fetchRequest op args s) (fetchRequest op args (s.withFb m)) := by
  unfold fetchRequest
  rw [State.withFb_cfg]
  cases decode .host s.cfg.maxReq (op :: args) with
  | ok i => exact .run i { s with busy := true } m rfl
  | error e => exact .settled (raiseStatus (decodeStatus e) { s with busy := true }) m (.inl rfl)

theorem fetchCut_alike (op : Byte) (args : List Byte) (n : Nat) (inputs : Cfg) (m : Memory)
    (s : State) :
    FetchedAlike s.life (fetchCut op args n inputs s) (fetchCut op args n inputs (s.withFb m)) := by
  unfold fetchCut
  rw [State.withFb_cfg]
  cases decode .host s.cfg.maxReq (op :: args) with
  | ok i => exact .cut i n inputs { s with busy := true } m rfl
  | error e => exact fetchedAlike_reset s.life m inputs s

/-- What the block does next does not depend on the frame buffer. -/
theorem fetch_alike (m : Memory) (s : State) :
    FetchedAlike s.life (fetch s) (fetch (s.withFb m)) := by
  unfold fetch
  by_cases hb : s.busy = true
  · rw [if_pos hb, if_pos (c := (s.withFb m).busy = true) hb, State.withFb_inbox]
    cases takeReset s.inbox with
    | none => exact .wait
    | some r => exact fetchedAlike_reset s.life m r.1 { s with inbox := r.2 }
  · rw [if_neg hb, if_neg (c := (s.withFb m).busy = true) hb, State.withFb_port, State.withFb_inbox]
    cases s.port with
    | some r => exact fetchPort_alike r m s
    | none =>
      cases s.inbox with
      | nil => exact .wait
      | cons e rest =>
        cases e with
        | request op args => exact fetchRequest_alike op args m { s with port := none, inbox := rest }
        | reset inputs => exact fetchedAlike_reset s.life m inputs { s with port := none, inbox := rest }
        | resetDuring op args n inputs =>
          exact fetchCut_alike op args n inputs m { s with port := none, inbox := rest }

/-- An operation cut short by a reset, from two states that differ in the frame buffer only. -/
theorem cutShort_unobserved (n : Nat) (inputs : Cfg) (m : Memory) (s : State)
    {o o' : Host.Outcome State Fault Refusal} (h : FbUnobserved o o') :
    FbUnobserved (cutShort n inputs s o) (cutShort n inputs (s.withFb m) o') := by
  cases o with
  | next u =>
    obtain ⟨m', rfl, _⟩ := h u rfl
    exact fbUnobserved_next (t := abandon n inputs s u) [] (by simp [abandon])
  | fault f => rintro _ ⟨⟩
  | refused r => rintro _ ⟨⟩

/-- Settles O57: outside READY the block fetches the same whatever the frame buffer holds, and no operation
lets its contents be observed. -/
theorem frameBufferIsUnobservableBeforeInit : Obligations.FrameBufferIsUnobservableBeforeInit := by
  intro s t m hlife hstep
  suffices h : FbUnobserved (step s) (step (s.withFb m)) from h t hstep
  unfold step
  have halike := fetch_alike m s
  generalize fetch s = f, fetch (s.withFb m) = f' at halike
  cases halike with
  | wait => exact fbUnobserved_next m hlife
  | run i u m' hu => exact exec_unobserved i m' (hu ▸ hlife)
  | settled u m' hu =>
    refine fbUnobserved_next m' ?_
    rcases hu with hu | hu
    · exact hu ▸ hlife
    · simp [hu]
  | cut i n inputs u m' hu =>
    exact cutShort_unobserved n inputs m' u (exec_unobserved i m' (hu ▸ hlife))
  | bad f => rintro _ ⟨⟩

end Sys2Proof.Machine
end

section
/-! PROOFS. Whole-byte accesses of the frame buffer (spec/20_memory.md R64, R68) and FILL as one of them
(spec/40_framebuffer.md R131). -/

namespace Sys2Proof.Machine

/-! ### MemRead (R64) -/

@[simp] theorem memRead_length (m : Memory) (i n : Nat) : (memRead m i n).length = n := by
  simp [memRead]

/-- The bytes `memRead` gives, in the order of their indices. -/
theorem memRead_getElem? (m : Memory) (i : Nat) {n k : Nat} (hk : k < n) :
    (memRead m i n)[k]? = some (m.read (i + k)) := by
  simp [memRead, hk]

/-! ### MemWrite (R64) -/

/-- `memWrite` keeps the bytes below and above those it writes. -/
theorem memWrite_read_outside (m : Memory) {i a : Nat} {v : List Byte}
    (ha : a < i ∨ i + v.length ≤ a) : (memWrite m i v).read a = m.read a := by
  rw [memWrite_read, if_neg (by omega)]

/-- The byte at offset k of the written ones is the k-th byte of the list. -/
theorem memWrite_read_inside (m : Memory) (i : Nat) {v : List Byte} {k : Nat} (hk : k < v.length) :
    (memWrite m i v).read (i + k) = v[k] := by
  rw [memWrite_read, if_pos (by omega), Nat.add_sub_cancel_left, List.getD_eq_getElem _ _ hk]

/-- What `memWrite` wrote, `memRead` reads back. -/
theorem memRead_memWrite (m : Memory) (i : Nat) (v : List Byte) :
    memRead (memWrite m i v) i v.length = v := by
  refine List.ext_getElem? fun k => ?_
  by_cases hk : k < v.length
  · rw [memRead_getElem? _ _ hk, memWrite_read_inside m i hk, List.getElem?_eq_getElem hk]
  · have hk : v.length ≤ k := Nat.le_of_not_lt hk
    rw [List.getElem?_eq_none (by simpa using hk), List.getElem?_eq_none hk]

/-! ### FILL (R131) -/

/-- The lifecycle gate of a READY block lets the operation run (R130). -/
theorem gated_of_ready (op : State → State) {s : State} (h : s.life = .ready) : gated op s = op s :=
  if_pos h

/-- The frame buffer after FILL on a READY block. -/
theorem exec_fill_fb {c : Bool} {s t : State} (hready : s.life = .ready)
    (hrun : exec (.fill c) s = .next t) :
    t.fb = s.fb.remake (fbSize s.cfg) (fun _ => if c then 0xFF else 0x00) := by
  have ht := Host.Outcome.next.inj hrun
  rw [← ht, gated_of_ready _ hready, respond_fb, fillBytes_fb]

/-- In canonical form, filling the first n bytes with one byte is one write of n copies of it. -/
theorem remake_const_eq_memWrite {m : Memory} (h : m.wf = true) (n : Nat) (v : Byte) :
    m.remake n (fun _ => v) = memWrite m 0 (List.replicate n v) := by
  refine Memory.ext_of_wf (Memory.wf_remake h n _) (memWrite_wf h 0 _) fun a => ?_
  rw [Memory.read_remake]
  by_cases ha : a < n
  · rw [if_pos ha, memWrite_read, if_pos (by simpa using ha), List.getD_replicate _ (by omega)]
  · rw [if_neg ha, memWrite_read_outside m (by simpa using ha)]

/-- Settles O58: a written byte is read back at its offset and every other byte is kept, and FILL's frame
buffer reads as the one written, which the canonical form makes the same. -/
theorem memReadReadsWhatMemWriteWrote : Obligations.MemReadReadsWhatMemWriteWrote := by
  intro m i n v c s t
  refine ⟨memRead_length m i n, fun k hk => memRead_getElem? m i hk, memRead_memWrite m i v,
    fun a ha => memWrite_read_outside m ha, fun hwf => memWrite_wf hwf i v,
    fun hready hwf hrun => ?_⟩
  exact (exec_fill_fb hready hrun).trans (remake_const_eq_memWrite hwf _ _)

end Sys2Proof.Machine
end

section
/-! PROOFS. The decoder and the encoder: which requests a row of the host opcode map reads, and that
reading and writing are inverse in each code space (spec/30_encoding.md R91 to R100, R103). -/

namespace Sys2Proof.Machine

/-! ### Requests a row reads (R93, R94) -/

@[simp] theorem half_zero : half 0#8 0#8 = 0#16 := rfl

@[simp] theorem flagByte_eq_zero_or_one (c : Bool) : flagByte c = 0#8 ∨ flagByte c = 1#8 := by
  cases c <;> decide

/-- A `c1` byte of 0 or 1 is read (R94). -/
theorem exists_readFlag {b : Byte} (h : b = 0 ∨ b = 1) (k : Bool → Instr) :
    ∃ i, readFlag b k = .ok i := by
  rcases h with rfl | rfl
  · exact ⟨k false, rfl⟩
  · exact ⟨k true, rfl⟩

/-- What R94 asks of a request beyond the limit on its length: it is as long as its own length fields
say, a BLIT has a height of whole bytes, and a `c1` field is 0 or 1. -/
def Readable (o : HostOp) (q : List Byte) : Prop :=
  q.length = requestLength o (fun k => q.getD k 0) ∧
    (o = .blit → (half (q.getD 7 0) (q.getD 8 0)).toNat % 8 = 0) ∧
    ∀ k, flagOffset o = some k → q.getD k 0 = 0 ∨ q.getD k 0 = 1

/-- A request of a legal opcode is malformed unless it is readable and short enough (R94). -/
theorem not_malformed_iff {maxReq : Nat} {o : HostOp} {q : List Byte} :
    ¬ Malformed maxReq o q ↔ q.length ≤ maxReq ∧ Readable o q := by
  simp only [Malformed, Readable, not_or, not_and, not_exists, not_not, ne_eq, Nat.not_lt]
  constructor
  · rintro ⟨hlen, hmax, hblit, hflag⟩
    exact ⟨hmax, hlen, hblit, fun k hk => or_iff_not_imp_left.mpr (hflag k hk)⟩
  · rintro ⟨hmax, hlen, hblit, hflag⟩
    exact ⟨hlen, hmax, hblit, fun k hk => or_iff_not_imp_left.mp (hflag k hk)⟩

/-- What a row reads is a host operation in its limits, and the request is readable and spells that
operation. -/
theorem decodeArgs_eq_ok {op : Byte} {o : HostOp} {args : List Byte} {i : Instr}
    (hop : (op, o) ∈ hostOpcodes) (h : decodeArgs o args = .ok i) :
    i.port = .host ∧ i.operandsOk = true ∧ Readable o (op :: args) ∧ encode i = op :: args := by
  cases o <;> simp [hostOpcodes] at hop <;> subst hop <;> simp only [decodeArgs] at h
  case fill | setPixel | hline | vline | line | rect | fillRect | invert | rotate =>
    split at h
    · obtain ⟨c, rfl, rfl⟩ := readFlag_eq_ok h
      simp [Instr.port, Instr.operandsOk, Readable, requestLength, flagOffset, encode, halfBytes_half]
    · cases h
  case getPixel | init | showBuffer | powerOff | powerOn | contrast =>
    split at h <;> cases h
    simp [Instr.port, Instr.operandsOk, Readable, requestLength, flagOffset, encode, halfBytes_half]
  case drawText | drawScaledText =>
    split at h
    next n text =>
      split at h
      next hn =>
        obtain ⟨c, rfl, rfl⟩ := readFlag_eq_ok h
        have := n.isLt
        simp [Instr.port, Instr.operandsOk, Readable, requestLength, flagOffset, encode,
          halfBytes_half, hn]
        omega
      · cases h
    · cases h
  case drawTextMax =>
    split at h
    next n text =>
      split at h <;> cases h
      next hn =>
        have := n.isLt
        simp [Instr.port, Instr.operandsOk, Readable, requestLength, flagOffset, encode, hn]
        omega
    · cases h
  case decodeFrame =>
    split at h
    next l0 l1 frame =>
      split at h <;> cases h
      next hn =>
        have := (half l0 l1).isLt
        simp [Instr.port, Instr.operandsOk, Readable, requestLength, flagOffset, encode,
          halfBytes_half, hn, this]
        omega
    · cases h
  case blit =>
    split at h
    · split at h
      · cases h
      next h8 =>
        split at h <;> cases h
        next hsrc =>
          simp [Instr.port, Instr.operandsOk, Readable, requestLength, flagOffset, encode,
            halfBytes_half, hsrc, not_not.mp h8]
          omega
    · cases h

/-- Some operands written out by their offsets, and the rest. -/
theorem operands_eq {args : List Byte} {n : Nat} (h : n ≤ args.length) :
    args = (List.range n).map (fun k => args.getD k 0) ++ args.drop n := by
  have htake : (List.range n).map (fun k => args.getD k 0) = args.take n := by
    apply List.ext_getElem
    · simp [h]
    · intro k _ hk
      have hk : k < args.length := by simp at hk; exact hk.2
      simp [hk]
  rw [htake, List.take_append_drop]

/-- Every request is at least as long as one whose length fields are 0. -/
theorem requestLength_zero_le (o : HostOp) (q : Nat → Byte) :
    requestLength o (fun _ => 0) ≤ requestLength o q := by
  cases o <;> simp [requestLength]

/-- The row of a readable request reads it: the operands before its text, source or frame can be written
out, and the rest has the length the row asks for. -/
theorem Readable.decodes {op : Byte} {o : HostOp} {args : List Byte}
    (h : Readable o (op :: args)) : ∃ i, decodeArgs o args = .ok i := by
  obtain ⟨hlen, hblit, hflag⟩ := h
  have hfix : requestLength o (fun _ => 0) - 1 ≤ args.length :=
    Nat.sub_le_of_le_add (hlen.symm ▸ requestLength_zero_le o _ : _ ≤ (op :: args).length)
  have hargs := operands_eq hfix
  have htail : (args.drop (requestLength o (fun _ => 0) - 1)).length =
      requestLength o (fun k => (op :: args).getD k 0) - 1 - (requestLength o (fun _ => 0) - 1) := by
    rw [List.length_drop, ← hlen, List.length_cons, Nat.add_sub_cancel]
  generalize args.drop (requestLength o (fun _ => 0) - 1) = tail at hargs htail
  rw [hargs]
  clear hargs hlen hfix
  cases o
  case fill | setPixel | hline | vline | line | rect | fillRect | invert | rotate =>
    obtain rfl := List.eq_nil_of_length_eq_zero htail
    exact exists_readFlag (hflag _ rfl) _
  case getPixel | init | showBuffer | powerOff | powerOn | contrast =>
    obtain rfl := List.eq_nil_of_length_eq_zero htail
    exact ⟨_, rfl⟩
  case drawText | drawScaledText =>
    obtain ⟨i, hi⟩ := exists_readFlag (hflag _ rfl) _
    exact ⟨i, (if_pos (by simpa [requestLength] using htail)).trans hi⟩
  case drawTextMax | decodeFrame => exact ⟨_, if_pos (by simpa [requestLength] using htail)⟩
  case blit =>
    exact ⟨_, (if_neg (not_not.mpr (hblit rfl))).trans
      (if_pos (by simpa [requestLength] using htail))⟩

/-- The bytes of an operation are as many as the table of its code space says. -/
theorem encode_length (i : Instr) : (encode i).length = i.size := by
  cases i
  case drawText x y c text => exact Laws.EncodedSize.drawText x y c text
  case blit x y sw sh src => exact Laws.EncodedSize.blit x y sw sh src
  case drawScaledText x y scale c text => exact Laws.EncodedSize.drawScaledText x y scale c text
  case drawTextMax text => exact Laws.EncodedSize.drawTextMax text
  case decodeFrame frame => exact Laws.EncodedSize.decodeFrame frame
  case tpData l => exact Laws.EncodedSize.tpData l
  all_goals rfl

/-! ### Host requests -/

/-- A request is read by the row of its opcode, if it is not too long (R94, R99). -/
theorem decodeHost_of_row {maxReq : Nat} {op : Byte} {o : HostOp} {args : List Byte}
    (hop : (op, o) ∈ hostOpcodes) (hlen : (op :: args).length ≤ maxReq) :
    decodeHost maxReq (op :: args) = decodeArgs o args := by
  rw [List.length_cons, Nat.add_comm] at hlen
  simp [decodeHost, hostOp_eq_some.mpr hop, Nat.not_lt.mpr hlen]

/-- What decodes is a request of a legal opcode, short enough and read by the opcode's row. -/
theorem decodeHost_eq_ok {maxReq : Nat} {bytes : List Byte} {i : Instr}
    (h : decodeHost maxReq bytes = .ok i) :
    ∃ op o args, bytes = op :: args ∧ (op, o) ∈ hostOpcodes ∧ bytes.length ≤ maxReq ∧
      decodeArgs o args = .ok i := by
  cases bytes with
  | nil => cases h
  | cons op args =>
    simp only [decodeHost] at h
    split at h
    · cases h
    next o hop =>
      split at h
      · cases h
      next hlen =>
        rw [Nat.not_lt, Nat.add_comm] at hlen
        exact ⟨op, o, args, rfl, hostOp_eq_some.mp hop, hlen, h⟩

/-- The bytes of a host operation are an opcode and operands that the opcode's row reads. -/
theorem decodeArgs_encode {i : Instr} (hp : i.port = .host) (hok : i.operandsOk = true) :
    ∃ op o args, encode i = op :: args ∧ (op, o) ∈ hostOpcodes ∧ decodeArgs o args = .ok i := by
  cases i
  case fill c => exact ⟨0x01, .fill, _, rfl, by decide, by simp [decodeArgs]⟩
  case setPixel x y c => exact ⟨0x02, .setPixel, _, rfl, by decide, by simp [halfBytes, decodeArgs]⟩
  case getPixel x y => exact ⟨0x03, .getPixel, _, rfl, by decide, by simp [halfBytes, decodeArgs]⟩
  case hline x y w c => exact ⟨0x04, .hline, _, rfl, by decide, by simp [halfBytes, decodeArgs]⟩
  case vline x y h c => exact ⟨0x05, .vline, _, rfl, by decide, by simp [halfBytes, decodeArgs]⟩
  case line x1 y1 x2 y2 c => exact ⟨0x06, .line, _, rfl, by decide, by simp [halfBytes, decodeArgs]⟩
  case rect x y w h c => exact ⟨0x07, .rect, _, rfl, by decide, by simp [halfBytes, decodeArgs]⟩
  case fillRect x y w h c =>
    exact ⟨0x08, .fillRect, _, rfl, by decide, by simp [halfBytes, decodeArgs]⟩
  case drawText x y c text =>
    have hn := lenByte_toNat (of_decide_eq_true hok)
    exact ⟨0x09, .drawText, _, rfl, by decide, by simp [halfBytes, decodeArgs, hn]⟩
  case blit x y sw sh src =>
    have hsrc : sh.toNat % 8 = 0 ∧ src.length = sh.toNat / 8 * sw.toNat := by
      simpa [Instr.operandsOk] using hok
    exact ⟨0x0A, .blit, _, rfl, by decide, by simp [halfBytes, decodeArgs, hsrc]⟩
  case init => exact ⟨0x10, .init, _, rfl, by decide, rfl⟩
  case showBuffer => exact ⟨0x11, .showBuffer, _, rfl, by decide, rfl⟩
  case powerOff => exact ⟨0x12, .powerOff, _, rfl, by decide, rfl⟩
  case powerOn => exact ⟨0x13, .powerOn, _, rfl, by decide, rfl⟩
  case contrast v => exact ⟨0x14, .contrast, _, rfl, by decide, by simp [halfBytes, decodeArgs]⟩
  case invert f => exact ⟨0x15, .invert, _, rfl, by decide, by simp [decodeArgs]⟩
  case rotate f => exact ⟨0x16, .rotate, _, rfl, by decide, by simp [decodeArgs]⟩
  case drawScaledText x y scale c text =>
    have hn := lenByte_toNat (of_decide_eq_true hok)
    exact ⟨0x30, .drawScaledText, _, rfl, by decide, by simp [halfBytes, decodeArgs, hn]⟩
  case drawTextMax text =>
    have hn := lenByte_toNat (of_decide_eq_true hok)
    exact ⟨0x31, .drawTextMax, _, rfl, by decide, by simp [decodeArgs, hn]⟩
  case decodeFrame frame =>
    have hn := Nat.mod_eq_of_lt (of_decide_eq_true hok)
    exact ⟨0x40, .decodeFrame, _, rfl, by decide, by simp [halfBytes, decodeArgs, hn]⟩
  all_goals cases hp

/-! ### Device commands (R103) -/

/-- Clearing a bit of a byte and writing its value back gives the byte. -/
theorem withBit_getLsbD {b base : Byte} {k : Nat} (h : b &&& ~~~(1#8 <<< k) = base) :
    withBit base k (b.getLsbD k) = b := by
  subst h
  show setBit b k (b.getLsbD k) = b
  apply BitVec.eq_of_getLsbD_eq
  intro j hj
  rw [setBit_getLsbD b k _ j hj]
  split
  next hjk => rw [hjk]
  next => rfl

/-- The two fixed bits and the six variable bits of a start line command. -/
theorem startLine_byte : ∀ b : Byte, b &&& 0xC0#8 = 0x40#8 →
    0x40#8 ||| (b.extractLsb' 0 6).setWidth 8 = b := by decide

/-- A command byte selects a row whose fixed bits it has. -/
theorem devOp_eq_some {b : Byte} {o : DevOp} (h : devOp b = some o) :
    ∃ mask base, (mask, base, o) ∈ devCommands ∧ b &&& mask = base := by
  simp only [devOp, Option.map_eq_some_iff] at h
  obtain ⟨⟨mask, base, o⟩, hr, rfl⟩ := h
  exact ⟨mask, base, List.mem_of_find?_eq_some hr, by simpa using List.find?_some hr⟩

theorem decodeDev_startLine : ∀ line : BitVec 6,
    decodeDev (encode (.devStartLine line)) = .ok (.devStartLine line) := by decide

theorem decodeDev_encode {i : Instr} (hp : i.port = .dev) : decodeDev (encode i) = .ok i := by
  cases i
  case devStartLine line => exact decodeDev_startLine line
  case devNormInv v | devDisplay v | devSegRemap v | devComDir v => cases v <;> rfl
  case devContrast | devEntireOn | devMemAddrMode | devColAddr | devPageAddr | devMuxRatio
      | devDispOffset | devComPins | devClkDiv | devPrecharge | devVcomDesel | devChargePump => rfl
  all_goals cases hp

theorem encode_of_decodeDev {bytes : List Byte} {i : Instr} (h : decodeDev bytes = .ok i) :
    encode i = bytes := by
  cases bytes with
  | nil => cases h
  | cons b args =>
    simp only [decodeDev] at h
    split at h
    · cases h
    next o ho =>
      obtain ⟨mask, base, hrow, hb⟩ := devOp_eq_some ho
      cases o <;> simp [devCommands] at hrow <;> obtain ⟨rfl, rfl⟩ := hrow <;>
        simp only [decodeDevArgs] at h
      case normInv | display | segRemap =>
        split at h <;> cases h
        exact congrArg (fun b => [b]) (withBit_getLsbD (k := 0) hb)
      case comDir =>
        split at h <;> cases h
        exact congrArg (fun b => [b]) (withBit_getLsbD (k := 3) hb)
      case startLine =>
        split at h <;> cases h
        exact congrArg (fun b => [b]) (startLine_byte b hb)
      all_goals
        have hb : b = _ := (BitVec.and_allOnes (x := b)).symm.trans hb
        split at h <;> cases h
        simp [encode, hb]

/-! ### Transport requests (R100) and the code spaces together -/

theorem encode_of_decodeTp {bytes : List Byte} {i : Instr} (h : decodeTp bytes = .ok i) :
    encode i = bytes := by
  unfold decodeTp at h
  split at h
  · cases h
  · split at h
    next hk =>
      split at h <;> cases h
      simp [encode, hk]
    · split at h <;> cases h
      next hk => simp [encode, hk]

/-- Only host operations have operands with limits of their own. -/
theorem operandsOk_of_port {i : Instr} (hp : i.port ≠ .host) : i.operandsOk = true := by
  cases i
  case drawText | drawScaledText | drawTextMax | blit | decodeFrame => exact absurd rfl hp
  all_goals rfl

/-- Settles O1, code space by code space: a host request is read by the row of its opcode, and the other
two have no limit on their length. -/
theorem decodeOfEncodeIsTheInstruction : Obligations.DecodeOfEncodeIsTheInstruction := by
  intro maxReq i hwf
  obtain ⟨hok, hsize⟩ := Instr.wf_iff.mp hwf
  cases hp : i.port with
  | host =>
    obtain ⟨op, o, args, henc, hop, hdec⟩ := decodeArgs_encode hp hok
    have hlen : (op :: args).length ≤ maxReq := by
      rw [← henc, encode_length]
      exact hsize hp
    show decodeHost maxReq (encode i) = .ok i
    rw [henc, decodeHost_of_row hop hlen, hdec]
  | tp =>
    cases i
    case tpCmd | tpData => rfl
    all_goals cases hp
  | dev => exact decodeDev_encode hp

/-- Settles O2, code space by code space: what is read spells the operation it is read as, and a host
request is as long as its operation. -/
theorem decodedBytesAreTheEncoding : Obligations.DecodedBytesAreTheEncoding := by
  intro p maxReq bytes i h
  rw [Instr.wf_iff]
  cases p with
  | host =>
    obtain ⟨op, o, args, rfl, hop, hlen, hdec⟩ := decodeHost_eq_ok h
    obtain ⟨hp, hok, _, henc⟩ := decodeArgs_eq_ok hop hdec
    refine ⟨hp, ⟨hok, fun _ => ?_⟩, henc⟩
    rwa [← encode_length, henc]
  | tp =>
    have hp : i.port = .tp := decodeTp_port h
    exact ⟨hp, ⟨operandsOk_of_port (by simp [hp]), by simp [hp]⟩, encode_of_decodeTp h⟩
  | dev =>
    have hp : i.port = .dev := decodeDev_port h
    exact ⟨hp, ⟨operandsOk_of_port (by simp [hp]), by simp [hp]⟩, encode_of_decodeDev h⟩

/-- Settles O5, by running the decoder on the bytes. -/
theorem writtenOutBytesDecode : Obligations.WrittenOutBytesDecode := by
  unfold Obligations.WrittenOutBytesDecode
  decide

end Sys2Proof.Machine
end

section
/-! PROOFS. What does not decode: reserved and malformed host requests (spec/30_encoding.md R94, R99), and
requests in the internal port that are no operation (R100, R103). -/

namespace Sys2Proof.Machine

/-! ### Reserved opcodes (R99) -/

/-- The opcodes without a row are the ranges of R99. -/
theorem hostOp_eq_none_iff : ∀ op : Byte, hostOp op = none ↔ ReservedOpcode op := by decide

theorem readFlag_ne_illegalOp (b : Byte) (k : Bool → Instr) :
    readFlag b k ≠ .error .illegalOp := by
  unfold readFlag
  split
  · simp
  · split <;> simp

/-- No row answers that the opcode is reserved. -/
theorem decodeArgs_ne_illegalOp (o : HostOp) (args : List Byte) :
    decodeArgs o args ≠ .error .illegalOp := by
  intro h
  cases o <;> simp only [decodeArgs] at h
  all_goals split at h
  all_goals simp [readFlag_ne_illegalOp, ite_eq_iff] at h

/-- The decoder answers that an opcode is reserved exactly when it is, whatever follows it. -/
theorem decodeHost_illegalOp_iff {maxReq : Nat} {op : Byte} {args : List Byte} :
    decodeHost maxReq (op :: args) = .error .illegalOp ↔ ReservedOpcode op := by
  rw [← hostOp_eq_none_iff]
  cases hop : hostOp op with
  | none => simp [decodeHost, hop]
  | some o => simp [decodeHost, hop, ite_eq_iff, decodeArgs_ne_illegalOp]

/-! ### Malformed requests (R94) -/

theorem decodeStatus_of_ne {e : DecodeError} (h : e ≠ .illegalOp) : decodeStatus e = .badArg := by
  cases e
  case illegalOp => exact absurd rfl h
  all_goals rfl

/-- A request of a legal opcode decodes unless it is malformed (R94). -/
theorem decodeHost_isOk_iff {maxReq : Nat} {op : Byte} {o : HostOp} {args : List Byte}
    (hop : (op, o) ∈ hostOpcodes) :
    (∃ i, decodeHost maxReq (op :: args) = .ok i) ↔ ¬ Malformed maxReq o (op :: args) := by
  rw [not_malformed_iff]
  constructor
  · rintro ⟨i, h⟩
    obtain ⟨op', o', args', heq, hop', hlen, hdec⟩ := decodeHost_eq_ok h
    cases heq
    obtain rfl : o = o' :=
      Option.some.inj ((hostOp_eq_some.mpr hop).symm.trans (hostOp_eq_some.mpr hop'))
    obtain ⟨_, _, hread, _⟩ := decodeArgs_eq_ok hop hdec
    exact ⟨hlen, hread⟩
  · rintro ⟨hlen, hread⟩
    rw [decodeHost_of_row hop hlen]
    exact hread.decodes

/-- A request that does not decode is answered, and nothing else changes (R281). -/
theorem step_of_decode_error {s : State} {op : Byte} {args : List Byte} {rest : List HostEvent}
    {e : DecodeError} (hidle : Idle s) (hin : s.inbox = .request op args :: rest)
    (hdec : decode .host s.cfg.maxReq (op :: args) = .error e) :
    step s =
      .next { s with inbox := rest, resp := s.resp ++ [[statusByte (decodeStatus e)]] } := by
  obtain ⟨hb, hp⟩ := hidle
  have hfetch : fetch s =
      .settled (raiseStatus (decodeStatus e) { s with inbox := rest, busy := true }) := by
    simp [fetch, fetchRequest, hb, hp, hin, hdec]
  simp [step, hfetch, raiseStatus, respond, hb]

/-- Settles O3: the decoder tells the reserved opcodes by the ranges of R99. -/
theorem reservedOpcodesAnswerIllegalOp : Obligations.ReservedOpcodesAnswerIllegalOp := by
  intro s op args rest hidle hin
  exact ⟨fun hop => step_of_decode_error hidle hin (decodeHost_illegalOp_iff.mpr hop),
    fun hop => mt decodeHost_illegalOp_iff.mp hop⟩

/-- Settles O4: of the requests of a legal opcode exactly the malformed ones do not decode, and for none of
them does the decoder answer that the opcode is reserved. -/
theorem malformedRequestsAnswerBadArg : Obligations.MalformedRequestsAnswerBadArg := by
  intro s op o args rest hidle hin hop
  refine ⟨fun hmal => ?_, (decodeHost_isOk_iff hop).mpr⟩
  cases hdec : decode .host s.cfg.maxReq (op :: args) with
  | ok i => exact absurd hmal ((decodeHost_isOk_iff hop).mp ⟨i, hdec⟩)
  | error e =>
    have hne : e ≠ .illegalOp := by
      rintro rfl
      have hnone := (hostOp_eq_none_iff op).mpr (decodeHost_illegalOp_iff.mp hdec)
      simp [hostOp_eq_some.mpr hop] at hnone
    have h := step_of_decode_error hidle hin hdec
    rwa [decodeStatus_of_ne hne] at h

/-! ### The internal port -/

/-- The encoder writes the bytes that R190 to R206 give a device command. -/
theorem deviceBytes_eq_encode {i : Instr} (hp : i.port = .dev) : deviceBytes i = some (encode i) := by
  cases i
  case devStartLine line => revert line; decide
  case devNormInv v | devDisplay v | devSegRemap v | devComDir v => cases v <;> rfl
  case devContrast | devEntireOn | devMemAddrMode | devColAddr | devPageAddr | devMuxRatio
      | devDispOffset | devComPins | devClkDiv | devPrecharge | devVcomDesel | devChargePump => rfl
  all_goals cases hp

theorem fetch_of_port {s : State} {r : PortReq} (hb : s.busy = false) (hp : s.port = some r) :
    fetch s = fetchPort r s := by
  simp [fetch, hb, hp]

/-- A request in the internal port that decodes is run from the state with the port empty. -/
theorem step_of_port_ok {s : State} {r : PortReq} {i : Instr} (hb : s.busy = false)
    (hp : s.port = some r)
    (hdec : decode (portBytes r).1 s.cfg.maxReq (portBytes r).2 = .ok i) :
    step s = exec i { s with port := none } := by
  have hfetch : fetch s = .run i { s with port := none } := by
    rw [fetch_of_port hb hp]
    simp only [fetchPort, hdec]
  simp only [step, hfetch]

/-- A request in the internal port that does not decode stops the block by its name. -/
theorem step_of_port_error {s : State} {r : PortReq} {e : DecodeError} (hb : s.busy = false)
    (hp : s.port = some r)
    (hdec : decode (portBytes r).1 s.cfg.maxReq (portBytes r).2 = .error e) :
    step s = .fault (portFault r) := by
  have hfetch : fetch s = .bad (portFault r) := by
    rw [fetch_of_port hb hp]
    simp only [fetchPort, hdec]
  simp only [step, hfetch]

/-- Settles O7: an idle block fetches the request in its internal port. -/
theorem stepRunsTheDecodedPortRequest : Obligations.StepRunsTheDecodedPortRequest := by
  intro s i hb
  exact ⟨fun k l hp hdec => step_of_port_ok (r := .tp k l) hb hp hdec,
    fun bytes hp hdec => step_of_port_ok (r := .dev bytes) hb hp hdec⟩

/-- TP_CMD takes one byte (R100). -/
theorem decodeTp_zero {l : List Byte} (h : l.length ≠ 1) :
    decodeTp (0 :: l) = .error .badTransport := by
  simp only [decodeTp, if_true]
  split
  · simp at h
  · rfl

/-- Settles O8: what decodes in the device code space is the bytes of a device command. -/
theorem badPortRequestsFault : Obligations.BadPortRequestsFault := by
  intro s hb
  constructor
  · intro l hp hl
    exact step_of_port_error (r := .tp false l) hb hp (decodeTp_zero hl)
  · intro bytes hp hbytes
    cases hdec : decodeDev bytes with
    | ok i =>
      have hi := deviceBytes_eq_encode (decodeDev_port hdec)
      rw [encode_of_decodeDev hdec] at hi
      exact absurd hi (hbytes i)
    | error e => exact step_of_port_error (r := .dev bytes) hb hp hdec

end Sys2Proof.Machine
end

section
/-! PROOFS. What a step puts on the wire and answers (spec/30_encoding.md R96, R101, R102,
spec/60_exceptions.md R280). -/

namespace Sys2Proof.Machine

/-! ### The format of the wire (R101, R102) -/

/-- An operation appends only events in the format of the selected variant, whatever the bus answers. -/
theorem exec_events {i : Instr} {s t : State} (h : exec i s = .next t) :
    ∃ es, t.wire = s.wire ++ es ∧ ∀ e ∈ es, InFormat s.cfg e := by
  obtain ⟨es, he⟩ := exec_effect h
  exact ⟨_, he.wire, inFormat_play _ he.format⟩

/-- Every event a step appends is RST or has the format of the variant selected before it. -/
theorem step_events {s t : State} (h : step s = .next t) :
    ∃ es, t.wire = s.wire ++ es ∧ ∀ e ∈ es, e = .rst ∨ InFormat s.cfg e := by
  cases step_cases h with
  | waited _ ht => exact ⟨[], by simp [ht]⟩
  | port r i _ _ _ hrun =>
    obtain ⟨es, hw, hf⟩ := exec_events hrun
    exact ⟨es, hw, fun e he => .inr (hf e he)⟩
  | request op args rest i _ _ _ _ hrun =>
    obtain ⟨es, hw, hf⟩ := exec_events hrun
    exact ⟨es, hw, fun e he => .inr (hf e he)⟩
  | rejected op args rest e _ _ _ _ ht => exact ⟨[], by simp [ht]⟩
  | reset inputs inbox _ ht => exact ⟨[.rst], by simp [ht], by simp⟩
  | cut op args n inputs rest i u _ _ _ _ hrun ht =>
    obtain ⟨es, hw, hf⟩ := exec_events hrun
    refine ⟨es.take n ++ [.rst], by simp [ht, hw], fun e he => ?_⟩
    rcases List.mem_append.mp he with he | he
    · exact .inr (hf e (List.mem_of_mem_take he))
    · exact .inl (List.mem_singleton.mp he)

/-- Settles O54: on bus-A the format of an event is that of R101. -/
theorem busAWireFormat : Obligations.BusAWireFormat := by
  intro s t hbus h
  simpa only [InFormat, hbus, busAddr] using step_events h

/-- Settles O55: on bus-B the format of an event is that of R102. -/
theorem busBWireFormat : Obligations.BusBWireFormat := by
  intro s t hbus h
  simpa only [InFormat, hbus] using step_events h

/-! ### Responses (R96, R280) -/

theorem statusByte_le (st : Status) : (statusByte st).toNat ≤ 6 := by
  cases st <;> decide

theorem statusByte_eq_zero_iff {st : Status} : statusByte st = 0 ↔ st = .ok := by
  cases st <;> decide

/-- What a host operation answers, in bytes (R96, R280). -/
theorem Answers.bytes {s t : State} (h : Answers s t) :
    (t.busy = false → ∃ st result, t.resp = s.resp ++ [st :: result] ∧ st.toNat ≤ 6 ∧
      (st ≠ 0 → result = [])) ∧
    (t.busy = true → t.resp = s.resp) := by
  cases h with
  | response st result hb hresp hok =>
    exact ⟨fun _ => ⟨statusByte st, result, hresp, statusByte_le st,
      fun hne => hok (mt statusByte_eq_zero_iff.mpr hne)⟩, fun hb' => by simp [hb] at hb'⟩
  | stall hb hresp => exact ⟨fun hb' => by simp [hb] at hb', fun _ => hresp⟩

/-- Settles O56: a request that decodes is a host operation, which answers once or stalls, and one that does
not decode is answered with a raised status. -/
theorem oneResponsePerRequest : Obligations.OneResponsePerRequest := by
  rintro s t op args rest ⟨hb, hp⟩ hin hstep
  cases step_cases hstep with
  | waited hwait _ => simp [hb, hin] at hwait
  | port r i _ hr _ _ => simp [hp] at hr
  | request op' args' rest' i _ _ hin' hdec hrun =>
    cases hin.symm.trans hin'
    obtain ⟨hport, _, _⟩ := decodedBytesAreTheEncoding _ _ _ _ hdec
    obtain ⟨es, he⟩ := exec_effect hrun
    exact ⟨he.inbox, (exec_answers hport hrun).bytes⟩
  | rejected op' args' rest' e _ _ hin' _ ht =>
    cases hin.symm.trans hin'
    subst ht
    exact ⟨rfl, Answers.bytes (.response (decodeStatus e) [] rfl rfl (fun _ => rfl))⟩
  | reset inputs inbox hasked _ => simp [hb, hin] at hasked
  | cut op' args' n inputs rest' i u _ _ hin' _ _ _ => simp [hin] at hin'

end Sys2Proof.Machine
end

section
/-! PROOFS. The frame-buffer operations on single pixels and whole bytes, and what every drawing operation
keeps (spec/40_framebuffer.md R130 to R133, R144 to R146). -/

namespace Sys2Proof.Machine

/-- Settles O12: all these operations pass the gate. -/
theorem gatedOperationsAnswerNotReady : Obligations.GatedOperationsAnswerNotReady :=
  fun _ _ hport hinit hframe hlife => exec_not_ready hport hinit hframe hlife

/-! ### FILL, SET_PIXEL and GET_PIXEL on a READY block -/

/-- An OK response after a change of the frame buffer alone changes nothing else. -/
theorem respond_ok_of_fb {s u : State} (r : List Byte) (hu : u = { s with fb := u.fb }) :
    respond .ok r u =
      { s with fb := u.fb, busy := false, resp := s.resp ++ [0x00 :: r] } :=
  congrArg (respond .ok r) hu

theorem exec_fill_ready (c : Bool) {s : State} (h : s.life = .ready) :
    exec (.fill c) s = .next (respond .ok [] (fillBytes (if c then 0xFF else 0x00) s)) :=
  congrArg Host.Outcome.next (gated_of_ready _ h)

theorem exec_setPixel_ready (x y : Half) (c : Bool) {s : State} (h : s.life = .ready) :
    exec (.setPixel x y c) s = .next (respond .ok [] (fbSet x.toInt y.toInt c s)) :=
  congrArg Host.Outcome.next (gated_of_ready _ h)

theorem exec_getPixel_ready (x y : Half) {s : State} (h : s.life = .ready) :
    exec (.getPixel x y) s = .next (respond .ok (pixelResult x.toInt y.toInt s) s) :=
  congrArg Host.Outcome.next (gated_of_ready _ h)

theorem pixelResult_of_inRange {x y : Int} {s : State} (h : InRange s.cfg x y) :
    pixelResult x y s = [1, flagByte (fbGet s x y)] :=
  if_pos ((inFb_iff _ _ _).mpr h)

theorem pixelResult_of_not_inRange {x y : Int} {s : State} (h : ¬ InRange s.cfg x y) :
    pixelResult x y s = [0, 0] :=
  if_neg (mt (inFb_iff _ _ _).mp h)

/-- Settles O14: `remake` writes the bytes below its bound and no other. -/
theorem fillSetsEveryByte : Obligations.FillSetsEveryByte := by
  intro c s hready
  exact ⟨_, exec_fill_ready c hready, respond_ok_of_fb [] rfl, fillBytes_read _ s⟩

/-- Settles O15: out of range nothing is written, in range the bit of R60. -/
theorem setPixelWritesOneBit : Obligations.SetPixelWritesOneBit := by
  intro x y c s hready
  refine ⟨_, exec_setPixel_ready x y c hready, respond_ok_of_fb [] (fbSet_eq _ _ c s),
    fun a k hk => ?_⟩
  rw [respond_fb, fbSet_bit _ _ c s a k hk]
  simp only [inFb_iff, pixelIndex, pixelBit]

/-- Settles O16: the answer by cases of the range, and GET_PIXEL writes nothing. -/
theorem getPixelReadsOneBit : Obligations.GetPixelReadsOneBit := by
  intro x y s hready
  refine ⟨_, exec_getPixel_ready x y hready, rfl, fun hin => ?_, fun hout => ?_⟩
  · exact congrArg (fun r => s.resp ++ [0x00 :: r]) (pixelResult_of_inRange hin)
  · exact congrArg (fun r => s.resp ++ [0x00 :: r]) (pixelResult_of_not_inRange hout)

/-! ### A pixel reads back what was written (R144) -/

/-- What GET_PIXEL answers for a point in range. -/
theorem exec_getPixel_resp {x y : Half} {t u : State} (hrun : exec (.getPixel x y) t = .next u)
    (hready : t.life = .ready) (hin : InRange t.cfg x.toInt y.toInt) :
    u.resp = t.resp ++ [[0x00, 0x01, flagByte (fbGet t x.toInt y.toInt)]] := by
  rw [exec_getPixel_ready x y hready, pixelResult_of_inRange hin] at hrun
  rw [← Host.Outcome.next.inj hrun]
  rfl

theorem fbGet_respond (st : Status) (r : List Byte) (s : State) (x y : Int) :
    fbGet (respond st r s) x y = fbGet s x y := rfl

/-- After FILL every pixel has the colour of the fill. -/
theorem fbGet_fillBytes (c : Bool) {s : State} (h8 : s.cfg.h % 8 = 0) {x y : Int}
    (hin : inFb s.cfg x y = true) : fbGet (fillBytes (if c then 0xFF else 0x00) s) x y = c := by
  have hbits : ∀ k < 8, (if c then 0xFF else 0x00 : Byte).getLsbD k = c := by
    cases c <;> decide
  rw [fbGet, fillBytes_cfg, fillBytes_read, if_pos (pixelIndex_lt h8 hin)]
  exact hbits _ (Nat.mod_lt _ (by decide))

/-- Settles O23: pixel writes are told apart by their points, and FILL writes every pixel alike. -/
theorem getPixelReadsWhatWasWritten : Obligations.GetPixelReadsWhatWasWritten := by
  intro x y x' y' c s t u hready hlegal hin
  have hfb : inFb s.cfg x.toInt y.toInt = true := (inFb_iff _ _ _).mpr hin
  rw [exec_setPixel_ready x y c hready, exec_fill_ready c hready,
    exec_setPixel_ready x' y' c hready]
  refine ⟨?_, ?_, ?_⟩
  · rintro ⟨⟩ hget
    rw [exec_getPixel_resp hget (by simpa using hready) (by simpa using hin), fbGet_respond,
      fbGet_fbSet _ _ _ _ _ _ hfb, if_pos ⟨rfl, rfl⟩]
    rfl
  · rintro ⟨⟩ hget
    rw [exec_getPixel_resp hget hready hin, fbGet_respond, fbGet_fillBytes c hlegal.height hfb]
    rfl
  · rintro ⟨⟩ hne
    rw [fbGet_respond, fbGet_fbSet _ _ _ _ _ _ hfb, if_neg]
    rintro ⟨hx, hy⟩
    exact hne (by rw [BitVec.toInt_inj.mp hx, BitVec.toInt_inj.mp hy])

/-! ### FILL forgets the old contents (R145) -/

/-- Rewriting every byte that can be listed forgets what was listed. -/
theorem remake_of_bounded {m : Memory} {n : Nat} (g : Nat → Byte) (h : ∀ e ∈ m, e.1 < n) :
    m.remake n g = Memory.remake n g [] := by
  have hnone : m.filter (fun e => n ≤ e.1) = [] := by simpa using h
  simp [Memory.remake, hnone]

/-- Nothing is listed when every byte is blank. -/
theorem remake_blank (n : Nat) : Memory.remake n (fun _ => Memory.blank) [] = [] := by
  simp [Memory.remake, Memory.cell]

/-- `remake` lists no byte beyond those that were listed and those it writes. -/
theorem remake_bounded {m : Memory} {n : Nat} {g : Nat → Byte} (h : ∀ e ∈ m, e.1 < n) :
    ∀ e ∈ m.remake n g, e.1 < n := by
  intro e he
  rcases Memory.mem_remake.mp he with ⟨hlt, _⟩ | ⟨hm, _⟩
  · exact hlt
  · exact h e hm

/-- Settles O24: FILL rewrites every byte that can be listed, and a zero byte is not listed. -/
theorem fillForgetsTheOldContents : Obligations.FillForgetsTheOldContents := by
  intro c s t u m hready hinv hwf hm
  have hs : ∀ e ∈ s.fb, e.1 < fbSize s.cfg := hinv.bounded
  refine ⟨fun ht hu => ?_, fun ht hu => ?_⟩
  · have htfb := exec_fill_fb hready ht
    rw [exec_fill_ready true hready] at ht
    obtain rfl := Host.Outcome.next.inj ht
    rw [exec_fill_fb (by exact hready) hu]
    refine (remake_of_bounded _ ?_).trans (remake_blank _)
    rw [htfb]
    exact remake_bounded hs
  · rw [exec_fill_fb hready ht, exec_fill_fb (by exact hready) hu, remake_of_bounded _ hs]
    exact remake_of_bounded _ hm

/-! ### What every drawing operation keeps (R130, R146) -/

/-- The operation completed with OK and changed nothing but the frame buffer. -/
def Completes (s : State) (o : Host.Outcome State Fault Refusal) : Prop :=
  ∃ t r, o = .next t ∧
    t = { s with fb := t.fb, busy := false, resp := s.resp ++ [0x00 :: r] }

/-- An operation of a READY block that changes the frame buffer alone and then answers OK completes. -/
theorem completes_gated {op : State → State} {s u : State} {r : List Byte} (h : s.life = .ready)
    (hop : op s = respond .ok r u) (hu : u = { s with fb := u.fb }) :
    Completes s (.next (gated op s)) :=
  ⟨_, r, rfl, by rw [gated_of_ready _ h, hop]; exact respond_ok_of_fb r hu⟩

/-- Where there is no STRIP, a scaled drawing changes the frame buffer alone (R33, R251). -/
theorem drawScaled_eq (text : List Byte) (x y : Int) (scale : Nat) (c : Bool) {s : State}
    (h : s.strip = none) : drawScaled text x y scale c s =
      { s with fb := (drawScaled text x y scale c s).fb } := by
  obtain ⟨⟩ := s
  cases h
  rfl

/-- The frame-buffer and glyph operations past their checks complete. -/
theorem exec_completes {i : Instr} {s : State} (hport : i.port = .host) (hinit : i ≠ .init)
    (hshow : i ≠ .showBuffer) (htoggle : toggleBytes i = none) (htext : i ≠ .drawTextMax [])
    (hready : s.life = .ready) (hstrip : s.strip = none) : Completes s (exec i s) := by
  cases i
  case fill => exact completes_gated hready rfl rfl
  case setPixel => exact completes_gated hready rfl (fbSet_eq _ _ _ s)
  case getPixel => exact completes_gated hready rfl rfl
  case hline => exact completes_gated hready rfl rfl
  case vline => exact completes_gated hready rfl rfl
  case line => exact completes_gated hready rfl (plot_eq _ _ s)
  case rect => exact completes_gated hready rfl rfl
  case fillRect => exact completes_gated hready rfl rfl
  case drawText => exact completes_gated hready rfl rfl
  case blit => exact completes_gated hready rfl rfl
  case init => exact absurd rfl hinit
  case showBuffer => exact absurd rfl hshow
  case drawScaledText => exact completes_gated hready rfl (drawScaled_eq _ _ _ _ _ hstrip)
  case drawTextMax text =>
    have hlength : text.length ≠ 0 := fun h => htext (by rw [List.eq_nil_of_length_eq_zero h])
    exact completes_gated hready (if_neg hlength) (drawScaled_eq _ _ _ _ _ hstrip)
  case decodeFrame frame => exact ⟨_, frameResult frame, rfl, rfl⟩
  case powerOff | powerOn | contrast | invert | rotate => cases htoggle
  all_goals cases hport

/-- Settles O25: beyond [0, P × W) no byte is listed, before the operation or after it. -/
theorem drawingKeepsEverythingElse : Obligations.DrawingKeepsEverythingElse := by
  intro i s hport hinit hshow htoggle htext hready hinv
  obtain ⟨t, r, hrun, ht⟩ :=
    exec_completes hport hinit hshow htoggle htext hready hinv.noStrip
  obtain ⟨_, hbounded⟩ := (exec_fb hrun).keeps hinv.canonical hinv.bounded
    fun h => (hinv.legal h).height
  refine ⟨t, r, hrun, ht, fun a ha => Memory.read_of_unlisted fun e he => ?_⟩
  exact Nat.ne_of_lt (Nat.lt_of_lt_of_le (hbounded e he) ha)

end Sys2Proof.Machine
end

section
/-! PROOFS. The drawing operations colour their point sets (spec/40_framebuffer.md R134 to R143). -/

namespace Sys2Proof.Machine

/-! ### Painting and plotting draw a point set -/

/-- A change of the frame buffer that gives every pixel of a point set the colour, and keeps the other
pixels and the bytes outside, draws the set. -/
theorem draws_respond {p : Points} {q : Int → Int → Prop} {c : Bool} {s u : State}
    (hpq : ∀ i j, p i j = true ↔ q i j) (hu : u = { s with fb := u.fb })
    (hin : ∀ x y, inFb s.cfg x y = true → fbGet u x y = if p x y then c else fbGet s x y)
    (hout : ∀ a, ¬ a < fbSize s.cfg → u.fb.read a = s.fb.read a) :
    Draws q c s (.next (respond .ok [] u)) := by
  refine ⟨_, rfl, respond_ok_of_fb [] hu, fun x y hxy => ?_,
    fun a ha => hout a (Nat.not_lt.mpr ha)⟩
  have hget : fbGet (respond .ok [] u) x y = _ := hin x y ((inFb_iff _ _ _).mpr hxy)
  rw [hget, ← hpq]
  exact ⟨fun h => if_pos h, fun h => if_neg h⟩

/-- The lifecycle gate of a READY block lets the drawing through (R130). -/
theorem draws_gated {op : State → State} {q : Int → Int → Prop} {c : Bool} {s : State}
    (hready : s.life = .ready) (h : Draws q c s (.next (op s))) :
    Draws q c s (.next (gated op s)) := by
  rwa [gated_of_ready _ hready]

/-- Painting a point set on a READY block draws it (R141). -/
theorem draws_drawPoints {p : Points} {q : Int → Int → Prop} {c : Bool} {s : State}
    (hready : s.life = .ready) (h8 : s.cfg.h % 8 = 0) (hpq : ∀ i j, p i j = true ↔ q i j) :
    Draws q c s (.next (gated (drawPoints p c) s)) :=
  draws_gated hready (draws_respond hpq rfl (fbGet_paint p c s h8) (paint_read_out p c s))

/-! ### Rectangles (R141, R137) -/

theorem rectSet_iff (x y w h i j : Int) :
    rectSet x y w h i j = true ↔ x ≤ i ∧ i < x + w ∧ y ≤ j ∧ j < y + h := by
  simp [rectSet, and_assoc]

theorem rectBorder_iff (x y w h i j : Int) :
    rectBorder x y w h i j = true ↔ (x ≤ i ∧ i < x + w ∧ y ≤ j ∧ j < y + h) ∧
      (i = x ∨ i = x + w - 1 ∨ j = y ∨ j = y + h - 1) := by
  simp [rectBorder, rectSet_iff, or_assoc]

/-- Settles O17: a line is a rectangle of height or width 1. -/
theorem hlineAndVlineColourTheirLine : Obligations.HlineAndVlineColourTheirLine := by
  intro x y n c s hready hlegal
  constructor
  · refine draws_drawPoints hready hlegal.height fun i j => (rectSet_iff _ _ _ _ i j).trans ?_
    simp only [s16]
    omega
  · refine draws_drawPoints hready hlegal.height fun i j => (rectSet_iff _ _ _ _ i j).trans ?_
    simp only [s16]
    omega

/-- Settles O18: both paint their point set. -/
theorem rectAndFillRectColourTheirPoints : Obligations.RectAndFillRectColourTheirPoints := by
  intro x y w h c s hready hlegal
  exact ⟨draws_drawPoints hready hlegal.height (rectSet_iff _ _ _ _),
    draws_drawPoints hready hlegal.height (rectBorder_iff _ _ _ _)⟩

/-! ### LINE (R136) -/

/-- Settles O19: plotting a list of points draws its members. -/
theorem lineColoursLinePixels : Obligations.LineColoursLinePixels := by
  intro x1 y1 x2 y2 c s hready hlegal
  refine draws_gated hready (draws_respond
    (p := fun i j => decide ((i, j) ∈ linePixels (s16 x1) (s16 y1) (s16 x2) (s16 y2)))
    (fun i j => decide_eq_true_iff) (plot_eq _ c s) (fun x y hin => ?_)
    (plot_read_out _ c s hlegal.height))
  simpa only [decide_eq_true_eq] using fbGet_plot _ c s x y hin

/-! ### Texts and bitmaps (R143, R140) -/

/-- The points of a text by glyph, column and row. -/
theorem textSet_iff (cfg : Cfg) (text : List Byte) (x y i j : Int) :
    textSet cfg text x y i j = true ↔ ∃ (k col row : Nat) (code : Byte), text[k]? = some code ∧
      col < 8 ∧ row < 8 ∧ glyph cfg code col row = true ∧ i = x + 8 * k + col ∧ j = y + row := by
  simp only [textSet, Bool.and_eq_true, decide_eq_true_eq]
  constructor
  · rintro ⟨⟨⟨⟨hx, hx'⟩, hy⟩, hy'⟩, hglyph⟩
    have hk : (i - x).toNat / 8 < text.length := by omega
    rw [List.getD_eq_getElem _ _ hk] at hglyph
    exact ⟨(i - x).toNat / 8, (i - x).toNat % 8, (j - y).toNat, _, List.getElem?_eq_getElem hk,
      by omega, by omega, hglyph, by omega, by omega⟩
  · rintro ⟨k, col, row, code, hcode, hcol, hrow, hglyph, rfl, rfl⟩
    obtain ⟨hk, rfl⟩ := List.getElem?_eq_some_iff.mp hcode
    have hdiv : (x + 8 * k + col - x).toNat / 8 = k := by omega
    have hmod : (x + 8 * k + col - x).toNat % 8 = col := by omega
    have hj : (y + row - y).toNat = row := by omega
    rw [hdiv, hmod, hj, List.getD_eq_getElem _ _ hk]
    exact ⟨⟨⟨⟨by omega, by omega⟩, by omega⟩, by omega⟩, hglyph⟩

/-- The points under the on bits of a bitmap; no bit is on beyond its bytes. -/
theorem blitSet_iff (x y : Int) (sw sh : Nat) (src : List Byte) (i j : Int) :
    blitSet x y sw sh src i j = true ↔ ∃ (sx sy : Nat) (b : Byte), sx < sw ∧ sy < sh ∧
      src[sy / 8 * sw + sx]? = some b ∧ b.getLsbD (sy % 8) = true ∧ i = x + sx ∧ j = y + sy := by
  simp only [blitSet, Bool.and_eq_true, decide_eq_true_eq]
  constructor
  · rintro ⟨⟨⟨⟨hx, hx'⟩, hy⟩, hy'⟩, hbit⟩
    rw [List.getD_eq_getElem?_getD] at hbit
    cases hb : src[(j - y).toNat / 8 * sw + (i - x).toNat]? with
    | none => simp [hb] at hbit
    | some b =>
      rw [hb] at hbit
      exact ⟨(i - x).toNat, (j - y).toNat, b, by omega, by omega, hb, hbit, by omega, by omega⟩
  · rintro ⟨sx, sy, b, hsx, hsy, hb, hbit, rfl, rfl⟩
    have hi : (x + sx - x).toNat = sx := by omega
    have hj : (y + sy - y).toNat = sy := by omega
    rw [hi, hj, List.getD_eq_getElem?_getD, hb]
    exact ⟨⟨⟨⟨by omega, by omega⟩, by omega⟩, by omega⟩, hbit⟩

/-- Settles O21: DRAW_TEXT paints the on pixels of its glyphs. -/
theorem drawTextColoursItsGlyphs : Obligations.DrawTextColoursItsGlyphs := by
  intro x y c text s hready hlegal
  exact draws_gated hready (draws_respond (textSet_iff s.cfg text _ _) rfl
    (fbGet_paint _ c s hlegal.height) (paint_read_out _ c s))

/-- Settles O22: BLIT paints the points under the on bits, in colour 1. -/
theorem blitOrsItsSource : Obligations.BlitOrsItsSource := by
  intro x y sw sh src s hready hlegal
  exact draws_drawPoints hready hlegal.height (blitSet_iff _ _ _ _ src)

end Sys2Proof.Machine
end

section
/-! PROOFS. The points of LINE in closed form (spec/40_framebuffer.md R142). -/

namespace Sys2Proof.Machine

/-! ### The turns of the inner loop -/

/-- How often the minor coordinate has moved when the point at step k along the major axis is plotted. -/
def lineTurns (major minor k : Int) : Int := (2 * k * minor + major) / (2 * major)

/-- At the first point the minor coordinate has not moved. -/
theorem lineTurns_zero {major : Int} (h : 0 ≤ major) (minor : Int) :
    lineTurns major minor 0 = 0 := by
  have hcase : major = 0 ∨ 0 < major := by omega
  rcases hcase with rfl | hpos
  · simp [lineTurns]
  · simpa [lineTurns] using Int.ediv_eq_zero_of_lt h (by omega)

/-- A horizontal or vertical line never moves off its row or column. -/
theorem lineTurns_flat {major : Int} (h : 0 ≤ major) (k : Int) : lineTurns major 0 k = 0 := by
  simpa [lineTurns] using lineTurns_zero h 0

/-- At the last point the minor coordinate has moved all its way. -/
theorem lineTurns_last {major : Int} (h : 0 < major) (minor : Int) :
    lineTurns major minor major = minor := by
  have hsum : 2 * major * minor + major = major + 2 * major * minor := by ring
  rw [lineTurns, hsum, Int.add_mul_ediv_left _ _ (by omega),
    Int.ediv_eq_zero_of_lt (by omega) (by omega), zero_add]

/-- What the inner loop leaves: each turn takes 2·dx from e, and it stops at the first negative e. -/
theorem lineDrop_eq {dx : Int} (hdx : 0 < dx) (sy : Int) (fuel : Nat) {v e : Int}
    (he : 0 ≤ e + 2 * dx) (hfuel : e < fuel) :
    lineDrop fuel sy dx v e =
      (v + sy * ((e + 2 * dx) / (2 * dx)), e - 2 * dx * ((e + 2 * dx) / (2 * dx))) := by
  have hstop : ∀ e, 0 ≤ e + 2 * dx → e < 0 → (e + 2 * dx) / (2 * dx) = 0 :=
    fun e he hneg => Int.ediv_eq_zero_of_lt he (by omega)
  induction fuel generalizing v e with
  | zero => simp [lineDrop, hstop e he hfuel]
  | succ fuel ih =>
    unfold lineDrop
    split
    next hpos =>
      have hturn : (e + 2 * dx) / (2 * dx) = e / (2 * dx) + 1 := by
        simpa using Int.add_mul_ediv_right e 1 (show 2 * dx ≠ 0 by omega)
      rw [ih (by omega) (by omega), Int.sub_add_cancel, hturn, Prod.mk.injEq]
      exact ⟨by ring, by ring⟩
    next hneg => simp [hstop e he (by omega)]

/-- What the inner loop leaves after the point at step k: the turns of step k + 1. -/
theorem lineDrop_turns {dx dy : Int} (hdx : 0 < dx) (hdy : 0 ≤ dy) (sy v k : Int) {e : Int}
    (he : e = 2 * dy * (k + 1) - dx - 2 * dx * lineTurns dx dy k) :
    lineDrop (e.toNat + 1) sy dx (v + sy * lineTurns dx dy k) e =
      (v + sy * lineTurns dx dy (k + 1),
        2 * dy * (k + 1) - dx - 2 * dx * lineTurns dx dy (k + 1)) := by
  have hfloor : lineTurns dx dy k * (2 * dx) ≤ 2 * k * dy + dx := Int.ediv_mul_le _ (by omega)
  have hturn : (e + 2 * dx) / (2 * dx) = lineTurns dx dy (k + 1) - lineTurns dx dy k := by
    have hsum : e + 2 * dx = 2 * (k + 1) * dy + dx + 2 * dx * -lineTurns dx dy k := by
      rw [he]; ring
    rw [hsum, Int.add_mul_ediv_left _ _ (by omega), ← sub_eq_add_neg]
    rfl
  have hlow : 0 ≤ e + 2 * dx := by nlinarith
  rw [lineDrop_eq hdx sy _ hlow (by omega), hturn, he, Prod.mk.injEq]
  exact ⟨by ring, by ring⟩

/-! ### The outer loop -/

/-- The point at step k along the major axis. -/
def linePoint (steep : Bool) (sx sy dx dy u v k : Int) : Int × Int :=
  if steep then (v + sy * lineTurns dx dy k, u + sx * k)
  else (u + sx * k, v + sy * lineTurns dx dy k)

/-- The outer loop plots the points of its remaining steps. -/
theorem lineLoop_eq {dx dy : Int} (hdx : 0 < dx) (hdy : 0 ≤ dy) (steep : Bool) (sx sy u v : Int)
    (n k : Nat) :
    lineLoop n steep sx sy dx dy (u + sx * k) (v + sy * lineTurns dx dy k)
        (2 * dy * (k + 1) - dx - 2 * dx * lineTurns dx dy k) =
      (List.range' k n).map (fun i : Nat => linePoint steep sx sy dx dy u v i) := by
  induction n generalizing k with
  | zero => rfl
  | succ n ih =>
    have hu : u + sx * k + sx = u + sx * (k + 1 : Nat) := by push_cast; ring
    have he : 2 * dy * (k + 1) - dx - 2 * dx * lineTurns dx dy (k + 1) + 2 * dy =
        2 * dy * ((k + 1 : Nat) + 1) - dx - 2 * dx * lineTurns dx dy (k + 1) := by push_cast; ring
    rw [lineLoop, lineDrop_turns hdx hdy sy v k rfl, hu, he, List.range'_succ, List.map_cons]
    exact congrArg (_ :: ·) (ih (k + 1))

/-- The outer loop with the last point plots one point for each step from 0 to dx. -/
theorem lineLoop_append {dx dy : Int} (hdy : 0 ≤ dy) (hle : dy ≤ dx) (steep : Bool)
    (sx sy u v : Int) :
    lineLoop dx.toNat steep sx sy dx dy u v (2 * dy - dx) ++
        [if steep then (v + sy * dy, u + sx * dx) else (u + sx * dx, v + sy * dy)] =
      (List.range (dx.toNat + 1)).map (fun k : Nat => linePoint steep sx sy dx dy u v k) := by
  have hcase : dx = 0 ∨ 0 < dx := by omega
  rcases hcase with rfl | hdx
  · obtain rfl : dy = 0 := by omega
    simp [lineLoop, linePoint, lineTurns]
  · have hloop := lineLoop_eq hdx hdy steep sx sy u v dx.toNat 0
    have hlast : ((dx.toNat : Nat) : Int) = dx := by omega
    simp only [Nat.cast_zero, mul_zero, add_zero, zero_add, mul_one, sub_zero,
      lineTurns_zero (by omega : 0 ≤ dx)] at hloop
    rw [hloop, List.range_succ, List.map_append, List.range_eq_range', List.map_singleton, hlast,
      linePoint, lineTurns_last hdx]

/-! ### LinePixels -/

/-- A difference is its absolute value in its direction. -/
theorem lineDelta_spec {d a σ : Int} (h : lineDelta d = (a, σ)) :
    0 ≤ a ∧ d = σ * a ∧ (σ = 1 ∨ σ = -1) := by
  unfold lineDelta at h
  split at h <;> obtain ⟨rfl, rfl⟩ := Prod.mk.inj h <;> omega

/-- Membership in a list of one point for each step from 0 to n. -/
theorem mem_map_steps {n : Int} (hn : 0 ≤ n) (f : Int → Int × Int) (p : Int × Int) :
    p ∈ (List.range (n.toNat + 1)).map (fun k : Nat => f k) ↔ ∃ k, 0 ≤ k ∧ k ≤ n ∧ p = f k := by
  simp only [List.mem_map, List.mem_range]
  constructor
  · rintro ⟨k, hk, rfl⟩
    exact ⟨k, by omega, by omega, rfl⟩
  · rintro ⟨k, hk, hkn, rfl⟩
    exact ⟨k.toNat, by omega, by rw [Int.toNat_of_nonneg hk]⟩

section
variable {x1 y1 x2 y2 dx dy sx sy : Int}

/-- A line no higher than wide has one point in each of its columns. -/
theorem mem_linePixels_shallow (hx : lineDelta (x2 - x1) = (dx, sx))
    (hy : lineDelta (y2 - y1) = (dy, sy)) (h : dy ≤ dx) (i j : Int) :
    (i, j) ∈ linePixels x1 y1 x2 y2 ↔
      ∃ k, 0 ≤ k ∧ k ≤ dx ∧ i = x1 + sx * k ∧ j = y1 + sy * lineTurns dx dy k := by
  obtain ⟨hdx, hx2, _⟩ := lineDelta_spec hx
  obtain ⟨hdy, hy2, _⟩ := lineDelta_spec hy
  have hpoints := lineLoop_append hdy h false sx sy x1 y1
  rw [← hx2, ← hy2, add_sub_cancel, add_sub_cancel] at hpoints
  have hline : linePixels x1 y1 x2 y2 =
      lineLoop dx.toNat false sx sy dx dy x1 y1 (2 * dy - dx) ++ [(x2, y2)] := by
    simp [linePixels, hx, hy, not_lt.mpr h]
  rw [hline.trans hpoints, mem_map_steps hdx]
  simp [linePoint]

/-- A line higher than wide has one point in each of its rows. -/
theorem mem_linePixels_steep (hx : lineDelta (x2 - x1) = (dx, sx))
    (hy : lineDelta (y2 - y1) = (dy, sy)) (h : dx < dy) (i j : Int) :
    (i, j) ∈ linePixels x1 y1 x2 y2 ↔
      ∃ k, 0 ≤ k ∧ k ≤ dy ∧ j = y1 + sy * k ∧ i = x1 + sx * lineTurns dy dx k := by
  obtain ⟨hdx, hx2, _⟩ := lineDelta_spec hx
  obtain ⟨hdy, hy2, _⟩ := lineDelta_spec hy
  have hpoints := lineLoop_append hdx h.le true sy sx y1 x1
  rw [← hx2, ← hy2, add_sub_cancel, add_sub_cancel] at hpoints
  have hline : linePixels x1 y1 x2 y2 =
      lineLoop dy.toNat true sy sx dy dx y1 x1 (2 * dx - dy) ++ [(x2, y2)] := by
    simp [linePixels, hx, hy, h]
  rw [hline.trans hpoints, mem_map_steps hdy]
  simp [linePoint, and_comm]

end

/-- The first end point is plotted. -/
theorem start_mem_linePixels (x1 y1 x2 y2 : Int) : (x1, y1) ∈ linePixels x1 y1 x2 y2 := by
  rcases hx : lineDelta (x2 - x1) with ⟨dx, sx⟩
  rcases hy : lineDelta (y2 - y1) with ⟨dy, sy⟩
  obtain ⟨hdx, _⟩ := lineDelta_spec hx
  obtain ⟨hdy, _⟩ := lineDelta_spec hy
  rcases le_or_gt dy dx with h | h
  · exact (mem_linePixels_shallow hx hy h _ _).mpr
      ⟨0, le_rfl, hdx, by simp, by simp [lineTurns_zero hdx]⟩
  · exact (mem_linePixels_steep hx hy h _ _).mpr
      ⟨0, le_rfl, hdy, by simp, by simp [lineTurns_zero hdy]⟩

/-- The second end point is plotted, last of all. -/
theorem end_mem_linePixels (x1 y1 x2 y2 : Int) : (x2, y2) ∈ linePixels x1 y1 x2 y2 := by
  simp [linePixels]

/-- A line without extent is one point. -/
theorem linePixels_self (x y : Int) : linePixels x y x y = [(x, y)] := by
  simp [linePixels, lineDelta, lineLoop]

theorem lineDelta_sub_self (a : Int) : lineDelta (a - a) = (0, -1) := by
  simp [lineDelta]

/-- The steps of one coordinate from a to b reach every integer between them. -/
theorem exists_step_iff {a b d σ : Int} (h : lineDelta (b - a) = (d, σ)) (i : Int) :
    (∃ k, 0 ≤ k ∧ k ≤ d ∧ i = a + σ * k) ↔ min a b ≤ i ∧ i ≤ max a b := by
  obtain ⟨hd, hb, hσ⟩ := lineDelta_spec h
  constructor
  · rintro ⟨k, hk, hkd, rfl⟩
    rcases hσ with rfl | rfl <;> omega
  · intro hi
    rcases hσ with rfl | rfl
    · exact ⟨i - a, by omega, by omega, by omega⟩
    · exact ⟨a - i, by omega, by omega, by omega⟩

/-- A horizontal line is every point between its end points. -/
theorem mem_linePixels_horizontal (x1 x2 y i j : Int) :
    (i, j) ∈ linePixels x1 y x2 y ↔ min x1 x2 ≤ i ∧ i ≤ max x1 x2 ∧ j = y := by
  rcases hx : lineDelta (x2 - x1) with ⟨dx, sx⟩
  obtain ⟨hdx, _⟩ := lineDelta_spec hx
  rw [mem_linePixels_shallow hx (lineDelta_sub_self y) hdx, ← and_assoc, ← exists_step_iff hx]
  simp only [lineTurns_flat hdx, mul_zero, add_zero, ← and_assoc, exists_and_right]

/-- A vertical line is every point between its end points. -/
theorem mem_linePixels_vertical (x y1 y2 i j : Int) :
    (i, j) ∈ linePixels x y1 x y2 ↔ i = x ∧ min y1 y2 ≤ j ∧ j ≤ max y1 y2 := by
  rcases hy : lineDelta (y2 - y1) with ⟨dy, sy⟩
  obtain ⟨hdy, hy2, _⟩ := lineDelta_spec hy
  rcases hdy.eq_or_lt with rfl | hpos
  · obtain rfl : y2 = y1 := by omega
    rw [linePixels_self, List.mem_singleton, Prod.mk.injEq]
    omega
  · rw [mem_linePixels_steep (lineDelta_sub_self x) hy hpos, and_comm, ← exists_step_iff hy]
    simp only [lineTurns_flat hdy, mul_zero, add_zero, ← and_assoc, exists_and_right]

/-- Settles O20: on the major axis the line takes one step for each point, on the minor axis the turns of
the inner loop. -/
theorem linePixelsJoinTheEndPoints : Obligations.LinePixelsJoinTheEndPoints := by
  intro x1 y1 x2 y2 dx dy sx sy hdx hsx hdy hsy
  have hdelta : ∀ d : Int,
      lineDelta d = (if 0 < d then d else -d, if 0 < d then 1 else -1) := by
    intro d
    unfold lineDelta
    split <;> rfl
  have hx : lineDelta (x2 - x1) = (dx, sx) := by rw [hdx, hsx, hdelta]
  have hy : lineDelta (y2 - y1) = (dy, sy) := by rw [hdy, hsy, hdelta]
  exact ⟨fun h _ => mem_linePixels_shallow hx hy h, mem_linePixels_steep hx hy,
    start_mem_linePixels x1 y1 x2 y2, end_mem_linePixels x1 y1 x2 y2, linePixels_self x1 y1,
    mem_linePixels_horizontal x1 x2 y1, mem_linePixels_vertical x1 y1 y2⟩

end Sys2Proof.Machine
end

section
/-! PROOFS. From the events an operation plays to what it ran and answered, where the bus answers every
transaction `ok` and where it does not (spec/41_controller.md R174, spec/42_transport.md R222 to R224,
spec/60_exceptions.md R282). -/

namespace Sys2Proof.Machine

/-! ### What an operation ran -/

/-- `r` is what an operation gives from `s` whose events on a bus that answers `ok` are `es`: it plays
them, and it leaves the internal port as its last transport operation does (R100). -/
structure Sends (s : State) (es : List WireEvent) (r : TpRes) : Prop extends Moves s es r where
  allOk : AllOk es
  left : PortLeft s.cfg s.cmdBuf r

/-- What is played is what was run, whatever the bus answers. -/
theorem Sends.ran {s : State} {es fs : List WireEvent} {r : TpRes} {a : Answer} {n : Nat}
    (h : Sends s es r) (hplay : playEvents (busAnswer s) es = (a, fs, n)) :
    r.ret = a ∧ Ran s r.st fs n a := by
  have hret : r.ret = a := by rw [h.ret, hplay]
  exact ⟨hret,
    { wire := by rw [h.wire, hplay]
      script := by rw [h.script, hplay]
      asked := by rw [h.asked, hplay]
      lines := by rw [h.lines, hplay]
      ret := h.left.ret.trans hret
      port := fun ha => h.left.port (hret ▸ ha)
      cmdBuf := h.left.cmdBuf
      cfg := h.cfg
      strip := h.strip
      inbox := h.inbox }⟩

theorem Sends.ran_ok {s : State} {es : List WireEvent} {r : TpRes} (h : Sends s es r)
    (hok : BusOk s (transactions es)) :
    r.ret = some .ok ∧ Ran s r.st es (transactions es) (some .ok) :=
  h.ran (playEvents_ok h.allOk hok)

theorem Sends.ran_stop {s : State} {es : List WireEvent} {r : TpRes} {k : Nat} {a : Answer}
    (h : Sends s es r) (hk : k < transactions es) (hstops : BusStops s k a) :
    r.ret = a ∧ Ran s r.st (cutEvents k a es) (k + 1) a := by
  obtain ⟨hok, hanswer, ha⟩ := hstops
  exact h.ran (playEvents_stop h.allOk hk hok hanswer ha)

/-- LIFE, BUSY and the responses are not transport state. -/
theorem Ran.but {s t : State} {es : List WireEvent} {n : Nat} {a : Answer} (h : Ran s t es n a)
    (l : Life) (b : Bool) (q : List (List Byte)) :
    Ran s { t with life := l, busy := b, resp := q } es n a :=
  ⟨h.wire, h.script, h.asked, h.lines, h.ret, h.port, h.cmdBuf, h.cfg, h.strip, h.inbox⟩

/-! ### The end of a controller operation (R174) -/

theorem finish_of_ok {r : TpRes} (h : r.ret = some .ok) : finish r = respond .ok [] r.st := by
  simp [finish, h]

theorem finish_of_fail {r : TpRes} (h : r.ret = some .fail) :
    finish r = raiseStatus .busFail r.st := by
  simp [finish, h]

theorem finish_of_none {r : TpRes} (h : r.ret = none) : finish r = r.st := by
  simp [finish, h]

theorem finishInit_of_ok {r : TpRes} (h : r.ret = some .ok) :
    finishInit r = respond .ok [] { r.st with life := .ready } := by
  simp [finishInit, h]

theorem finishInit_of_fail {r : TpRes} (h : r.ret = some .fail) :
    finishInit r = raiseStatus .busFail { r.st with life := .failed } := by
  simp [finishInit, h]

theorem finishInit_of_none {r : TpRes} (h : r.ret = none) : finishInit r = r.st := by
  simp [finishInit, h]

theorem Ran.finish {s : State} {es : List WireEvent} {n : Nat} {a : Answer} {r : TpRes}
    (h : Ran s r.st es n a) : Ran s (finish r) es n a := by
  unfold Machine.finish
  split
  · exact h.but _ _ _
  · exact h.but _ _ _
  · exact h

theorem Ran.finishInit {s : State} {es : List WireEvent} {n : Nat} {a : Answer} {r : TpRes}
    (h : Ran s r.st es n a) : Ran s (finishInit r) es n a := by
  unfold Machine.finishInit
  split
  · exact h.but _ _ _
  · exact h.but _ _ _
  · exact h

/-- A transaction that is never answered leaves the block busy without a response (R223). -/
theorem Moves.stalled {s : State} {es : List WireEvent} {r : TpRes} (h : Moves s es r)
    (hret : r.ret = none) : r.st.busy = true ∧ r.st.resp = s.resp :=
  ⟨by rw [h.busy, hret, Option.isNone_none, Bool.or_true], h.resp⟩

theorem stopped_finish {s : State} {es : List WireEvent} {r : TpRes} {a : Answer}
    (h : Moves s es r) (hret : r.ret = a) : Stopped s (finish r) a := by
  refine ⟨fun ha => ?_, fun ha => ?_⟩
  · rw [finish_of_fail (hret.trans ha), ← h.resp]
    exact ⟨rfl, rfl⟩
  · rw [finish_of_none (hret.trans ha)]
    exact h.stalled (hret.trans ha)

theorem stopped_finishInit {s : State} {es : List WireEvent} {r : TpRes} {a : Answer}
    (h : Moves s es r) (hret : r.ret = a) : Stopped s (finishInit r) a := by
  refine ⟨fun ha => ?_, fun ha => ?_⟩
  · rw [finishInit_of_fail (hret.trans ha), ← h.resp]
    exact ⟨rfl, rfl⟩
  · rw [finishInit_of_none (hret.trans ha)]
    exact h.stalled (hret.trans ha)

/-- A controller operation that keeps the frame buffer, on a bus that answers `ok`. -/
theorem Sends.finish_ok {s : State} {es : List WireEvent} {r : TpRes} (h : Sends s es r)
    (hfb : r.st.fb = s.fb) (hok : BusOk s (transactions es)) :
    Ran s (finish r) es (transactions es) (some .ok) ∧ (finish r).life = s.life ∧
      (finish r).fb = s.fb ∧ (finish r).busy = false ∧ (finish r).resp = s.resp ++ [[0x00]] := by
  obtain ⟨hret, hran⟩ := h.ran_ok hok
  refine ⟨hran.finish, (finish_life r).trans h.life, (finish_fb r).trans hfb, ?_⟩
  rw [finish_of_ok hret, ← h.resp]
  exact ⟨rfl, rfl⟩

/-- A controller operation that keeps the frame buffer, where the bus does not answer `ok`. -/
theorem Sends.finish_stop {s : State} {es : List WireEvent} {r : TpRes} {k : Nat} {a : Answer}
    (h : Sends s es r) (hfb : r.st.fb = s.fb) (hk : k < transactions es)
    (hstops : BusStops s k a) :
    Ran s (finish r) (cutEvents k a es) (k + 1) a ∧ (finish r).life = s.life ∧
      (finish r).fb = s.fb ∧ Stopped s (finish r) a := by
  obtain ⟨hret, hran⟩ := h.ran_stop hk hstops
  exact ⟨hran.finish, (finish_life r).trans h.life, (finish_fb r).trans hfb,
    stopped_finish h.toMoves hret⟩

end Sys2Proof.Machine
end

section
/-! PROOFS. The device commands and the operations that send only device commands
(spec/41_controller.md R174, R176 to R181, R190 to R206). -/

namespace Sys2Proof.Machine

/-! ### Consecutive TP_CMDs (R181) -/

theorem sends_sendCmds {bs : List Byte} (h : bs ≠ []) (s : State) :
    Sends s (okCmds s.cfg bs) (sendCmds bs s) := by
  obtain ⟨b, bs, rfl⟩ := List.exists_cons_of_ne_nil h
  exact ⟨(plays_sendCmds _ s).toMoves, allOk_okCmds _ _, sendCmds_left b bs s⟩

theorem andThen_assoc (r : TpRes) (f g : State → TpRes) :
    (r.andThen f).andThen g = r.andThen (fun s => (f s).andThen g) := by
  by_cases hok : r.ret = some .ok
  · rw [andThen_of_ok _ hok, andThen_of_ok _ hok]
  · rw [andThen_of_not_ok _ hok, andThen_of_not_ok _ hok, andThen_of_not_ok _ hok]

/-- Sending two byte lists one after the other is sending their concatenation. -/
theorem sendCmds_append (bs cs : List Byte) (s : State) :
    sendCmds (bs ++ cs) s = (sendCmds bs s).andThen (sendCmds cs) := by
  induction bs generalizing s with
  | nil => rfl
  | cons b bs ih =>
    show (tpCmd b s).andThen (sendCmds (bs ++ cs)) = ((tpCmd b s).andThen (sendCmds bs)).andThen _
    rw [andThen_assoc, funext ih]

/-! ### Device commands (R190 to R206) -/

theorem deviceBytes_port {i : Instr} {bytes : List Byte} (h : deviceBytes i = some bytes) :
    i.port = .dev := by
  cases i <;> simp only [deviceBytes, reduceCtorEq] at h
  all_goals rfl

theorem deviceBytes_ne_nil {i : Instr} {bytes : List Byte} (h : deviceBytes i = some bytes) :
    bytes ≠ [] := by
  rintro rfl
  cases i <;> simp [deviceBytes] at h

/-- A device command sends the bytes R190 to R206 give it. -/
theorem exec_device {i : Instr} {bytes : List Byte} (h : deviceBytes i = some bytes) (s : State) :
    exec i s = .next (sendCmds bytes s).st := by
  have hport := deviceBytes_port h
  obtain rfl : encode i = bytes := Option.some.inj ((deviceBytes_eq_encode hport).symm.trans h)
  cases i <;> simp only [Instr.port, reduceCtorEq] at hport
  all_goals rfl

/-- Settles O40: the bytes of a device command are consecutive TP_CMDs, each one transaction. -/
theorem deviceCommandsSendTheirBytes : Obligations.DeviceCommandsSendTheirBytes := by
  intro i bytes s hbytes hok
  have hsends := sends_sendCmds (deviceBytes_ne_nil hbytes) s
  rw [← transactions_okCmds s.cfg bytes] at hok ⊢
  obtain ⟨hret, hran⟩ := hsends.ran_ok hok
  exact ⟨_, exec_device hbytes s, hran, hsends.life, (plays_sendCmds bytes s).fb, hsends.resp,
    by rw [hsends.busy, hret, Option.isNone_some, Bool.or_false]⟩

/-- Settles O41: the k-th transaction of a device command is that of its k-th byte. -/
theorem deviceCommandsStopAtAFailedByte : Obligations.DeviceCommandsStopAtAFailedByte := by
  intro i bytes s k a hbytes hk hstops
  have hsends := sends_sendCmds (deviceBytes_ne_nil hbytes) s
  rw [← transactions_okCmds s.cfg bytes] at hk
  obtain ⟨hret, hran⟩ := hsends.ran_stop hk hstops
  exact ⟨_, exec_device hbytes s, hran, hsends.life, (plays_sendCmds bytes s).fb, hsends.resp,
    by rw [hsends.busy, hret]⟩

/-! ### The toggles (R176 to R180) -/

theorem toggleBytes_ne_nil {i : Instr} {bytes : List Byte} (h : toggleBytes i = some bytes) :
    bytes ≠ [] := by
  rintro rfl
  cases i <;> simp [toggleBytes] at h

/-- ROTATE's two device commands are two consecutive TP_CMDs (R180). -/
theorem rotate_sendCmds (f : Bool) (s : State) :
    (sendDevice (.devComDir f) s).andThen (sendDevice (.devSegRemap f)) =
      sendCmds [if f then 0xC8 else 0xC0, if f then 0xA1 else 0xA0] s := by
  cases f
  · exact (sendCmds_append [0xC0] [0xA0] s).symm
  · exact (sendCmds_append [0xC8] [0xA1] s).symm

/-- A toggle of a READY block sends the bytes R176 to R180 give it. -/
theorem exec_toggle_ready {i : Instr} {bytes : List Byte} {s : State}
    (h : toggleBytes i = some bytes) (hready : s.life = .ready) :
    exec i s = .next (finish (sendCmds bytes s)) := by
  cases i <;> simp only [toggleBytes, reduceCtorEq, Option.some.injEq] at h
  case powerOff | powerOn | contrast =>
    subst h
    exact congrArg Host.Outcome.next (gated_of_ready _ hready)
  case invert f =>
    subst h
    cases f <;> exact congrArg Host.Outcome.next (gated_of_ready _ hready)
  case rotate f =>
    subst h
    rw [← rotate_sendCmds]
    exact congrArg Host.Outcome.next (gated_of_ready _ hready)

/-- Settles O42: a toggle is consecutive TP_CMDs and an answer. -/
theorem togglesSendTheirBytes : Obligations.TogglesSendTheirBytes := by
  intro i bytes s hbytes hready hok
  rw [← transactions_okCmds s.cfg bytes] at hok ⊢
  exact ⟨_, exec_toggle_ready hbytes hready,
    (sends_sendCmds (toggleBytes_ne_nil hbytes) s).finish_ok (plays_sendCmds bytes s).fb hok⟩

/-- Settles O43: the k-th transaction of a toggle is that of its k-th byte. -/
theorem togglesStopAtAFailedByte : Obligations.TogglesStopAtAFailedByte := by
  intro i bytes s k a hbytes hready hk hstops
  rw [← transactions_okCmds s.cfg bytes] at hk
  have hstop := (sends_sendCmds (toggleBytes_ne_nil hbytes) s).finish_stop
    (plays_sendCmds bytes s).fb hk hstops
  rw [hready] at hstop
  exact ⟨_, exec_toggle_ready hbytes hready, hstop⟩

end Sys2Proof.Machine
end

section
/-! PROOFS. SHOW (spec/41_controller.md R173 to R175, R183) and TP_DATA without a chunk size
(spec/42_transport.md R221). -/

namespace Sys2Proof.Machine

/-! ### The flush of SHOW -/

theorem exec_showBuffer_ready {s : State} (h : s.life = .ready) :
    exec .showBuffer s = .next (finish (flush s)) :=
  congrArg Host.Outcome.next (gated_of_ready _ h)

theorem sends_flush {s : State} (h : LegalConfig s.cfg) :
    Sends s (okFlush s.cfg (fun p => memRead s.fb (p * s.cfg.w) s.cfg.w)) (flush s) :=
  ⟨(plays_flush s).toMoves, allOk_okFlush _ _, flush_left h.pages_pos⟩

/-- Settles O44: SHOW is the flush and an answer. -/
theorem showFlushesEveryPage : Obligations.ShowFlushesEveryPage := by
  rintro s _ hready hlegal rfl hok
  exact ⟨_, exec_showBuffer_ready hready, (sends_flush hlegal).finish_ok (plays_flush s).fb hok⟩

/-- Settles O45: the flush stops at the first transaction that is not answered `ok`. -/
theorem showStopsAtAFailedTransaction : Obligations.ShowStopsAtAFailedTransaction := by
  rintro s _ k a hready hlegal rfl hk hstops
  have hstop := (sends_flush hlegal).finish_stop (plays_flush s).fb hk hstops
  rw [hready] at hstop
  exact ⟨_, exec_showBuffer_ready hready, hstop⟩

/-! ### How many events a flush makes (R183) -/

theorem chunks_length (l : List Byte) (c : Nat) : (chunks l c).length = (l.length + c - 1) / c := by
  simp [chunks]

/-- The number of events of one TP_CMD (R226, R230). -/
def cmdEvents : BusKind → Nat
  | .a => 1
  | .b => 5

/-- The number of events of one TP_DATA beside its transactions: those of the bracket (R231). -/
def bracketEvents : BusKind → Nat
  | .a => 0
  | .b => 4

theorem okCmd_length (c : Cfg) (b : Byte) : (okCmd c b).length = cmdEvents c.bus := by
  cases h : c.bus <;> simp [okCmd, cmdEvents, h]

theorem okCmds_length (c : Cfg) (bs : List Byte) :
    (okCmds c bs).length = bs.length * cmdEvents c.bus := by
  simp [okCmds, List.length_flatMap, okCmd_length]

theorem okData_length (c : Cfg) (l : List Byte) :
    (okData c l).length = (chunks l (chunkSize c)).length + bracketEvents c.bus := by
  cases h : c.bus <;> simp [okData, chunkSize, bracketEvents, h]

theorem okPage_length (c : Cfg) (page : Nat → List Byte) (p : Nat) :
    (okPage c page p).length =
      6 * cmdEvents c.bus + ((chunks (page p) (chunkSize c)).length + bracketEvents c.bus) := by
  rw [okPage, List.length_append, okCmds_length, okData_length]
  rfl

theorem transactions_okPage (c : Cfg) (page : Nat → List Byte) (p : Nat) :
    transactions (okPage c page p) = 6 + (chunks (page p) (chunkSize c)).length := by
  rw [okPage, transactions_append, transactions_okCmds, transactions_okData]
  rfl

theorem okFlush_length {c : Cfg} {page : Nat → List Byte} {n : Nat}
    (h : ∀ p, (chunks (page p) (chunkSize c)).length = n) :
    (okFlush c page).length =
      c.h / 8 * (6 * cmdEvents c.bus + (n + bracketEvents c.bus)) := by
  simp [okFlush, List.length_flatMap, okPage_length, h]

theorem transactions_okFlush {c : Cfg} {page : Nat → List Byte} {n : Nat}
    (h : ∀ p, (chunks (page p) (chunkSize c)).length = n) :
    transactions (okFlush c page) = c.h / 8 * (6 + n) := by
  have hpage : ∀ p, (okPage c page p).countP WireEvent.isTransaction = 6 + n :=
    fun p => (transactions_okPage c page p).trans (by rw [h])
  simp [okFlush, transactions, List.countP_flatMap, Function.comp_def, hpage]

/-- The events of a SHOW whose pages are sent in n chunks each, on a bus that answers `ok`. -/
theorem show_wire_length {s t : State} {n : Nat} (hready : s.life = .ready)
    (hrun : exec .showBuffer s = .next t)
    (hchunks : (s.cfg.w + chunkSize s.cfg - 1) / chunkSize s.cfg = n)
    (hok : BusOk s (s.cfg.h / 8 * (6 + n))) :
    t.wire.length =
      s.wire.length + s.cfg.h / 8 * (6 * cmdEvents s.cfg.bus + (n + bracketEvents s.cfg.bus)) := by
  have hpages : ∀ p, (chunks (memRead s.fb (p * s.cfg.w) s.cfg.w) (chunkSize s.cfg)).length = n :=
    fun p => by rw [chunks_length, memRead_length, hchunks]
  rw [← transactions_okFlush hpages] at hok
  obtain ⟨hret, hwire, _⟩ := (plays_flush s).ok (allOk_okFlush _ _) hok
  rw [exec_showBuffer_ready hready, finish_of_ok hret] at hrun
  rw [← Host.Outcome.next.inj hrun, respond_wire, hwire, List.length_append,
    okFlush_length hpages]

/-- Settles O48: four pages, each of 6 command bytes and of 8 chunks on bus-A or 4 on bus-B. -/
theorem showOfTheDefaultDisplayCounts : Obligations.ShowOfTheDefaultDisplayCounts := by
  intro s t hready hw hh hrun
  refine ⟨fun hbus hchunk hok => ?_, fun hbus hchunk hok => ?_⟩
  · have hsize : chunkSize s.cfg = 16 := by rw [chunkSize, hbus, hchunk]
    rw [show_wire_length (n := 8) hready hrun (by rw [hw, hsize]) (by rw [hh]; exact hok), hh, hbus]
    rfl
  · have hsize : chunkSize s.cfg = 32 := by rw [chunkSize, hbus, hchunk]
    rw [show_wire_length (n := 4) hready hrun (by rw [hw, hsize]) (by rw [hh]; exact hok), hh, hbus]
    rfl

/-! ### TP_DATA without a chunk size -/

/-- Settles O37: the chunk size of the selected variant is checked first. -/
theorem tpDataWithoutChunkSizeFaults : Obligations.TpDataWithoutChunkSizeFaults := by
  intro l s
  refine ⟨fun hbus hchunk => if_pos ?_, fun hbus hchunk => if_pos ?_⟩
  · rw [chunkSize, hbus, hchunk]
  · rw [chunkSize, hbus, hchunk]

end Sys2Proof.Machine
end

section
/-! PROOFS. INIT (spec/41_controller.md R170 to R172). -/

namespace Sys2Proof.Machine

/-! ### The checks (R170, R172) -/

theorem exec_init_ready {s : State} (hlife : s.life = .ready) :
    exec .init s = .next (raiseStatus .alreadyInit s) := by
  simp only [exec, execInit, initOp, hlife]

theorem exec_init_failed {s : State} (hlife : s.life = .failed) :
    exec .init s = .next (raiseStatus .notReady s) := by
  simp only [exec, execInit, initOp, hlife]

theorem exec_init_illegal {s : State} (hlife : s.life = .uninit) (hillegal : ¬ LegalConfig s.cfg) :
    exec .init s = .next (raiseStatus .badConfig { s with life := .failed }) := by
  simp only [exec, execInit, initOp, hlife, if_neg (mt (configLegal_iff s.cfg).mp hillegal)]

/-- INIT past its checks. -/
theorem exec_init_legal {s : State} (hlife : s.life = .uninit) (hlegal : LegalConfig s.cfg) :
    exec .init s = .next (finishInit (initRun s)) := by
  simp only [exec, execInit, initOp, hlife, if_pos ((configLegal_iff s.cfg).mpr hlegal)]

/-- Settles O13: LIFE is checked first and the configuration next, and a failed check only answers. -/
theorem initChecksBeforeItRuns : Obligations.InitChecksBeforeItRuns :=
  fun _ => ⟨exec_init_ready, exec_init_failed, exec_init_illegal⟩

/-! ### The run of INIT -/

/-- The reset pulse, where there is one, drives a line and changes nothing else (R233). -/
theorem initRun_eq_initSend (s : State) : ∃ t, initRun s = initSend t ∧
    t.cfg = s.cfg ∧ t.fb = s.fb ∧ t.cmdBuf = s.cmdBuf := by
  unfold initRun
  cases s.cfg.bus with
  | a => exact ⟨s, rfl, rfl, rfl, rfl⟩
  | b => exact ⟨busBResetPulse s, rfl, rfl, rfl, rfl⟩

theorem initSend_left {s : State} (h : 0 < pages s.cfg) :
    PortLeft s.cfg s.cmdBuf (initSend s) := by
  unfold initSend
  rw [initSeq_eq]
  have hseq : PortLeft s.cfg s.cmdBuf (sendCmds (initBytes s.cfg) s) := sendCmds_left _ _ s
  have hcfg := (plays_sendCmds (initBytes s.cfg) s).cfg
  refine hseq.andThen fun _ => ?_
  have hflush := flush_left (s := fillBytes 0x00 (sendCmds (initBytes s.cfg) s).st)
    (by rw [fillBytes_cfg, hcfg]; exact h)
  rw [fillBytes_cfg, fillBytes_cmdBuf, hcfg] at hflush
  exact ⟨hflush.ret, hflush.port, fun hb => (hflush.cmdBuf hb).trans (hseq.cmdBuf hb)⟩

theorem sends_initRun {s : State} (h : LegalConfig s.cfg) : Sends s (okInit s.cfg) (initRun s) := by
  obtain ⟨t, hrun, hcfg, _, hcmd⟩ := initRun_eq_initSend s
  have hleft := initSend_left (s := t) (hcfg ▸ h.pages_pos)
  rw [← hrun, hcfg, hcmd] at hleft
  exact ⟨moves_initRun s, allOk_okInit _, hleft⟩

/-! ### The frame buffer after INIT -/

/-- INIT that comes to its end has cleared the frame buffer (R170). -/
theorem initSend_fb {s : State} (h : (initSend s).ret = some .ok) :
    (initSend s).st.fb = s.fb.remake (fbSize s.cfg) (fun _ => 0x00) := by
  unfold initSend at h ⊢
  have hseq := plays_sendCmds (initSeq s.cfg) s
  by_cases hok : (sendCmds (initSeq s.cfg) s).ret = some .ok
  · rw [andThen_of_ok _ hok, (plays_flush _).fb, fillBytes_fb, hseq.cfg, hseq.fb]
  · rw [andThen_of_not_ok _ hok] at h
    exact absurd h hok

theorem initRun_fb {s : State} (h : (initRun s).ret = some .ok) :
    (initRun s).st.fb = s.fb.remake (fbSize s.cfg) (fun _ => 0x00) := by
  obtain ⟨t, hrun, hcfg, hfb, _⟩ := initRun_eq_initSend s
  rw [hrun] at h ⊢
  rw [initSend_fb h, hcfg, hfb]

/-- No operation outside READY writes a byte outside [0, P × W) (R146). -/
theorem FbChange.read_outside {s t : State} (h : FbChange s t) (hlife : s.life ≠ .ready) {a : Nat}
    (ha : fbSize s.cfg ≤ a) : t.fb.read a = s.fb.read a := by
  cases h with
  | same h => rw [h]
  | remade g h => rw [h, Memory.read_remake, if_neg (by omega)]
  | plotted ps c hready h => exact absurd hready hlife

/-! ### INIT -/

/-- Settles O46: INIT sends its events, and its last answer leaves it READY. -/
theorem initBringsTheBlockUp : Obligations.InitBringsTheBlockUp := by
  intro s hlife hlegal hok
  have hsends := sends_initRun hlegal
  obtain ⟨hret, hran⟩ := hsends.ran_ok hok
  refine ⟨_, exec_init_legal hlife hlegal, hran.finishInit, ?_⟩
  rw [finishInit_of_ok hret, ← hsends.resp]
  refine ⟨rfl, rfl, rfl, fun a => ?_⟩
  rw [respond_fb, initRun_fb hret]
  exact Memory.read_remake _ _ _ _

/-- Settles O47: INIT stops at the first transaction that is not answered `ok`, and only a failure moves
LIFE. -/
theorem initStopsAtAFailedTransaction : Obligations.InitStopsAtAFailedTransaction := by
  intro s k a hlife hlegal hk hstops
  have hsends := sends_initRun hlegal
  obtain ⟨hret, hran⟩ := hsends.ran_stop hk hstops
  refine ⟨_, exec_init_legal hlife hlegal, hran.finishInit, stopped_finishInit hsends.toMoves hret,
    fun ha => ?_, fun ha => ?_, fun i hi => ?_⟩
  · rw [finishInit_of_fail (hret.trans ha)]
    rfl
  · rw [finishInit_of_none (hret.trans ha), hsends.life, hlife]
  · rw [finishInit_fb]
    exact (fbChange_initRun s).read_outside (by simp [hlife]) hi

end Sys2Proof.Machine
end

section
/-! PROOFS. The chunks of a payload (spec/42_transport.md R221): its consecutive slices, all full but the
last. -/

namespace Sys2Proof.Machine

/-- The first n slices of c bytes are the first n * c bytes. -/
theorem flatten_slices (l : List Byte) (c n : Nat) :
    ((List.range n).map (fun k => (l.drop (k * c)).take c)).flatten = l.take (n * c) := by
  induction n with
  | zero => simp
  | succ n ih => simp [List.range_succ, ih, Nat.succ_mul, List.take_add]

/-- There is a k-th chunk where the payload has a byte for it. -/
theorem lt_chunks_length_iff {l : List Byte} {c k : Nat} (hc : 1 ≤ c) :
    k < (chunks l c).length ↔ k * c < l.length := by
  rw [chunks_length, ← Nat.succ_le_iff, Nat.le_div_iff_mul_le hc, Nat.succ_mul]
  omega

theorem chunks_flatten (l : List Byte) {c : Nat} (hc : 1 ≤ c) : (chunks l c).flatten = l := by
  have hcover : l.length ≤ (chunks l c).length * c :=
    Nat.not_lt.mp (mt (lt_chunks_length_iff hc).mpr (Nat.lt_irrefl _))
  rw [chunks_length] at hcover
  exact (flatten_slices l c _).trans (List.take_of_length_le hcover)

theorem chunks_nil {c : Nat} (hc : 1 ≤ c) : chunks [] c = [] :=
  List.eq_nil_iff_length_eq_zero.mpr
    (Nat.eq_zero_of_not_pos (mt (lt_chunks_length_iff hc).mp (by simp)))

theorem eq_slice_of_chunks_getElem? {l d : List Byte} {c k : Nat} (h : (chunks l c)[k]? = some d) :
    d = (l.drop (k * c)).take c := by
  obtain ⟨_, hd⟩ := List.getElem?_eq_some_iff.mp h
  simpa [chunks] using hd.symm

/-- A chunk with a whole slice of the payload left for it is full. -/
theorem chunk_length_of_le {l d : List Byte} {c k : Nat} (h : (chunks l c)[k]? = some d)
    (hk : (k + 1) * c ≤ l.length) : d.length = c := by
  rw [eq_slice_of_chunks_getElem? h, List.length_take, List.length_drop]
  rw [Nat.succ_mul] at hk
  omega

/-- A payload of n slices is n full chunks. -/
theorem chunks_of_length_eq_mul {l : List Byte} {c n : Nat} (hc : 1 ≤ c) (hl : l.length = n * c) :
    (chunks l c).length = n ∧ ∀ d ∈ chunks l c, d.length = c := by
  have hlt : ∀ k, k < (chunks l c).length ↔ k < n := fun k => by
    rw [lt_chunks_length_iff hc, hl, Nat.mul_lt_mul_right hc]
  refine ⟨eq_of_forall_lt_iff hlt, fun d hd => ?_⟩
  obtain ⟨k, hk⟩ := List.mem_iff_getElem?.mp hd
  have hkn : k < n := (hlt k).mp (List.getElem?_eq_some_iff.mp hk).1
  exact chunk_length_of_le hk (hl ▸ Nat.mul_le_mul_right c hkn)

/-- Settles O32: the slices join to the payload, and a chunk with another behind it has a whole slice left
for it. -/
theorem chunksSliceThePayload : Obligations.ChunksSliceThePayload := by
  intro l c hc
  refine ⟨chunks_flatten l hc, chunks_length l c, fun hl => hl ▸ chunks_nil hc, fun k d hd => ?_⟩
  obtain ⟨hpos, hle⟩ := chunks_length_mem (List.mem_of_getElem? hd)
  refine ⟨?_, hpos, hle, fun hnext => ?_⟩
  · rw [eq_slice_of_chunks_getElem? hd, List.extract_eq_take_drop]
    rw [List.take_eq_take_iff, List.length_drop, Nat.succ_mul]
    omega
  · exact chunk_length_of_le hd ((lt_chunks_length_iff hc).mp hnext).le

end Sys2Proof.Machine
end

section
/-! PROOFS. TP_CMD and TP_DATA as a whole (spec/42_transport.md R222 to R224, R226 to R232, R235). -/

namespace Sys2Proof.Machine

/-- What an operation that keeps the frame buffer has done, whatever the bus answers. -/
theorem Sends.ran_keeps {s : State} {es fs : List WireEvent} {r : TpRes} {a : Answer} {n : Nat}
    (h : Sends s es r) (hfb : r.st.fb = s.fb)
    (hplay : playEvents (busAnswer s) es = (a, fs, n)) :
    r.ret = a ∧ Ran s r.st fs n a ∧ r.st.life = s.life ∧ r.st.fb = s.fb ∧ r.st.resp = s.resp ∧
      r.st.busy = (s.busy || a.isNone) := by
  obtain ⟨hret, hran⟩ := h.ran hplay
  exact ⟨hret, hran, h.life, hfb, h.resp, by rw [h.busy, hret]⟩

/-! ### TP_CMD -/

theorem sends_tpCmd (b : Byte) (s : State) : Sends s (okCmd s.cfg b) (tpCmd b s) :=
  ⟨(plays_tpCmd b s).toMoves, allOk_okCmd _ _, tpCmd_left b s⟩

/-- Bus-A TP_CMD has one event, and nothing follows it (R226). -/
theorem playEvents_okCmd_busA {c : Cfg} (hbus : c.bus = .a) (f : Nat → Answer) (b : Byte) :
    playEvents f (okCmd c b) = (f 0, [.ax (BitVec.ofNat 7 c.addrA) [0x80, b] (f 0)], 1) := by
  simp only [okCmd, hbus]
  by_cases h0 : f 0 = some .ok
  · rw [playEvents_next rfl h0, h0]
    rfl
  · rw [playEvents_last rfl h0]
    rfl

/-- Bus-B TP_CMD opens its bracket whatever the bus answers, and closes it after `ok` only (R230). -/
theorem playEvents_okCmd_busB {c : Cfg} (hbus : c.bus = .b) (f : Nat → Answer) (b : Byte) :
    playEvents f (okCmd c b) =
      (f 0, [.bl .cs true, .bl .dc false, .bl .cs false, .bw [b] (f 0)] ++
        if f 0 = some .ok then [.bl .cs true] else [], 1) := by
  simp only [okCmd, hbus]
  rw [playEvents_line rfl, playEvents_line rfl, playEvents_line rfl]
  by_cases h0 : f 0 = some .ok
  · rw [playEvents_next rfl h0, h0]
    rfl
  · rw [playEvents_last rfl h0, if_neg h0]
    rfl

/-- A call that never returns leaves what its operation leaves (R100, R223). -/
theorem portCall_of_none {k : Bool} {l : List Byte} {body : State → TpRes} {s : State}
    (h : (portCall k l body s).ret = none) :
    portCall k l body s = body { s with port := some (.tp k l), ret := none } := by
  unfold portCall at h ⊢
  generalize body { s with port := some (.tp k l), ret := none } = r at h ⊢
  obtain ⟨ret, st⟩ := r
  cases ret with
  | none => rfl
  | some a => cases h

theorem releaseCmdBuf_of_none {r : TpRes} (h : (releaseCmdBuf r).ret = none) :
    releaseCmdBuf r = r := by
  obtain ⟨ret, st⟩ := r
  cases ret with
  | none => rfl
  | some a => cases h

/-- A bus-A TP_CMD that is never answered leaves its two bytes in CMDBUF and its request in the port
(R32, R100). -/
theorem tpCmd_stalled_busA {b : Byte} {s : State} (hbus : s.cfg.bus = .a)
    (h : (tpCmd b s).ret = none) :
    (tpCmd b s).st.cmdBuf = (0x80, b) ∧ (tpCmd b s).st.port = some (.tp false [b]) := by
  simp only [tpCmd, hbus] at h ⊢
  have hcall := portCall_of_none h
  rw [hcall] at h ⊢
  rw [busACmd, releaseCmdBuf_of_none h]
  exact ⟨rfl, rfl⟩

theorem busBCmd_port_cmdBuf (b : Byte) (s : State) :
    (busBCmd b s).st.port = s.port ∧ (busBCmd b s).st.cmdBuf = s.cmdBuf :=
  andThen_keeps (P := fun t => t.port = s.port ∧ t.cmdBuf = s.cmdBuf)
    (r := xfer (.bw [b]) (openBracket false s)) ⟨rfl, rfl⟩ (fun _ ht => ht)

/-- A bus-B TP_CMD that is never answered leaves its request in the port (R100). -/
theorem tpCmd_stalled_busB {b : Byte} {s : State} (hbus : s.cfg.bus = .b)
    (h : (tpCmd b s).ret = none) : (tpCmd b s).st.port = some (.tp false [b]) := by
  simp only [tpCmd, hbus] at h ⊢
  exact (portCall_port_cmdBuf s (busBCmd_port_cmdBuf b)).2 h

/-- Settles O33: the one event of TP_CMD is its transaction. -/
theorem tpCmdOnBusA : Obligations.TpCmdOnBusA := by
  intro b s hbus
  obtain ⟨hret, hran, hlife, hfb, hresp, hbusy⟩ :=
    (sends_tpCmd b s).ran_keeps (plays_tpCmd b s).fb (playEvents_okCmd_busA hbus _ b)
  exact ⟨_, rfl, hran, hlife, hfb, hresp, hbusy, fun ha => tpCmd_stalled_busA hbus (hret.trans ha)⟩

/-- Settles O34: three line changes precede the write, and one follows it. -/
theorem tpCmdOnBusB : Obligations.TpCmdOnBusB := by
  intro b s hbus
  obtain ⟨hret, hran, hlife, hfb, hresp, hbusy⟩ :=
    (sends_tpCmd b s).ran_keeps (plays_tpCmd b s).fb (playEvents_okCmd_busB hbus _ b)
  exact ⟨_, rfl, hran, hlife, hfb, hresp, hbusy, fun ha => tpCmd_stalled_busB hbus (hret.trans ha)⟩

/-! ### TP_DATA -/

theorem sends_tpData (l : List Byte) (s : State) : Sends s (okData s.cfg l) (tpData l s) :=
  ⟨(plays_tpData l s).toMoves, allOk_okData _ _, tpData_left l s⟩

theorem exec_tpData {s : State} (h : 1 ≤ chunkSize s.cfg) (l : List Byte) :
    exec (.tpData l) s = .next (tpData l s).st :=
  if_neg (Nat.ne_zero_of_lt h)

/-- TP_DATA on a bus that answers `ok` makes all its events and changes nothing but the wire. -/
theorem tpData_ran_ok {l : List Byte} {s : State}
    (hok : BusOk s (chunks l (chunkSize s.cfg)).length) :
    Ran s (tpData l s).st (okData s.cfg l) (chunks l (chunkSize s.cfg)).length (some .ok) ∧
      (tpData l s).st.life = s.life ∧ (tpData l s).st.fb = s.fb ∧ (tpData l s).st.resp = s.resp ∧
      (tpData l s).st.busy = s.busy := by
  rw [← transactions_okData] at hok ⊢
  obtain ⟨_, hran⟩ := (sends_tpData l s).ran_keeps (plays_tpData l s).fb
    (playEvents_ok (allOk_okData _ _) hok)
  rwa [Option.isNone_some, Bool.or_false] at hran

theorem chunkSize_busA {c : Cfg} (h : c.bus = .a) : chunkSize c = c.chunkA := by rw [chunkSize, h]

theorem chunkSize_busB {c : Cfg} (h : c.bus = .b) : chunkSize c = c.chunkB := by rw [chunkSize, h]

theorem okData_busA {c : Cfg} (h : c.bus = .a) (l : List Byte) : okData c l =
    (chunks l c.chunkA).map (fun d => .ax (BitVec.ofNat 7 c.addrA) (0x40 :: d) (some .ok)) := by
  rw [okData, h]

theorem okData_busB {c : Cfg} (h : c.bus = .b) (l : List Byte) : okData c l =
    [.bl .cs true, .bl .dc true, .bl .cs false] ++
      (chunks l c.chunkB).map (fun d => .bw d (some .ok)) ++ [.bl .cs true] := by
  rw [okData, h]

/-- Settles O35: the events of TP_DATA on a bus that answers `ok` are those of its variant. -/
theorem tpDataSendsTheChunks : Obligations.TpDataSendsTheChunks := by
  intro l s
  refine ⟨fun hbus hsize hok => ?_, fun hbus hsize hok => ?_⟩
  · rw [← chunkSize_busA hbus] at hsize hok
    obtain ⟨hran, hlife, hfb, hresp, hbusy⟩ := tpData_ran_ok hok
    rw [okData_busA hbus, chunkSize_busA hbus] at hran
    exact ⟨_, exec_tpData hsize l, hran, hlife, hfb, hresp, hbusy, (tpData_port_cmdBuf l s).1⟩
  · rw [← chunkSize_busB hbus] at hsize hok
    have hran := tpData_ran_ok hok
    rw [okData_busB hbus, chunkSize_busB hbus] at hran
    exact ⟨_, exec_tpData hsize l, hran⟩

/-! ### A page of 128 bytes -/

/-- A payload of n slices, on a bus that answers `ok`, is sent as n full chunks. -/
theorem exec_tpData_full {l : List Byte} {s t : State} {n : Nat} (hsize : 1 ≤ chunkSize s.cfg)
    (hl : l.length = n * chunkSize s.cfg) (hrun : exec (.tpData l) s = .next t) (hok : BusOk s n) :
    (chunks l (chunkSize s.cfg)).flatten = l ∧ (chunks l (chunkSize s.cfg)).length = n ∧
      (∀ d ∈ chunks l (chunkSize s.cfg), d.length = chunkSize s.cfg) ∧
      t.wire = s.wire ++ okData s.cfg l := by
  obtain ⟨hn, hfull⟩ := chunks_of_length_eq_mul hsize hl
  obtain ⟨hran, _⟩ := tpData_ran_ok (hn ▸ hok)
  rw [exec_tpData hsize] at hrun
  exact ⟨chunks_flatten l hsize, hn, hfull, Host.Outcome.next.inj hrun ▸ hran.wire⟩

/-- Settles O38: 128 is 8 slices of 16 bytes and 4 of 32. -/
theorem pageOf128BytesIsChunked : Obligations.PageOf128BytesIsChunked := by
  intro l s t hl hrun
  refine ⟨fun hbus hchunk hok => ⟨chunks l 16, ?_⟩, fun hbus hchunk hok => ⟨chunks l 32, ?_⟩⟩
  · have hsize : chunkSize s.cfg = 16 := (chunkSize_busA hbus).trans hchunk
    have hsent := exec_tpData_full (by rw [hsize]; decide) (by rw [hsize, hl]) hrun hok
    rwa [okData_busA hbus, hchunk, hsize] at hsent
  · have hsize : chunkSize s.cfg = 32 := (chunkSize_busB hbus).trans hchunk
    have hsent := exec_tpData_full (by rw [hsize]; decide) (by rw [hsize, hl]) hrun hok
    rwa [okData_busB hbus, hchunk, hsize, ← List.append_assoc, ← List.append_assoc] at hsent

end Sys2Proof.Machine
end

section
/-! PROOFS. The strip and the scaled texts (spec/43_glyph.md R250 to R255). -/

namespace Sys2Proof.Machine

/-! ### The strip (R250) -/

@[simp] theorem renderStrip_length (cfg : Cfg) (text : List Byte) :
    (renderStrip cfg text).length = 8 * text.length := by
  simp [renderStrip]

/-- A strip pixel is the pixel of its glyph. -/
theorem stripBit_renderStrip (cfg : Cfg) {text : List Byte} {col row : Nat} {code : Byte}
    (hcode : text[col / 8]? = some code) (hrow : row < 8) :
    stripBit (renderStrip cfg text) col row = glyph cfg code (col % 8) row := by
  obtain ⟨hlt, rfl⟩ := List.getElem?_eq_some_iff.mp hcode
  have hcol : col < (renderStrip cfg text).length := by
    rw [renderStrip_length]
    omega
  rw [stripBit, List.getD_eq_getElem _ _ hcol]
  simp only [renderStrip, List.getElem_map, List.getElem_range]
  rw [byteOf_getLsbD _ _ hrow, List.getD_eq_getElem _ _ hlt]

/-- Settles O30: the strip has one byte for each of the 8n columns, and its bits are the glyph's. -/
theorem stripHoldsTheGlyphs : Obligations.StripHoldsTheGlyphs :=
  fun c text => ⟨renderStrip_length c text, fun _ _ _ => stripBit_renderStrip c⟩

/-! ### The blocks of a magnified strip (R251, R254) -/

/-- The coordinate i lies in the q-th block of `scale` coordinates from x on. -/
def InBlock (x : Int) (scale : Nat) (q i : Int) : Prop :=
  x + q * scale ≤ i ∧ i < x + q * scale + scale

/-- The first n blocks cut up a range of `n * scale` coordinates, and division finds the block
of a coordinate; for scale 0 the range and the blocks are empty. -/
theorem inBlock_iff (x i : Int) (scale n q : Nat) :
    q < n ∧ InBlock x scale q i ↔
      x ≤ i ∧ i < x + (n * scale : Nat) ∧ (i - x).toNat / scale = q := by
  rcases Nat.eq_zero_or_pos scale with rfl | hscale
  · simp only [InBlock, Nat.cast_zero, mul_zero]
    omega
  · constructor
    · rintro ⟨hq, hlo, hhi⟩
      have hn : (q + 1) * scale ≤ n * scale := Nat.mul_le_mul_right scale hq
      rw [Nat.add_mul, Nat.one_mul] at hn
      rw [← Nat.cast_mul] at hlo hhi
      refine ⟨by omega, by omega, Nat.div_eq_of_lt_le (by omega) ?_⟩
      rw [Nat.add_mul, Nat.one_mul]
      omega
    · rintro ⟨hx, hn, rfl⟩
      have hmul := Nat.div_add_mod' (i - x).toNat scale
      have hmod := Nat.mod_lt (i - x).toNat hscale
      refine ⟨(Nat.div_lt_iff_lt_mul hscale).mpr (by omega), ?_⟩
      rw [InBlock, ← Nat.cast_mul]
      omega

/-- A scaled drawing paints the block of every on pixel of the strip. -/
theorem scaledSet_iff (strip : List Byte) (x y : Int) (scale : Nat) (i j : Int) :
    scaledSet strip x y scale i j = true ↔ ∃ col row : Nat, col < strip.length ∧ row < 8 ∧
      stripBit strip col row = true ∧ InBlock x scale col i ∧ InBlock y scale row j := by
  have hcol := inBlock_iff x i scale strip.length
  have hrow := inBlock_iff y j scale 8
  simp only [scaledSet, Bool.and_eq_true, decide_eq_true_eq]
  constructor
  · rintro ⟨⟨⟨⟨hx, hx'⟩, hy⟩, hy'⟩, hbit⟩
    obtain ⟨hlt, hi⟩ := (hcol _).mpr ⟨hx, by simpa using hx', rfl⟩
    obtain ⟨hlt', hj⟩ := (hrow _).mpr ⟨hy, by simpa using hy', rfl⟩
    exact ⟨_, _, hlt, hlt', hbit, hi, hj⟩
  · rintro ⟨col, row, hlt, hlt', hbit, hi, hj⟩
    obtain ⟨hx, hx', rfl⟩ := (hcol col).mp ⟨hlt, hi⟩
    obtain ⟨hy, hy', rfl⟩ := (hrow row).mp ⟨hlt', hj⟩
    exact ⟨⟨⟨⟨hx, by simpa using hx'⟩, hy⟩, by simpa using hy'⟩, hbit⟩

/-- The points of a text magnified by `scale`: a block for every on pixel of its glyphs. -/
def ScaledText (cfg : Cfg) (text : List Byte) (x y : Int) (scale : Nat) (i j : Int) : Prop :=
  ∃ (k col row : Nat) (code : Byte), text[k]? = some code ∧ col < 8 ∧ row < 8 ∧
    glyph cfg code col row = true ∧ InBlock x scale (8 * k + col) i ∧ InBlock y scale row j

/-- Column `8 * k + col` of the strip is column `col` of glyph `k`. -/
theorem scaledSet_renderStrip_iff (cfg : Cfg) (text : List Byte) (x y : Int) (scale : Nat)
    (i j : Int) : scaledSet (renderStrip cfg text) x y scale i j = true ↔
      ScaledText cfg text x y scale i j := by
  rw [scaledSet_iff, renderStrip_length]
  constructor
  · rintro ⟨col, row, hcol, hrow, hbit, hi, hj⟩
    have hcode : text[col / 8]? = some _ := List.getElem?_eq_getElem (by omega)
    rw [stripBit_renderStrip cfg hcode hrow] at hbit
    refine ⟨col / 8, col % 8, row, _, hcode, by omega, hrow, hbit, ?_, hj⟩
    have hdiv : (8 * (col / 8 : Nat) + (col % 8 : Nat) : Int) = col := by omega
    rwa [hdiv]
  · rintro ⟨k, col, row, code, hcode, hcol, hrow, hglyph, hi, hj⟩
    have hk := (List.getElem?_eq_some_iff.mp hcode).1
    have hdiv : (8 * k + col) / 8 = k := by omega
    have hmod : (8 * k + col) % 8 = col := by omega
    refine ⟨8 * k + col, row, by omega, hrow, ?_, by exact_mod_cast hi, hj⟩
    rw [stripBit_renderStrip cfg (by rwa [hdiv]) hrow, hmod, hglyph]

/-! ### DRAW_SCALED_TEXT and DRAW_TEXT_MAX (R251, R253) -/

/-- Where there is no STRIP before, making and discarding it leaves the painting alone (R33). -/
theorem drawScaled_eq_paint (text : List Byte) (x y : Int) (scale : Nat) (c : Bool) {s : State}
    (h : s.strip = none) : drawScaled text x y scale c s =
      paint (scaledSet (renderStrip s.cfg text) x y scale) c s := by
  obtain ⟨⟩ := s
  cases h
  rfl

/-- Behind the gate an operation counts only by what it does to the state it is applied to. -/
theorem gated_congr {op op' : State → State} {s : State} (h : op s = op' s) :
    gated op s = gated op' s := by
  rw [gated, gated, h]

/-- DRAW_SCALED_TEXT paints the blocks of its strip, in every lifecycle state behind the gate. -/
theorem exec_drawScaledText (x y scale : Half) (c : Bool) (text : List Byte) {s : State}
    (hstrip : s.strip = none) : exec (.drawScaledText x y scale c text) s = .next (gated
      (drawPoints (scaledSet (renderStrip s.cfg text) x.toInt y.toInt scale.toNat) c) s) :=
  congrArg Host.Outcome.next
    (gated_congr (congrArg (respond .ok []) (drawScaled_eq_paint text _ _ _ c hstrip)))

/-- DRAW_TEXT_MAX of a non-empty text paints the blocks of its strip at the largest scale. -/
theorem exec_drawTextMax {text : List Byte} {s : State} (htext : text ≠ [])
    (hstrip : s.strip = none) : exec (.drawTextMax text) s = .next (gated (drawPoints
      (scaledSet (renderStrip s.cfg text) 0 0 (maxScale s.cfg text.length)) true) s) := by
  have hlength : text.length ≠ 0 := mt List.eq_nil_of_length_eq_zero htext
  refine congrArg Host.Outcome.next (gated_congr ((if_neg hlength).trans ?_))
  exact congrArg (respond .ok []) (drawScaled_eq_paint text _ _ _ true hstrip)

/-- Settles O26: the points painted are the blocks of the on pixels of the strip. -/
theorem drawScaledTextColoursBlocks : Obligations.DrawScaledTextColoursBlocks := by
  intro x y scale c text s hready hlegal hstrip
  rw [exec_drawScaledText x y scale c text hstrip]
  refine draws_drawPoints hready hlegal.height fun i j =>
    (scaledSet_renderStrip_iff _ _ _ _ _ i j).trans ?_
  simp only [ScaledText, InBlock, and_assoc]

/-- Settles O27: an empty text raises BAD_ARG behind the gate, any other is painted in blocks. -/
theorem drawTextMaxDrawsAtTheLargestScale : Obligations.DrawTextMaxDrawsAtTheLargestScale := by
  intro text s hready hlegal hstrip
  constructor
  · rintro rfl
    exact congrArg Host.Outcome.next (gated_of_ready _ hready)
  · rintro htext scale rfl
    rw [exec_drawTextMax htext hstrip]
    refine draws_drawPoints hready hlegal.height fun i j =>
      (scaledSet_renderStrip_iff _ _ _ _ _ i j).trans ?_
    simp only [ScaledText, InBlock, and_assoc, zero_add, maxScale]

/-! ### Scale 0 (R252) -/

/-- Painting no point rewrites every byte as it was, which in canonical form is no change. -/
theorem paint_of_empty {p : Points} (c : Bool) {s : State} (hp : ∀ i j, p i j = false)
    (hwf : s.fb.wf = true) : paint p c s = s := by
  have hfb : (paint p c s).fb = s.fb := by
    refine Memory.ext_of_wf (paint_wf p c hwf) hwf fun a => ?_
    by_cases ha : a < fbSize s.cfg
    · refine BitVec.eq_of_getLsbD_eq fun k hk => ?_
      rw [paint_bit p c s a k ha hk, hp]
      rfl
    · exact paint_read_out p c s a ha
  exact congrArg (fun m => { s with fb := m }) hfb

theorem scaledSet_zero (strip : List Byte) (x y i j : Int) : scaledSet strip x y 0 i j = false := by
  rw [Bool.eq_false_iff, ne_eq, scaledSet_iff]
  rintro ⟨col, row, _, _, _, ⟨hlo, hhi⟩, _⟩
  omega

/-- Behind the gate of a READY block a drawing of scale 0 changes nothing but the response. -/
theorem gated_drawPoints_scaledSet_zero (strip : List Byte) (x y : Int) (c : Bool) {s : State}
    (hready : s.life = .ready) (hwf : s.fb.wf = true) :
    gated (drawPoints (scaledSet strip x y 0) c) s = respond .ok [] s :=
  (gated_of_ready _ hready).trans
    (congrArg (respond .ok []) (paint_of_empty c (scaledSet_zero strip x y) hwf))

/-- A text wider than the buffer does not fit at any scale (R253). -/
theorem maxScale_of_wide {cfg : Cfg} {n : Nat} (h : cfg.w < 8 * n) : maxScale cfg n = 0 := by
  rw [maxScale, Nat.div_eq_of_lt h, Nat.zero_min]

/-- Settles O29: no point is painted at scale 0, given or computed. -/
theorem scaleZeroDrawsNothing : Obligations.ScaleZeroDrawsNothing := by
  intro x y c text s hready hinv
  constructor
  · rw [exec_drawScaledText x y 0 c text hinv.noStrip]
    exact congrArg Host.Outcome.next (gated_drawPoints_scaledSet_zero _ _ _ c hready hinv.canonical)
  · intro htext hwide
    rw [exec_drawTextMax htext hinv.noStrip, maxScale_of_wide hwide]
    exact congrArg Host.Outcome.next
      (gated_drawPoints_scaledSet_zero _ _ _ true hready hinv.canonical)

/-! ### Scale 1 (R255) -/

/-- A block of scale 1 is one coordinate. -/
theorem inBlock_one_iff (x q i : Int) : InBlock x 1 q i ↔ i = x + q := by
  rw [InBlock]
  omega

/-- At scale 1 the blocks of a text are its points. -/
theorem scaledSet_one (cfg : Cfg) (text : List Byte) (x y : Int) :
    scaledSet (renderStrip cfg text) x y 1 = textSet cfg text x y := by
  funext i j
  rw [Bool.eq_iff_iff, scaledSet_renderStrip_iff, textSet_iff]
  simp only [ScaledText, inBlock_one_iff, add_assoc]

/-- Settles O28: behind the same gate both paint the same points. -/
theorem scaleOneIsDrawText : Obligations.ScaleOneIsDrawText := by
  intro x y c text s hstrip
  rw [exec_drawScaledText x y 1 c text hstrip]
  exact congrArg (fun p => Host.Outcome.next (gated (drawPoints p c) s))
    (scaledSet_one s.cfg text _ _)

end Sys2Proof.Machine
end

section
/-! PROOFS. The sensor frame operation (spec/44_sensor.md R270, R271). -/

namespace Sys2Proof.Machine

/-- A 16-bit response field is its value's remainder and quotient by 256, low byte first (R96). -/
theorem halfBytes_eq_ofNat (v : Half) :
    halfBytes v = [BitVec.ofNat 8 (v.toNat % 256), BitVec.ofNat 8 (v.toNat / 256)] := by
  rw [← loByte_toNat, ← hiByte_toNat, BitVec.ofNat_toNat, BitVec.ofNat_toNat,
    BitVec.setWidth_eq, BitVec.setWidth_eq, halfBytes]

/-- The velocity of a frame, as a number: byte 5 is the high one (R270). -/
theorem frameVelocity_toNat (frame : List Byte) : (frameVelocity frame).toNat =
    (frame.getD 5 0).toNat * 256 + (frame.getD 6 0).toNat :=
  half_toNat _ _

/-- A frame of 10 bytes gives a valid velocity (R270). -/
theorem frameResult_of_length_eq {frame : List Byte} (h : frame.length = 10) :
    frameResult frame = 1 :: halfBytes (frameVelocity frame) :=
  if_pos h

/-- A frame of any other length gives no value (R270, R271). -/
theorem frameResult_of_length_ne {frame : List Byte} (h : frame.length ≠ 10) :
    frameResult frame = [0, 0, 0] :=
  if_neg h

/-- DECODE_FRAME answers OK with the frame's result and changes nothing else, in every lifecycle
state (R270). -/
theorem exec_decodeFrame (frame : List Byte) (s : State) : exec (.decodeFrame frame) s =
    .next { s with busy := false, resp := s.resp ++ [0x00 :: frameResult frame] } := rfl

/-- Settles O31: the velocity field is read high byte first and written low byte first. -/
theorem decodeFrameExtractsTheVelocity : Obligations.DecodeFrameExtractsTheVelocity := by
  intro s b0 b1 b2 b3 b4 b5 b6 b7 b8 b9 frame
  constructor
  · rw [exec_decodeFrame, frameResult_of_length_eq rfl, halfBytes_eq_ofNat, frameVelocity_toNat]
    rfl
  · intro hlength
    rw [exec_decodeFrame, frameResult_of_length_ne hlength]

end Sys2Proof.Machine
end

section
/-! PROOFS. Reset between requests, during a stall and in the middle of a request
(spec/70_reset_and_hazards.md R310, R314). -/

namespace Sys2Proof.Machine

/-- The lines after a reset, with their reset levels written out (R29). -/
theorem resetLines_eq_ite (inputs : Cfg) : resetLines inputs =
    if inputs.bus = .b then some { cs := true, dc := false, res := true } else none := by
  unfold resetLines
  cases inputs.bus <;> rfl

/-! ### Reset between requests or during a stall -/

/-- A stalled block is reset past the requests that wait, an idle one by the reset at the head of the
inbox (R310, R314). -/
theorem fetch_of_reset {s : State} {waiting rest : List HostEvent} {inputs : Cfg}
    (hin : s.inbox = waiting ++ .reset inputs :: rest)
    (hwait : ∀ e ∈ waiting, ∃ op args, e = .request op args)
    (h : s.busy = true ∨ (Idle s ∧ waiting = [])) :
    fetch s = .settled (resetBlock inputs { s with inbox := waiting ++ rest }) := by
  rcases h with hb | ⟨⟨hb, hp⟩, rfl⟩
  · have hreset : takeReset s.inbox = some (inputs, waiting ++ rest) :=
      hin ▸ takeReset_append hwait inputs rest
    simp only [fetch, hb, if_true, hreset]
  · rw [List.nil_append] at hin
    simp [fetch, hb, hp, hin]

/-- Settles O10: the step is the reset it fetches. -/
theorem resetSetsTheResetValues : Obligations.ResetSetsTheResetValues := by
  intro s waiting rest inputs hin hwait h
  refine ⟨resetBlock inputs { s with inbox := waiting ++ rest }, ?_, rfl, rfl, rfl,
    resetLines_eq_ite inputs, rfl, rfl, rfl, rfl, rfl, rfl, rfl⟩
  simp only [step, fetch_of_reset hin hwait h]

/-! ### Reset in the middle of a request -/

/-- A request that runs while reset is applied is abandoned (R310). -/
theorem step_of_resetDuring {s t : State} {op : Byte} {args : List Byte} {n : Nat} {inputs : Cfg}
    {rest : List HostEvent} {i : Instr} (hidle : Idle s)
    (hin : s.inbox = .resetDuring op args n inputs :: rest)
    (hdec : decode .host s.cfg.maxReq (op :: args) = .ok i)
    (hrun : exec i { s with inbox := rest, busy := true } = .next t) :
    step s = .next (abandon n inputs { s with inbox := rest, busy := true } t) := by
  obtain ⟨hb, hp⟩ := hidle
  have hfetch : fetch s = .cut i n inputs { s with inbox := rest, busy := true } := by
    simp [fetch, fetchCut, hb, hp, hin, hdec]
  simp only [step, hfetch, hrun, cutShort]

/-- Settles O11: of the events the request would have made the first n stay, and no operation takes a
waiting request. -/
theorem resetDuringARequestAbandonsIt : Obligations.ResetDuringARequestAbandonsIt := by
  intro s t op args n inputs rest i es hidle hin hdec hrun hwire
  obtain ⟨_, heffect⟩ := exec_effect hrun
  refine ⟨_, step_of_resetDuring hidle hin hdec hrun, ?_, rfl, heffect.inbox, rfl, rfl, rfl,
    resetLines_eq_ite inputs, rfl, rfl⟩
  rw [abandon_wire, hwire, List.drop_left]

end Sys2Proof.Machine
end

section
/-! PROOFS. The bracket a failed bus-B write leaves open (spec/42_transport.md R224, R230, R231,
spec/70_reset_and_hazards.md R318). -/

namespace Sys2Proof.Machine

/-! ### Transactions and a bracket around them -/

/-- Transactions drive no line, whatever the bus answers (R222). -/
theorem linesAfter_play_transactions (f : Nat → Answer) {es : List WireEvent}
    (hes : ∀ e ∈ es, e.isTransaction = true) (ls : Lines) :
    linesAfter (playEvents f es).2.1 ls = ls := by
  induction es generalizing f with
  | nil => rfl
  | cons e es ih =>
    have he := hes e List.mem_cons_self
    have hout : ∀ a, linesAfter [e.withOut a] ls = ls := fun a =>
      linesAfter_transaction ((withOut_isTransaction e a).trans he) ls
    by_cases h0 : f 0 = some .ok
    · rw [playEvents_next he h0, ← List.singleton_append, linesAfter_append, hout]
      exact ih _ (fun e h => hes e (List.mem_cons_of_mem _ h))
    · rw [playEvents_last he h0]
      exact hout _

/-- The events of a bus-B bracket around some writes: CS idle, the mode, CS asserted, the writes, CS
idle (R230, R231). -/
def bracket (mode : Bool) (writes : List WireEvent) : List WireEvent :=
  [.bl .cs true, .bl .dc mode, .bl .cs false] ++ (writes ++ [.bl .cs true])

theorem okCmd_eq_bracket {c : Cfg} (hbus : c.bus = .b) (b : Byte) :
    okCmd c b = bracket false [.bw [b] (some .ok)] := by
  rw [okCmd, hbus]
  rfl

theorem okData_eq_bracket {c : Cfg} (hbus : c.bus = .b) (l : List Byte) :
    okData c l = bracket true ((chunks l c.chunkB).map (fun d => .bw d (some .ok))) := by
  rw [okData_busB hbus, List.append_assoc]
  rfl

/-- The opening of a bracket is played whatever the bus answers. -/
theorem playEvents_bracket (f : Nat → Answer) (mode : Bool) (writes : List WireEvent) :
    playEvents f (bracket mode writes) =
      ((playEvents f (writes ++ [.bl .cs true])).1,
        [.bl .cs true, .bl .dc mode, .bl .cs false] ++
          (playEvents f (writes ++ [.bl .cs true])).2.1,
        (playEvents f (writes ++ [.bl .cs true])).2.2) := by
  simp only [bracket, List.cons_append, List.nil_append, playEvents_line (e := .bl _ _) rfl]

/-- A bracket that does not return `ok` leaves CS asserted (R224). -/
theorem cs_after_failed_bracket {f : Nat → Answer} {mode : Bool} {writes : List WireEvent}
    (hwrites : ∀ e ∈ writes, e.isTransaction = true)
    (hfail : (playEvents f (bracket mode writes)).1 ≠ some .ok) (ls : Lines) :
    (linesAfter (playEvents f (bracket mode writes)).2.1 ls).cs = false := by
  rw [playEvents_bracket] at hfail ⊢
  have hstop : playEvents f (writes ++ [.bl .cs true]) = playEvents f writes := by
    rw [playEvents_append] at hfail ⊢
    split at hfail
    · exact absurd rfl hfail
    next hnot => exact if_neg hnot
  rw [hstop, linesAfter_append, linesAfter_play_transactions f hwrites]
  rfl

/-! ### The transport operations of bus-B -/

/-- Every transport operation of bus-B is a bracket around writes (R230, R231). -/
theorem exec_tp_busB {i : Instr} {s t : State} (hp : i.port = .tp) (hbus : s.cfg.bus = .b)
    (h : exec i s = .next t) : ∃ mode writes r, (∀ e ∈ writes, WireEvent.isTransaction e = true) ∧
      Sends s (bracket mode writes) r ∧ r.st = t := by
  cases i <;> simp only [Instr.port, reduceCtorEq] at hp
  case tpCmd b =>
    have hsends := sends_tpCmd b s
    rw [okCmd_eq_bracket hbus] at hsends
    exact ⟨_, _, _, by simp [WireEvent.isTransaction], hsends, Host.Outcome.next.inj h⟩
  case tpData l =>
    have hsends := sends_tpData l s
    rw [okData_eq_bracket hbus] at hsends
    simp only [exec, execTpData] at h
    split at h
    · cases h
    · exact ⟨_, _, _, by simp [WireEvent.isTransaction], hsends, Host.Outcome.next.inj h⟩

/-- Settles O39: both operations are brackets, the first is left open by its failure, and the second
begins by closing it. -/
theorem failedBracketIsClosedNext : Obligations.FailedBracketIsClosedNext := by
  intro i i' s t u hp hp' hbus hlines hrun hret hrun'
  obtain ⟨mode, writes, r, hwrites, hsends, rfl⟩ := exec_tp_busB hp hbus hrun
  obtain ⟨mode', writes', r', _, hsends', rfl⟩ :=
    exec_tp_busB hp' ((congrArg Cfg.bus hsends.cfg).trans hbus) hrun'
  constructor
  · have hfail : (playEvents (busAnswer s) (bracket mode writes)).1 ≠ some .ok := by
      rw [← hsends.ret, ← hsends.left.ret, hret]
      decide
    obtain ⟨ls, hls⟩ := Option.isSome_iff_exists.mp hlines
    rw [hsends.lines, hls]
    exact congrArg some (cs_after_failed_bracket hwrites hfail ls)
  · rw [hsends'.wire, playEvents_bracket]
    exact ⟨_, rfl⟩

end Sys2Proof.Machine
end
